-- ==== Sys2Proof/Word.lean ====
section
/-! DEFINITION. The word types of the block and the names of its three sequence banks
(spec/00_scope.md section 4: XLEN = 32, DLEN = 33; 10_state.md R11, R13, R15, R16). -/

namespace Sys2Proof

/-- A control register at the host port, a bank element and the command word: 32 bits (R26, R11, R61). -/
abbrev Word := BitVec 32

/-- A byte of BUF (R13). -/
abbrev Byte := BitVec 8

/-- An entry of DLT and the operand of BWC: 33 bits, signed (R15, R17). -/
abbrev Delta := BitVec 33

/-- An entry of WID: 6 bits (R16). -/
abbrev WidthCell := BitVec 6

/-- The three sequence banks; in a blob `b0` is indptr, `b1` indices, `b2` data (R11). -/
inductive Bank where
  | b0
  | b1
  | b2
  deriving DecidableEq, Repr

/-- `INT32`, the set `-2^31 .. 2^31 - 1` (00_scope.md section 5). -/
abbrev InInt32 (v : Int) : Prop := -2 ^ 31 ≤ v ∧ v < 2 ^ 31

end Sys2Proof
end

