-- ==== Sys2Proof/Syntax.lean ====
section
/-! DEFINITION. The seven commands, one constructor per row of spec/opcode_table.json (30_encoding.md R61, R62).
A command that takes a bank carries the two bits of its BANK field as they stand in the word. -/

namespace Sys2Proof

inductive Instr where
  /-- BWC: the width of one integer (R94). -/
  | bwc
  /-- DENC s: delta-transform bank `s` into the scratch (R103). -/
  | denc (s : BitVec 2)
  /-- VENC s: VLD-encode bank `s` into BUF (R118). -/
  | venc (s : BitVec 2)
  /-- VDEC s: VLD-decode BUF into bank `s` (R136). -/
  | vdec (s : BitVec 2)
  /-- DDEC s: running sum of DLT into bank `s` (R142). -/
  | ddec (s : BitVec 2)
  /-- BASM: assemble a blob into BUF (R152). -/
  | basm
  /-- BPAR: parse the blob in BUF (R162). -/
  | bpar
  deriving DecidableEq, Repr

end Sys2Proof
end

