-- ==== Sys2Proof/WellFormed.lean ====
section
/-! DEFINITION. Which commands are legal: a command that takes a bank names bank 0, 1 or 2 (30_encoding.md R63, R64). -/

namespace Sys2Proof

/-- BANK = 3 names no bank (R64). -/
def bankFieldOk (s : BitVec 2) : Bool := s != 3#2

/-- The check on a command: its BANK field, where it has one, names a bank (R63, R64). -/
def wellFormedB : Instr → Bool
  | .bwc => true
  | .denc s => bankFieldOk s
  | .venc s => bankFieldOk s
  | .vdec s => bankFieldOk s
  | .ddec s => bankFieldOk s
  | .basm => true
  | .bpar => true

abbrev WellFormed (i : Instr) : Prop := wellFormedB i = true

end Sys2Proof
end

