-- ==== Sys2Proof/Decode.lean ====
section
/-! DEFINITION. The decoder of command words, total on every 32-bit word and rejecting by name (30_encoding.md R82,
R64), the encoder (R61, R62), and the decoder as the opcode table numbers the bits. -/

namespace Sys2Proof

/-- Why a command word is illegal (R64); all of them raise the same cause (R82). -/
inductive Illegal where
  /-- Bits 31:10 are not all 0. -/
  | zeroFieldSet
  /-- OP is 0x00 or 0x08 and above. -/
  | opUndefined
  /-- BANK is not 0 with a command that takes no bank (BWC, BASM, BPAR). -/
  | bankNotTaken
  /-- BANK is 3. -/
  | bankThree
  deriving DecidableEq, Repr

/-- OP, bits 7:0 (R61). -/
def opField (w : Word) : BitVec 8 := w.extractLsb' 0 8

/-- BANK, bits 9:8 (R61). -/
def bankField (w : Word) : BitVec 2 := w.extractLsb' 8 2

/-- ZERO, bits 31:10 (R61). -/
def zeroField (w : Word) : BitVec 22 := w.extractLsb' 10 22

/-- A command that takes no bank requires BANK = 0 (R63). -/
def withoutBank (w : Word) (i : Instr) : Except Illegal Instr :=
  if bankField w = 0#2 then .ok i else .error .bankNotTaken

/-- A command that takes a bank requires BANK ≤ 2 (R63). -/
def withBank (w : Word) (f : BitVec 2 → Instr) : Except Illegal Instr :=
  if bankFieldOk (bankField w) then .ok (f (bankField w)) else .error .bankThree

/-- `decode(w)`, the tests in the order of R82. -/
def decode (w : Word) : Except Illegal Instr :=
  if zeroField w ≠ 0#22 then .error .zeroFieldSet
  else if opField w = 0x01#8 then withoutBank w .bwc
  else if opField w = 0x02#8 then withBank w .denc
  else if opField w = 0x03#8 then withBank w .venc
  else if opField w = 0x04#8 then withBank w .vdec
  else if opField w = 0x05#8 then withBank w .ddec
  else if opField w = 0x06#8 then withoutBank w .basm
  else if opField w = 0x07#8 then withoutBank w .bpar
  else .error .opUndefined

/-- The operation code of a command (R62). -/
def opcode : Instr → BitVec 8
  | .bwc => 0x01#8
  | .denc _ => 0x02#8
  | .venc _ => 0x03#8
  | .vdec _ => 0x04#8
  | .ddec _ => 0x05#8
  | .basm => 0x06#8
  | .bpar => 0x07#8

/-- The BANK field of a command, 0 where it takes none (R61, R63). -/
def bankOperand : Instr → BitVec 2
  | .bwc => 0#2
  | .denc s => s
  | .venc s => s
  | .vdec s => s
  | .ddec s => s
  | .basm => 0#2
  | .bpar => 0#2

/-- The command word of a command: ZERO, BANK, OP from the top bit down (R61). -/
def encode (i : Instr) : Word := (0#22 ++ bankOperand i ++ opcode i : BitVec 32)

/-- The decoder on a word numbered as spec/opcode_table.json numbers it: a command is one 32-bit word, written to
CMD whole, so bit `k` of the table is bit `k` of the register (R61; log entry 10). Bits above `nbits` are 0, and
a number that does not fit 32 bits is no command word. -/
def decodeTableWord (nbits w : Nat) : Option Instr :=
  if w % 2 ^ nbits < 2 ^ 32 then (decode (BitVec.ofNat 32 (w % 2 ^ nbits))).toOption else none

end Sys2Proof
end

