-- ==== Sys2Proof/Machine/Causes.lean ====
section
/-! DEFINITION. The kinds of exception (R175), the cause codes (R176), and the errors the functions return. -/

namespace Sys2Proof.Machine

/-- The four kinds of exception (R175). -/
inductive Kind where
  | formatError
  | rangeError
  | capacityError
  | illegalCommand
  deriving DecidableEq, Repr

/-- The causes of R176, in the order of its table. -/
inductive Cause where
  | fmtHdrCount
  | fmtHdrWfb
  | fmtWfbRange
  | fmtElemCode
  | fmtElemDelta
  | fmtBlobDim
  | fmtBlobLen
  | fmtBlobBody
  | fmtBlobIndptr
  | rngEncDelta
  | rngDecAcc
  | capSrcLen
  | capSeq
  | capBuf
  | illegalCmd
  deriving DecidableEq, Repr

/-- The code written to ERRCODE (R176). -/
def causeCode : Cause → BitVec 8
  | .fmtHdrCount => 0x10#8
  | .fmtHdrWfb => 0x11#8
  | .fmtWfbRange => 0x12#8
  | .fmtElemCode => 0x13#8
  | .fmtElemDelta => 0x14#8
  | .fmtBlobDim => 0x15#8
  | .fmtBlobLen => 0x16#8
  | .fmtBlobBody => 0x17#8
  | .fmtBlobIndptr => 0x18#8
  | .rngEncDelta => 0x20#8
  | .rngDecAcc => 0x21#8
  | .capSrcLen => 0x30#8
  | .capSeq => 0x31#8
  | .capBuf => 0x32#8
  | .illegalCmd => 0x40#8

/-- The kind of a cause (R176, R177). -/
def causeKind : Cause → Kind
  | .fmtHdrCount => .formatError
  | .fmtHdrWfb => .formatError
  | .fmtWfbRange => .formatError
  | .fmtElemCode => .formatError
  | .fmtElemDelta => .formatError
  | .fmtBlobDim => .formatError
  | .fmtBlobLen => .formatError
  | .fmtBlobBody => .formatError
  | .fmtBlobIndptr => .formatError
  | .rngEncDelta => .rangeError
  | .rngDecAcc => .rangeError
  | .capSrcLen => .capacityError
  | .capSeq => .capacityError
  | .capBuf => .capacityError
  | .illegalCmd => .illegalCommand

/-- The error of a function over one sequence or stream: a cause and an element index (R125). -/
structure Failure where
  cause : Cause
  idx : Nat
  deriving DecidableEq, Repr

/-- An exception as raised: `raise <Kind>(cause, idx, fld)` (R182). -/
structure Exc where
  cause : Cause
  idx : Nat
  fld : Nat
  deriving DecidableEq, Repr

/-- The error of a function with the bank or field `fld` added (R136, R157). -/
def Failure.at (e : Failure) (fld : Nat) : Exc := ⟨e.cause, e.idx, fld⟩

end Sys2Proof.Machine
end

