-- ==== Sys2Proof/Machine/Bits.lean ====
section
/-! DEFINITION. The notation of 00_scope.md section 5 and the primitives of R3, R5, R6, R7, R8: bit strings (most
significant bit first), two's complement, byte layout, field emission and field reading. The spec gives several of them on a domain
(`clog2`, `ubits`, `tc`, `sext`, `bytes_of`, `be32`, `unbe32`); what the total functions here answer outside it, where no command
applies them, is DESIGN CHOICE (log entries 25 and 27). -/

namespace Sys2Proof.Machine

/-- The least of the `f` numbers from `k` on that satisfies `p`, if there is one. -/
def findLeast (p : Nat → Bool) : (f k : Nat) → Option Nat
  | 0, _ => none
  | f + 1, k => if p k then some k else findLeast p f (k + 1)

/-- `bitlen(x)`: the least `k` with `x < 2^k`. -/
def bitlen (x : Nat) : Nat := (findLeast (fun k => decide (x < 2 ^ k)) (x + 1) 0).getD 0

/-- `clog2(m)`, for `m ≥ 1`: the least `k` with `2^k ≥ m` (R5). -/
def clog2 (m : Nat) : Nat := (findLeast (fun k => decide (m ≤ 2 ^ k)) (m + 1) 0).getD 0

/-- `ubits_k(v)`, for `v < 2^k`: the `k`-bit string of `v`, most significant bit first. -/
def ubits : (k v : Nat) → List Bool
  | 0, _ => []
  | k + 1, v => v.testBit k :: ubits k v

/-- `tc_k(v)`, for `-2^(k-1) ≤ v < 2^(k-1)`: the `k`-bit two's-complement string of `v`, sign bit first. -/
def tc (k : Nat) (v : Int) : List Bool := ubits k (v % 2 ^ k).toNat

/-- `uval(s)`: the unsigned value of a bit string read most significant bit first. -/
def uval (s : List Bool) : Nat := s.foldl (fun a b => 2 * a + b.toNat) 0

/-- `sext_k(u)`, for `u < 2^k`: the signed value of a `k`-bit two's-complement pattern (R68). -/
def sext (k u : Nat) : Int := if 2 ^ (k - 1) ≤ u then (u : Int) - 2 ^ k else u

/-- `ceil(n / 8)`. -/
def bytesFor (n : Nat) : Nat := (n + 7) / 8

/-- `pad(S)`: zero bits up to the next byte boundary (R6). -/
def pad (s : List Bool) : List Bool := s ++ List.replicate ((8 - s.length % 8) % 8) false

/-- `bytes_of(s)`, for whole bytes: bit `k` of the stream is bit `7 - k mod 8` of byte `k div 8` (R3). -/
def bytesOf : List Bool → List Byte
  | a :: b :: c :: d :: e :: f :: g :: h :: rest => BitVec.ofNat 8 (uval [a, b, c, d, e, f, g, h]) :: bytesOf rest
  | _ => []

/-- `bits_of(B)`, the inverse of `bytes_of` (R3). -/
def bitsOf (bs : List Byte) : List Bool := bs.flatMap (fun b => ubits 8 b.toNat)

/-- `be32(v)`, for `v < 2^32`: four bytes, the most significant first (R8). DESIGN CHOICE (log entry 25): a number of 2^32 or more,
for which the spec states nothing and which no command lays out, is cut modulo 2^32. -/
def be32 (v : Nat) : List Byte :=
  [BitVec.ofNat 8 (v / 2 ^ 24), BitVec.ofNat 8 (v / 2 ^ 16), BitVec.ofNat 8 (v / 2 ^ 8), BitVec.ofNat 8 v]

/-- `unbe32(b0, b1, b2, b3)` of the first four bytes of a byte string (R8). -/
def unbe32 : List Byte → Nat
  | b0 :: b1 :: b2 :: b3 :: _ => b0.toNat * 2 ^ 24 + b1.toNat * 2 ^ 16 + b2.toNat * 2 ^ 8 + b3.toNat
  | _ => 0

/-- `take(W, k, ...)` on a window given by the bits that remain in it: the field's value and the rest, or nothing
where fewer than `k` bits remain (R7). -/
def takeBits (k : Nat) (w : List Bool) : Option (Nat × List Bool) :=
  if w.length < k then none else some (uval (w.take k), w.drop k)

end Sys2Proof.Machine
end

