-- ==== Sys2Proof/Machine/Width.lean ====
section
/-! DEFINITION. The bit-width calculator as a function (40_bit_width_calculator.md R90 to R93) and the size of the
width code (30_encoding.md R71). -/

namespace Sys2Proof.Machine

/-- `-2^(b-1) ≤ d < 2^(b-1)` (R90). -/
def fitsWidth (d : Int) (b : Nat) : Bool := decide (-2 ^ (b - 1) ≤ d ∧ d < 2 ^ (b - 1))

/-- `bw(d)`: the least width in `1 .. 32` that holds `d`, with `ovf = 0`; `(32, 1)` where there is none (R90, R92). -/
def bw (d : Int) : Nat × Bool :=
  match findLeast (fitsWidth d) 32 1 with
  | some b => (b, false)
  | none => (32, true)

/-- `width(d)`, the first component of `bw(d)` (R90). -/
def width (d : Int) : Nat := (bw d).1

/-- The calculator at its hardware port: a 33-bit operand, the width and `ovf` (R93). -/
def bwPort (d : Delta) : Nat × Bool :=
  let ovf := xor (d.getLsbD 32) (d.getLsbD 31)
  let x : Word := d.extractLsb' 0 32 ^^^ (if d.getLsbD 32 then BitVec.allOnes 32 else 0)
  (if ovf then 32 else bitlen x.toNat + 1, ovf)

/-- `wfb_of(maxWidth)`, for `maxWidth` in 1 to 32 (outside it, where no command applies it: log entry 27): 0 iff maxWidth = 1, else
`clog2(maxWidth)` (R71, R113). -/
def wfbOf (maxWidth : Nat) : Nat := if maxWidth = 1 then 0 else clog2 maxWidth

end Sys2Proof.Machine
end

