-- ==== Sys2Proof/Machine/Sequence.lean ====
section
/-! DEFINITION. The delta transform, pass 1 of the encoder and the running sum as functions over sequences of
integers (41_delta_encoder.md R100, R102; 44_delta_decoder.md R140). -/

namespace Sys2Proof.Machine

/-- `delta(x)`: element 0 is `x[0]`, element `i` is `x[i] - x[i-1]`, exact (R100). -/
def delta : List Int → List Int
  | [] => []
  | a :: t => a :: List.zipWith (fun y p => y - p) t (a :: t)

/-- The largest of the widths, at least 1 (R102, R136). -/
def maxWidthOf (ws : List Nat) : Nat := ws.foldl max 1

/-- The result `(d, w, o, maxWidth, wfb)` of pass 1 (R102). -/
structure Scan where
  deltas : List Int
  widths : List Nat
  ovfs : List Bool
  maxWidth : Nat
  wfb : Nat
  deriving DecidableEq, Repr

/-- `scan(x)` (R102). -/
def scan (x : List Int) : Scan :=
  let d := delta x
  let w := d.map (fun e => (bw e).1)
  { deltas := d, widths := w, ovfs := d.map (fun e => (bw e).2), maxWidth := maxWidthOf w, wfb := wfbOf (maxWidthOf w) }

/-- The running sum from element `i` on, after the value `prev` of element `i - 1` (R140). -/
def undeltaFrom : (i : Nat) → (prev : Int) → List Int → Except Failure (List Int)
  | _, _, [] => .ok []
  | i, prev, d :: t =>
    let v := if i = 0 then d else prev + d
    if InInt32 v then
      match undeltaFrom (i + 1) v t with
      | .ok xs => .ok (v :: xs)
      | .error e => .error e
    else .error ⟨.rngDecAcc, i⟩

/-- `undelta(d)` (R140, R141). -/
def undelta (d : List Int) : Except Failure (List Int) := undeltaFrom 0 0 d

end Sys2Proof.Machine
end

