-- ==== Sys2Proof/Machine/Flags.lean ====
section
/-! DEFINITION. The one flag of the block, FLAGS.OVF, and the three bits of STATUS: how each value is computed
(10_state.md R22, R24; 41_delta_encoder.md R102; 60_exceptions.md R182). -/

namespace Sys2Proof.Machine

/-- FLAGS with OVF as given (R24). -/
def flagsOf (ovf : Bool) : BitVec 1 := BitVec.ofBool ovf

/-- `ovf(x)`: some delta of the sequence is outside INT32 (R102). -/
def scanOvf (sc : Scan) : Bool := sc.ovfs.any id

/-- `first_ovf(x)`: the least index with `o[i] = 1` (R102). DESIGN CHOICE (log entry 27): where there is none, for which the spec gives no
value and where no command and no function applies it, this is the length of the list. -/
def firstOvf (sc : Scan) : Nat := sc.ovfs.findIdx id

/-- OVF after an exception: 1 exactly when the cause is RNG_ENC_DELTA (R182, R24). -/
def ovfAfter (c : Cause) : Bool := decide (c = .rngEncDelta)

/-- STATUS from its bits: BUSY is bit 0, DONE bit 1, ERR bit 2 (R22). -/
def statusOf (busy done err : Bool) : BitVec 3 := BitVec.ofBool err ++ BitVec.ofBool done ++ BitVec.ofBool busy

end Sys2Proof.Machine
end

