-- ==== Sys2Proof/Machine/Stream.lean ====
section
/-! DEFINITION. The VLD stream: `vld_encode` (42_vld_encoder.md R110 to R117) and `vld_decode`
(43_vld_decoder.md R125 to R135) over the layout of 30_encoding.md R65 to R70. -/

namespace Sys2Proof.Machine

/-- One element of the stream: the width code, present only when `wfb > 0`, then the delta (R66, R115). -/
def emitElement (wfb : Nat) (d : Int) (w : Nat) : List Bool :=
  (if wfb > 0 then ubits wfb (w - 1) else []) ++ tc w d

/-- The bits of a stream before the padding: header, then the elements in order (R114, R115). DESIGN CHOICE (log entry 25): a count of
2^32 or more (N22), which R110 excludes and no command reaches, is cut modulo 2^32. -/
def streamBits (n : Nat) (sc : Scan) : List Bool :=
  ubits 32 n ++ ubits 8 sc.wfb ++ (List.zipWith (emitElement sc.wfb) sc.deltas sc.widths).flatten

/-- The length in bytes of a stream, known after pass 1 (R70, R116, R119). -/
def streamLength (sc : Scan) : Nat := bytesFor (40 + (sc.widths.map (fun w => sc.wfb + w)).sum)

/-- Steps R113 to R116 of the encoder, for a sequence whose deltas are all in INT32 (for another, to which no
function applies it, log entry 27). -/
def vldStream (x : List Int) : List Byte := bytesOf (pad (streamBits x.length (scan x)))

/-- `vld_encode(x)` (R110): RangeError at the first delta outside INT32 (R112), else the stream. DESIGN CHOICE (log entry 23):
the document's "values cast to signed 32-bit" has no rule, and the spec takes elements of INT32 only (U9); on a list with an
element outside INT32, which no command reaches, this function casts nothing and refuses nothing. -/
def vldEncode (x : List Int) : Except Failure (List Byte) :=
  if scanOvf (scan x) then .error ⟨.rngEncDelta, firstOvf (scan x)⟩ else .ok (vldStream x)

/-- A decoded element: its value, the delta and the width read (R125). -/
structure Elem where
  value : Int
  delta : Int
  width : Nat
  deriving DecidableEq, Repr

/-- A decoded stream: its elements and the header's widthFieldBits (R125). -/
structure Decoded where
  elems : List Elem
  wfb : Nat
  deriving DecidableEq, Repr

/-- The sequence `x` of a decoded stream. -/
def Decoded.values (r : Decoded) : List Int := r.elems.map Elem.value

/-- The deltas `d` read from the stream. -/
def Decoded.deltas (r : Decoded) : List Int := r.elems.map Elem.delta

/-- The widths `w` read from the stream. -/
def Decoded.widths (r : Decoded) : List Nat := r.elems.map Elem.width

/-- The width of element `i`: its code plus 1, or 1 when there is no code (R129). -/
def takeWidth (wfb : Nat) (bits : List Bool) : Option (Nat × List Bool) :=
  if wfb > 0 then (takeBits wfb bits).map (fun r => (r.1 + 1, r.2)) else some (1, bits)

/-- Element `i` does not fit a bank of `cap` elements; without a capacity every element fits (R137). -/
def overCap (cap : Option Nat) (i : Nat) : Bool :=
  match cap with
  | some c => decide (c ≤ i)
  | none => false

/-- Step 3 of the decoder for elements `i .. i + n - 1`, after the value `prev` of element `i - 1`: read the code,
read the delta, test the sum, test the capacity, in this order (R129 to R131, R133, R137). -/
def decodeElems (cap : Option Nat) (wfb : Nat) : (n i : Nat) → (prev : Int) → List Bool → Except Failure (List Elem)
  | 0, _, _, _ => .ok []
  | n + 1, i, prev, bits =>
    match takeWidth wfb bits with
    | none => .error ⟨.fmtElemCode, i⟩
    | some (w, bits1) =>
      match takeBits w bits1 with
      | none => .error ⟨.fmtElemDelta, i⟩
      | some (u, bits2) =>
        let v := if i = 0 then sext w u else prev + sext w u
        if InInt32 v then
          if overCap cap i then .error ⟨.capSeq, i⟩
          else
            match decodeElems cap wfb n (i + 1) v bits2 with
            | .ok es => .ok (⟨v, sext w u, w⟩ :: es)
            | .error e => .error e
        else .error ⟨.rngDecAcc, i⟩

/-- `vld_decode_cap(B, cap)` (R125); `cap = none` is the case without a limit. -/
def vldDecodeCap (cap : Option Nat) (bs : List Byte) : Except Failure Decoded :=
  match takeBits 32 (bitsOf bs) with
  | none => .error ⟨.fmtHdrCount, 0⟩
  | some (n, bits1) =>
    match takeBits 8 bits1 with
    | none => .error ⟨.fmtHdrWfb, 0⟩
    | some (wfb, bits2) =>
      if wfb > 5 then .error ⟨.fmtWfbRange, 0⟩
      else
        match decodeElems cap wfb n 0 0 bits2 with
        | .ok es => .ok ⟨es, wfb⟩
        | .error e => .error e

/-- `vld_decode(B)` (R125). -/
def vldDecode (bs : List Byte) : Except Failure Decoded := vldDecodeCap none bs

end Sys2Proof.Machine
end

