-- ==== Sys2Proof/Machine/BlobFormat.lean ====
section
/-! DEFINITION. The blob: `blob_assemble` (45_blob_assembler_parser.md R150) and `blob_parse` (R154 to R161) over the
layout of 30_encoding.md R75. -/

namespace Sys2Proof.Machine

/-- A matrix: dimensions and the three arrays indptr, indices, data. The spec's dimensions are naturals below 2^32, which the type does
not ask; what becomes of others is log entry 25 (DESIGN CHOICE). -/
structure Matrix where
  rows : Nat
  cols : Nat
  indptr : List Int
  indices : List Int
  data : List Int
  deriving DecidableEq, Repr

/-- An embedded stream with its length prefix (R75). DESIGN CHOICE (log entry 25): the prefix of a stream of 2^32 bytes or more (N22),
which no command reaches, is its length modulo 2^32. -/
def prefixed (e : List Byte) : List Byte := be32 e.length ++ e

/-- The layout of a blob (R75, R150). DESIGN CHOICE (log entry 25): rows or cols of 2^32 or more (N25: what the assembler does is not
said), which no command reaches, are cut modulo 2^32 and not refused. -/
def blobBytes (rows cols : Nat) (e0 e1 e2 : List Byte) : List Byte :=
  be32 rows ++ be32 cols ++ prefixed e0 ++ prefixed e1 ++ prefixed e2

/-- The encoder's error with the field `k` added (R150). -/
def encodeField (k : Nat) (a : List Int) : Except Exc (List Byte) :=
  match vldEncode a with
  | .ok e => .ok e
  | .error f => .error (f.at k)

/-- `blob_assemble(rows, cols, a_0, a_1, a_2)` (R150). -/
def blobAssemble (m : Matrix) : Except Exc (List Byte) :=
  match encodeField 0 m.indptr with
  | .error e => .error e
  | .ok e0 =>
    match encodeField 1 m.indices with
    | .error e => .error e
    | .ok e1 =>
      match encodeField 2 m.data with
      | .error e => .error e
      | .ok e2 => .ok (blobBytes m.rows m.cols e0 e1 e2)

/-- A parsed blob: dimensions and the three decoded streams (R154, R162). -/
structure Parsed where
  rows : Nat
  cols : Nat
  indptr : Decoded
  indices : Decoded
  data : Decoded
  deriving DecidableEq, Repr

/-- The matrix a parse returns (R154). -/
def Parsed.matrix (p : Parsed) : Matrix :=
  { rows := p.rows, cols := p.cols, indptr := p.indptr.values, indices := p.indices.values, data := p.data.values }

/-- Four bytes as a number and the bytes after them, or nothing where fewer than four remain (R155, R156). -/
def takeWord (bs : List Byte) : Option (Nat × List Byte) :=
  if bs.length < 4 then none else some (unbe32 bs, bs.drop 4)

/-- Field `k`: its prefix, then exactly that many bytes, decoded as a window of their own; the result and the bytes
after the window (R156, R157). -/
def parseField (cap : Option Nat) (k : Nat) (bs : List Byte) : Except Exc (Decoded × List Byte) :=
  match takeWord bs with
  | none => .error ⟨.fmtBlobLen, 0, k⟩
  | some (len, rest) =>
    if rest.length < len then .error ⟨.fmtBlobBody, 0, k⟩
    else
      match vldDecodeCap cap (rest.take len) with
      | .ok r => .ok (r, rest.drop len)
      | .error f => .error (f.at k)

/-- The three fields in order, with the indptr length check right after field 0 (R154, R158, R161). -/
def parseFields (cap : Option Nat) (rows cols : Nat) (bs : List Byte) : Except Exc Parsed :=
  match parseField cap 0 bs with
  | .error e => .error e
  | .ok (a0, bs1) =>
    if a0.elems.length ≠ rows + 1 then .error ⟨.fmtBlobIndptr, 0, 0⟩
    else
      match parseField cap 1 bs1 with
      | .error e => .error e
      | .ok (a1, bs2) =>
        match parseField cap 2 bs2 with
        | .error e => .error e
        | .ok (a2, _) => .ok { rows := rows, cols := cols, indptr := a0, indices := a1, data := a2 }

/-- `blob_parse_cap(B, cap)` (R154); `cap = none` is the case without a limit. -/
def blobParseCap (cap : Option Nat) (bs : List Byte) : Except Exc Parsed :=
  match takeWord bs with
  | none => .error ⟨.fmtBlobDim, 0, 0⟩
  | some (rows, bs1) =>
    match takeWord bs1 with
    | none => .error ⟨.fmtBlobDim, 0, 0⟩
    | some (cols, bs2) => parseFields cap rows cols bs2

/-- `blob_parse(B)` (R154). -/
def blobParse (bs : List Byte) : Except Exc Matrix :=
  match blobParseCap none bs with
  | .ok p => .ok p.matrix
  | .error e => .error e

end Sys2Proof.Machine
end

