-- ==== Sys2Proof/Config.lean ====
section
/-! DEFINITION. What an implementation fixes (the two capacities of the machine that State.reset describes) and
the free values: the values the spec calls unspecified. A free value has no body, so nothing can be proved of
it; each is applied to the draw counter of State and to what is read, so that two reads need not agree (R31). -/

namespace Sys2Proof.Config

/-- `SEQ_CAP` of the machine after `State.reset`. DESIGN CHOICE (log entry 4): the spec leaves the parameter open
between 1 and 2^32 - 1 (D14). Every state carries its own capacity in CAP_SEQ, so no claim about all states
depends on this number. -/
def seqCap : Word := BitVec.ofNat 32 (2 ^ 32 - 1)

/-- `BUF_CAP` of the machine after `State.reset`. DESIGN CHOICE (log entry 4): open between 5 and 2^32 - 1 (D14). -/
def bufCap : Word := BitVec.ofNat 32 (2 ^ 32 - 1)

/-- Free value: element `i` of a bank that nothing has written or that an exception invalidated (R31, R183). -/
opaque freeSeq : (draw : Nat) → (bank : Bank) → (i : Nat) → Word

/-- Free value: an unspecified entry of DLT (R31). -/
opaque freeDlt : (draw : Nat) → (i : Nat) → Delta

/-- Free value: an unspecified entry of WID, less one; the element type is `1 .. 32` (R40). -/
opaque freeWid : (draw : Nat) → (i : Nat) → Fin 32

/-- Free value: an unspecified byte of BUF (R31). -/
opaque freeBuf : (draw : Nat) → (i : Nat) → Byte

/-- Free value: MAXW after a failed command that writes it (R183). -/
opaque freeMaxw : (draw : Nat) → BitVec 6

/-- Free value: WFB after a failed command that writes it (R183). -/
opaque freeWfb : (draw : Nat) → BitVec 8

/-- Free value: ROWS after a failed BPAR (R183). -/
opaque freeRows : (draw : Nat) → Word

/-- Free value: COLS after a failed BPAR (R183). -/
opaque freeCols : (draw : Nat) → Word

/-- Free value: what a read of register number `r` other than STATUS returns while the engine is busy (R47). -/
opaque freeBusyReg : (draw : Nat) → (r : Nat) → Word

end Sys2Proof.Config
end

