-- ==== Sys2Proof/Machine/State.lean ====
section
/-! DEFINITION. The architectural state of the block as plain data (10_state.md R10), the pending inputs of the
machine, and the state after reset (R32). -/

namespace Sys2Proof.Machine

/-- A memory of `w`-bit elements: pairs of an index and the element written there, indices strictly rising. An
index not listed holds no value: nothing has written it since reset or an exception invalidated it, so it is
unspecified (R31). -/
abbrev Memory (w : Nat) := List (Nat × BitVec w)

/-- The canonical form. An unlisted element has no value, so no listed entry can equal it. -/
abbrev Memory.wf {w : Nat} (m : Memory w) : Prop := m.Pairwise (fun a b => a.1 < b.1)

/-- A register that a failed command can leave unspecified (MAXW, WFB, ROWS, COLS; R183): the value it holds, or
the spec's own state "unspecified", in which every read draws a free value (R31). -/
inductive Reg (w : Nat) where
  | holds (v : BitVec w)
  | unspecified
  deriving DecidableEq, Repr

/-- The six memory spaces of R40; the seventh, REG, is reached by register number. -/
inductive Space where
  | seq (b : Bank)
  | dlt
  | wid
  | buf
  deriving DecidableEq, Repr

/-- The element a host write carries: "`v` must be a value of the element's type" (R41). -/
inductive ElementWrite where
  | seq (b : Bank) (i : Nat) (v : Word)
  | dlt (i : Nat) (v : Delta)
  | wid (i : Nat) (v : WidthCell)
  | buf (i : Nat) (v : Byte)
  deriving DecidableEq, Repr

/-- What a host read returns: a 32-bit word (a register, a bank element, a byte or a width zero-extended) or the
33-bit signed value of an entry of DLT (R41). -/
inductive PortValue where
  | word (v : Word)
  | delta (v : Delta)
  deriving DecidableEq, Repr

/-- What happens next at the block: a primitive of the host port (R41), a reset (R200), or the engine's turn, in
which a running command ends (R46). -/
inductive Event where
  | regRead (r : Nat)
  | regWrite (r : Nat) (v : Word)
  | memRead (sp : Space) (i : Nat)
  | memWrite (e : ElementWrite)
  | reset
  | engine
  deriving DecidableEq, Repr

/-- No behaviour of the block stops the machine. Every error the spec names is an exception whose entry it
describes (R182), hence a next state; an access outside a space does nothing (R53); an illegal word raises
IllegalCommand (R180). So there is no fault to name. -/
inductive Fault where
  deriving DecidableEq, Repr

inductive Refusal where
  /-- Raised by an arm of `exec` whose instruction has no meaning yet; no arm of this model raises it. Safe. -/
  | notModelled (mnemonic : String)
  deriving DecidableEq, Repr

/-- Everything the spec gives the machine (R10), then the model's own fields. -/
@[ext]
structure State where
  /-- CMD (0x00): the last accepted command word (R21). -/
  cmd : Word
  /-- STATUS (0x01): bit 0 BUSY, bit 1 DONE, bit 2 ERR (R22). -/
  status : BitVec 3
  /-- ERRCODE (0x02, R23, R176). -/
  errcode : BitVec 8
  /-- ERRIDX (0x03, R23). -/
  erridx : Word
  /-- ERRFLD (0x04, R23). -/
  errfld : BitVec 2
  /-- FLAGS (0x05): bit 0 OVF (R24). -/
  flags : BitVec 1
  /-- ARG_LO (0x06, R17). -/
  argLo : Word
  /-- ARG_HI (0x07, R17). -/
  argHi : BitVec 1
  /-- RES (0x08, R18). -/
  res : BitVec 6
  /-- ROWS (0x09, R19). -/
  rows : Reg 32
  /-- COLS (0x0A, R19). -/
  cols : Reg 32
  /-- SEQ_LEN0 (0x0B, R12). -/
  seqLen0 : Word
  /-- SEQ_LEN1 (0x0C, R12). -/
  seqLen1 : Word
  /-- SEQ_LEN2 (0x0D, R12). -/
  seqLen2 : Word
  /-- DLT_LEN (0x0E, R15). -/
  dltLen : Word
  /-- BUF_LEN (0x0F, R14). -/
  bufLen : Word
  /-- MAXW (0x10, R20). -/
  maxw : Reg 6
  /-- WFB (0x11, R20). -/
  wfb : Reg 8
  /-- CAP_SEQ (0x12): the parameter SEQ_CAP of this machine (R25). -/
  capSeq : Word
  /-- CAP_BUF (0x13): the parameter BUF_CAP of this machine (R25). -/
  capBuf : Word
  /-- SEQ0 (R11). -/
  seq0 : Memory 32
  /-- SEQ1 (R11). -/
  seq1 : Memory 32
  /-- SEQ2 (R11). -/
  seq2 : Memory 32
  /-- DLT (R15). -/
  dlt : Memory 33
  /-- WID (R16). -/
  wid : Memory 6
  /-- BUF (R13): a list of `Host.Cell`. -/
  buf : List Host.Cell
  /-- The model's own: what the host does and when the engine moves, oldest first (log entries 5, 7). -/
  schedule : List Event
  /-- The model's own: the values host reads have returned, newest first (R79; log entry 8). -/
  observed : List PortValue
  /-- The model's own: the draw counter of the free values; every step advances it (R31; log entry 3). -/
  draws : Nat
  deriving DecidableEq, Repr

/-- The machine with capacities `capSeq` and `capBuf` right after reset (R32): every control register 0 but the
two capacities, every memory unspecified, the engine idle; with the model's own fields as given. -/
def State.resetWith (capSeq capBuf : Word) (schedule : List Event) (observed : List PortValue) (draws : Nat) : State where
  cmd := 0
  status := 0
  errcode := 0
  erridx := 0
  errfld := 0
  flags := 0
  argLo := 0
  argHi := 0
  res := 0
  rows := .holds 0
  cols := .holds 0
  seqLen0 := 0
  seqLen1 := 0
  seqLen2 := 0
  dltLen := 0
  bufLen := 0
  maxw := .holds 0
  wfb := .holds 0
  capSeq := capSeq
  capBuf := capBuf
  seq0 := []
  seq1 := []
  seq2 := []
  dlt := []
  wid := []
  buf := []
  schedule := schedule
  observed := observed
  draws := draws

/-- The state after reset, with the capacities of Config (log entry 4), nothing scheduled (log entry 5), nothing
observed and no draw made (log entries 3, 8). -/
def State.reset : State := State.resetWith Config.seqCap Config.bufCap [] [] 0

end Sys2Proof.Machine
end

