-- ==== Sys2Proof/Machine/Ops.lean ====
section
/-! DEFINITION. The named operations over memories and registers, acceptance of a command (10_state.md R21), its
completion (R187), taking an exception (60_exceptions.md R182, R183) and the end of the error state (R184). -/

namespace Sys2Proof.Machine

/-- The element listed at index `i`; none where the element is unspecified (R31). -/
def Memory.get {w : Nat} : Memory w → Nat → Option (BitVec w)
  | [], _ => none
  | (j, v) :: t, i => if i = j then some v else Memory.get t i

/-- Writing element `i`, keeping the indices strictly rising. -/
def Memory.set {w : Nat} : Memory w → Nat → BitVec w → Memory w
  | [], i, v => [(i, v)]
  | (j, u) :: t, i, v =>
    if i < j then (i, v) :: (j, u) :: t
    else if i = j then (i, v) :: t
    else (j, u) :: Memory.set t i v

/-- Writing the elements `i, i + 1, ...` in order (the loops of R103, R118, R136, R142, R152, R162). -/
def Memory.setAll {w : Nat} (m : Memory w) (i : Nat) : List (BitVec w) → Memory w
  | [] => m
  | v :: vs => Memory.setAll (Memory.set m i v) (i + 1) vs

/-- The value of a register that may be unspecified, with `free` for that case (R31, R183). -/
def Reg.val {w : Nat} (r : Reg w) (free : BitVec w) : BitVec w :=
  match r with
  | .holds v => v
  | .unspecified => free

/-! ### Banks -/

/-- A bank's number, as in ERRFLD and the BANK field (R63). -/
def bankNumber : Bank → Nat
  | .b0 => 0
  | .b1 => 1
  | .b2 => 2

/-- The bank a BANK field names; none for 3 (R63, R64). -/
def bankOf (s : BitVec 2) : Option Bank :=
  if s = 0#2 then some .b0 else if s = 1#2 then some .b1 else if s = 2#2 then some .b2 else none

/-- SEQ_LENs (R12). -/
def State.seqLen (s : State) : Bank → Word
  | .b0 => s.seqLen0
  | .b1 => s.seqLen1
  | .b2 => s.seqLen2

/-- SEQ[s] (R11). -/
def State.seq (s : State) : Bank → Memory 32
  | .b0 => s.seq0
  | .b1 => s.seq1
  | .b2 => s.seq2

/-- Writing SEQ_LENs. -/
def State.setSeqLen (s : State) (b : Bank) (n : Word) : State :=
  match b with
  | .b0 => { s with seqLen0 := n }
  | .b1 => { s with seqLen1 := n }
  | .b2 => { s with seqLen2 := n }

/-- Writing the memory of a bank. -/
def State.setSeq (s : State) (b : Bank) (m : Memory 32) : State :=
  match b with
  | .b0 => { s with seq0 := m }
  | .b1 => { s with seq1 := m }
  | .b2 => { s with seq2 := m }

/-- Writing the memory of DLT. -/
def State.setDlt (s : State) (m : Memory 33) : State := { s with dlt := m }

/-- Writing the memory of BUF. -/
def State.setBuf (s : State) (m : Memory 8) : State := { s with buf := m }

/-! ### STATUS -/

/-- STATUS.BUSY (R22). -/
def State.busy (s : State) : Bool := s.status.getLsbD 0

/-- STATUS.DONE (R22). -/
def State.done (s : State) : Bool := s.status.getLsbD 1

/-- STATUS.ERR (R22). -/
def State.err (s : State) : Bool := s.status.getLsbD 2

/-! ### Acceptance and completion -/

/-- Acceptance of the command word `w` (R21): CMD latches it, BUSY is set, DONE and OVF are cleared. -/
def State.accept (s : State) (w : Word) : State :=
  { s with cmd := w, status := statusOf true false s.err, flags := 0 }

/-- Completion: BUSY is cleared and DONE set; nothing else changes (R187). -/
def State.complete (s : State) : State := { s with status := statusOf false true s.err }

/-- The end of the error state (R184): ERR and the three error registers are cleared, nothing else changes. -/
def State.clearErr (s : State) : State :=
  { s with status := statusOf s.busy s.done false, errcode := 0, erridx := 0, errfld := 0 }

/-! ### Taking an exception -/

/-- A group of destinations that an exception invalidates together (R183). -/
inductive Dest where
  /-- DLT_LEN to 0; DLT, WID, MAXW, WFB unspecified. -/
  | scratch
  /-- BUF_LEN to 0; BUF unspecified. -/
  | buf
  /-- SEQ_LENs to 0; SEQ[s] unspecified. -/
  | bank (b : Bank)
  /-- ROWS and COLS unspecified. -/
  | dims
  deriving DecidableEq, Repr

/-- Invalidating one group (R183). -/
def invalidateOne (s : State) : Dest → State
  | .scratch => { s with dltLen := 0, dlt := [], wid := [], maxw := .unspecified, wfb := .unspecified }
  | .buf => { s with bufLen := 0, buf := [] }
  | .bank b => (s.setSeqLen b 0).setSeq b []
  | .dims => { s with rows := .unspecified, cols := .unspecified }

/-- Invalidating the groups of a command (R183). -/
def invalidate (ds : List Dest) (s : State) : State := ds.foldl invalidateOne s

/-- The registers that exception entry writes, all but the destinations (R182): the cause, index and field are
recorded, OVF is 1 for RNG_ENC_DELTA alone, ERR and DONE are set and BUSY cleared. -/
def recordException (e : Exc) (s : State) : State :=
  { s with errcode := causeCode e.cause, erridx := BitVec.ofNat 32 e.idx, errfld := BitVec.ofNat 2 e.fld,
           flags := flagsOf (ovfAfter e.cause), status := statusOf false true true }

/-- Exception entry, the one operation every raise goes through (R182): the command's destinations `ds` are
invalidated (R183) and the exception recorded. Control goes nowhere; nothing is saved. -/
def takeException (ds : List Dest) (e : Exc) (s : State) : State := recordException e (invalidate ds s)

/-- IllegalCommand (R180): no destination is invalidated. -/
def raiseIllegal (s : State) : State := takeException [] ⟨.illegalCmd, 0, 0⟩ s

/-- The destinations of DENC: the scratch (R183). -/
def destsDenc : List Dest := [.scratch]

/-- The destinations of VENC: BUF and the scratch (R183). -/
def destsVenc : List Dest := [.buf, .scratch]

/-- The destinations of VDEC into bank `b`: the bank and the scratch (R183). -/
def destsVdec (b : Bank) : List Dest := [.bank b, .scratch]

/-- The destination of DDEC into bank `b`: the bank (R183). -/
def destsDdec (b : Bank) : List Dest := [.bank b]

/-- The destinations of BASM: BUF and the scratch (R183). -/
def destsBasm : List Dest := [.buf, .scratch]

/-- The destinations of BPAR: the three banks, the scratch, ROWS and COLS (R183). -/
def destsBpar : List Dest := [.bank .b0, .bank .b1, .bank .b2, .scratch, .dims]

/-! ### Writing results -/

/-- The scratch after a command that writes it: entries 0 to n - 1 of DLT and WID, DLT_LEN, MAXW, WFB; entries at
`n` and above keep their old values (R34, R103, R136). -/
def State.writeScratch (s : State) (ds : List Int) (ws : List Nat) (maxWidth wfb : Nat) : State :=
  { s with
    dlt := s.dlt.setAll 0 (ds.map (BitVec.ofInt 33))
    wid := s.wid.setAll 0 (ws.map (BitVec.ofNat 6))
    dltLen := BitVec.ofNat 32 ds.length
    maxw := .holds (BitVec.ofNat 6 maxWidth)
    wfb := .holds (BitVec.ofNat 8 wfb) }

/-- A sequence written to bank `b` with its length: `word32(x[i])` at index `i` (R11, R34). -/
def State.writeBank (s : State) (b : Bank) (xs : List Int) : State :=
  (s.setSeq b ((s.seq b).setAll 0 (xs.map (BitVec.ofInt 32)))).setSeqLen b (BitVec.ofNat 32 xs.length)

/-- Bytes written to BUF from index 0 with their number (R118, R152). -/
def State.writeBuf (s : State) (bs : List Byte) : State :=
  { s with buf := Memory.setAll (w := 8) s.buf 0 bs, bufLen := BitVec.ofNat 32 bs.length }

/-- FLAGS.OVF as a command leaves it (R24). -/
def State.setOvf (s : State) (ovf : Bool) : State := { s with flags := flagsOf ovf }

end Sys2Proof.Machine
end

