-- ==== Sys2Proof/Machine/Operands.lean ====
section
/-! DEFINITION. The operands of the commands (30_encoding.md R81): elements of the memories, with a free value where
an element is unspecified (10_state.md R31), the sequences and byte strings a command reads, and its scalar operands. -/

namespace Sys2Proof.Machine

/-- Element `i` of bank `b` as read in this step. -/
def State.seqElem (s : State) (b : Bank) (i : Nat) : Word := ((s.seq b).get i).getD (Config.freeSeq s.draws b i)

/-- Entry `i` of DLT as read in this step. -/
def State.dltElem (s : State) (i : Nat) : Delta := (s.dlt.get i).getD (Config.freeDlt s.draws i)

/-- Entry `i` of WID as read in this step; a free value is in `1 .. 32` (R40). -/
def State.widElem (s : State) (i : Nat) : WidthCell :=
  (s.wid.get i).getD (BitVec.ofNat 6 ((Config.freeWid s.draws i).val + 1))

/-- Byte `i` of BUF as read in this step. -/
def State.bufElem (s : State) (i : Nat) : Byte := (Memory.get (w := 8) s.buf i).getD (Config.freeBuf s.draws i)

/-- The operand of BWC: `sext_33(ARG_HI[0] * 2^32 + ARG_LO)` (R17). -/
def State.argument (s : State) : Delta := s.argHi ++ s.argLo

/-- The sequence of length SEQ_LENs in bank `b`: `x[i] = sint32(SEQ[s][i])` (R11, R103). -/
def State.source (s : State) (b : Bank) : List Int :=
  (List.range (s.seqLen b).toNat).map (fun i => (s.seqElem b i).toInt)

/-- The deltas `DLT[0 .. DLT_LEN)`, 33-bit signed (R142). -/
def State.deltaSource (s : State) : List Int := (List.range s.dltLen.toNat).map (fun i => (s.dltElem i).toInt)

/-- The bytes `BUF[0 .. BUF_LEN)` (R136, R162). -/
def State.bufSource (s : State) : List Byte := (List.range s.bufLen.toNat).map s.bufElem

/-- ROWS as BASM reads it (R152). -/
def State.rowsVal (s : State) : Word := s.rows.val (Config.freeRows s.draws)

/-- COLS as BASM reads it (R152). -/
def State.colsVal (s : State) : Word := s.cols.val (Config.freeCols s.draws)

/-- A length register exceeds the capacity of its memory (R12, R14, R15, R179). -/
def overLong (len cap : Word) : Bool := decide (cap.toNat < len.toNat)

end Sys2Proof.Machine
end

