-- ==== Sys2Proof/Machine/Transform.lean ====
section
/-! DEFINITION. The meanings of DENC (41_delta_encoder.md R103) and DDEC (44_delta_decoder.md R142). -/

namespace Sys2Proof.Machine

/-- The scratch and OVF as pass 1 over `x` leaves them (R103). -/
def State.writeScan (s : State) (x : List Int) : State :=
  (s.writeScratch (scan x).deltas (scan x).widths (scan x).maxWidth (scan x).wfb).setOvf (scanOvf (scan x))

/-- DENC on bank `b` (R103): a delta outside INT32 is no exception, it sets OVF. -/
def dencBank (b : Bank) (s : State) : State :=
  if overLong (s.seqLen b) s.capSeq then takeException destsDenc ⟨.capSrcLen, 0, bankNumber b⟩ s
  else (s.writeScan (s.source b)).complete

/-- DENC s (R103); BANK = 3 is an illegal command (R64). -/
def execDenc (f : BitVec 2) (s : State) : Host.Outcome State Fault Refusal :=
  match bankOf f with
  | some b => .next (dencBank b s)
  | none => .next (raiseIllegal s)

/-- DDEC into bank `b` (R142); the scratch is a source and keeps its values, also on an exception. -/
def ddecBank (b : Bank) (s : State) : State :=
  if overLong s.dltLen s.capSeq then takeException (destsDdec b) ⟨.capSrcLen, 0, bankNumber b⟩ s
  else
    match undelta s.deltaSource with
    | .ok xs => (s.writeBank b xs).complete
    | .error e => takeException (destsDdec b) (e.at (bankNumber b)) s

/-- DDEC s (R142); BANK = 3 is an illegal command (R64). -/
def execDdec (f : BitVec 2) (s : State) : Host.Outcome State Fault Refusal :=
  match bankOf f with
  | some b => .next (ddecBank b s)
  | none => .next (raiseIllegal s)

end Sys2Proof.Machine
end

