-- ==== Sys2Proof/Machine/Codec.lean ====
section
/-! DEFINITION. The meanings of VENC (42_vld_encoder.md R118) and VDEC (43_vld_decoder.md R136). -/

namespace Sys2Proof.Machine

/-- VENC on bank `b` (R118): source length, range, capacity are tested in this order, then BUF takes the stream and
the scratch what pass 1 computed. -/
def vencBank (b : Bank) (s : State) : State :=
  if overLong (s.seqLen b) s.capSeq then takeException destsVenc ⟨.capSrcLen, 0, bankNumber b⟩ s
  else if scanOvf (scan (s.source b)) then
    takeException destsVenc ⟨.rngEncDelta, firstOvf (scan (s.source b)), bankNumber b⟩ s
  else if s.capBuf.toNat < streamLength (scan (s.source b)) then
    takeException destsVenc ⟨.capBuf, 0, bankNumber b⟩ s
  else ((s.writeScan (s.source b)).writeBuf (vldStream (s.source b))).complete

/-- VENC s (R118); BANK = 3 is an illegal command (R64). -/
def execVenc (f : BitVec 2) (s : State) : Host.Outcome State Fault Refusal :=
  match bankOf f with
  | some b => .next (vencBank b s)
  | none => .next (raiseIllegal s)

/-- The scratch as the decoding of a stream leaves it: the deltas and widths read, MAXW the largest width read and at
least 1, WFB the header's value (R136). -/
def State.writeDecodedScratch (s : State) (r : Decoded) : State :=
  s.writeScratch r.deltas r.widths (maxWidthOf r.widths) r.wfb

/-- VDEC into bank `b` (R136). -/
def vdecBank (b : Bank) (s : State) : State :=
  if overLong s.bufLen s.capBuf then takeException (destsVdec b) ⟨.capSrcLen, 0, bankNumber b⟩ s
  else
    match vldDecodeCap (some s.capSeq.toNat) s.bufSource with
    | .ok r => ((s.writeBank b r.values).writeDecodedScratch r).complete
    | .error e => takeException (destsVdec b) (e.at (bankNumber b)) s

/-- VDEC s (R136); BANK = 3 is an illegal command (R64). -/
def execVdec (f : BitVec 2) (s : State) : Host.Outcome State Fault Refusal :=
  match bankOf f with
  | some b => .next (vdecBank b s)
  | none => .next (raiseIllegal s)

end Sys2Proof.Machine
end

