-- ==== Sys2Proof/Machine/Blob.lean ====
section
/-! DEFINITION. The meanings of BASM (45_blob_assembler_parser.md R152) and BPAR (R162). -/

namespace Sys2Proof.Machine

/-- The banks in field order (R11, R152). -/
def allBanks : List Bank := [.b0, .b1, .b2]

/-- The lowest field whose length register exceeds SEQ_CAP (R152). -/
def basmOverLong (s : State) : Option Bank := allBanks.find? (fun b => overLong (s.seqLen b) s.capSeq)

/-- The lowest field with a delta outside INT32 (R152). -/
def basmOutOfRange (s : State) : Option Bank := allBanks.find? (fun b => scanOvf (scan (s.source b)))

/-- `total = 20 + L_0 + L_1 + L_2` (R76, R152). -/
def basmLength (s : State) : Nat :=
  20 + streamLength (scan (s.source .b0)) + streamLength (scan (s.source .b1)) + streamLength (scan (s.source .b2))

/-- The blob of the three banks (R150, R152). -/
def basmBlob (s : State) : List Byte :=
  blobBytes s.rowsVal.toNat s.colsVal.toNat (vldStream (s.source .b0)) (vldStream (s.source .b1)) (vldStream (s.source .b2))

/-- BASM (R152): all source lengths, then all ranges, then the capacity; BUF takes the blob and the scratch what a
DENC of bank 2 leaves. -/
def execBasm (s : State) : Host.Outcome State Fault Refusal :=
  match basmOverLong s with
  | some b => .next (takeException destsBasm ⟨.capSrcLen, 0, bankNumber b⟩ s)
  | none =>
    match basmOutOfRange s with
    | some b => .next (takeException destsBasm ⟨.rngEncDelta, firstOvf (scan (s.source b)), bankNumber b⟩ s)
    | none =>
      if s.capBuf.toNat < basmLength s then .next (takeException destsBasm ⟨.capBuf, 0, 0⟩ s)
      else .next (((s.writeBuf (basmBlob s)).writeScan (s.source .b2)).complete)

/-- ROWS and COLS as BPAR leaves them (R162). -/
def State.writeDims (s : State) (rows cols : Nat) : State :=
  { s with rows := .holds (BitVec.ofNat 32 rows), cols := .holds (BitVec.ofNat 32 cols) }

/-- The results of BPAR: dimensions, the three banks, and the scratch of the third field (R162). -/
def State.writeParsed (s : State) (p : Parsed) : State :=
  ((((s.writeDims p.rows p.cols).writeBank .b0 p.indptr.values).writeBank .b1 p.indices.values).writeBank .b2
    p.data.values).writeDecodedScratch p.data

/-- BPAR (R162). -/
def execBpar (s : State) : Host.Outcome State Fault Refusal :=
  if overLong s.bufLen s.capBuf then .next (takeException destsBpar ⟨.capSrcLen, 0, 0⟩ s)
  else
    match blobParseCap (some s.capSeq.toNat) s.bufSource with
    | .ok p => .next ((s.writeParsed p).complete)
    | .error e => .next (takeException destsBpar e s)

end Sys2Proof.Machine
end

