-- ==== Sys2Proof/Machine/Calculator.lean ====
section
/-! DEFINITION. The meaning of BWC (40_bit_width_calculator.md R94). -/

namespace Sys2Proof.Machine

/-- BWC: RES and FLAGS.OVF take the two components of `bw` of the operand; no exception (R94). -/
def execBwc (s : State) : Host.Outcome State Fault Refusal :=
  .next (({ s with res := BitVec.ofNat 6 (bw s.argument.toInt).1 }.setOvf (bw s.argument.toInt).2).complete)

end Sys2Proof.Machine
end

