-- ==== Sys2Proof/Machine/Dispatch.lean ====
section
/-! DEFINITION. One arm per command (30_encoding.md R62): the command's work from acceptance to completion or
exception, as one transition (20_memory.md R46). -/

namespace Sys2Proof.Machine

def exec (i : Instr) (s : State) : Host.Outcome State Fault Refusal :=
  match i with
  | .bwc => Sys2Proof.Machine.execBwc s
  | .denc f => Sys2Proof.Machine.execDenc f s
  | .venc f => Sys2Proof.Machine.execVenc f s
  | .vdec f => Sys2Proof.Machine.execVdec f s
  | .ddec f => Sys2Proof.Machine.execDdec f s
  | .basm => Sys2Proof.Machine.execBasm s
  | .bpar => Sys2Proof.Machine.execBpar s

end Sys2Proof.Machine
end

