-- ==== Sys2Proof/Machine/Port.lean ====
section
/-! DEFINITION. The four primitives of the host port (20_memory.md R41, R47, R53) with the access rights of
10_state.md R26 and R33, and reset (70_reset_and_hazards.md R200, R201). -/

namespace Sys2Proof.Machine

/-- The value of register number `r` at the port, zero-extended; a reserved number reads 0 (R26). -/
def State.readReg (s : State) (r : Nat) : Word :=
  match r with
  | 0x00 => s.cmd
  | 0x01 => s.status.setWidth 32
  | 0x02 => s.errcode.setWidth 32
  | 0x03 => s.erridx
  | 0x04 => s.errfld.setWidth 32
  | 0x05 => s.flags.setWidth 32
  | 0x06 => s.argLo
  | 0x07 => s.argHi.setWidth 32
  | 0x08 => s.res.setWidth 32
  | 0x09 => s.rowsVal
  | 0x0A => s.colsVal
  | 0x0B => s.seqLen0
  | 0x0C => s.seqLen1
  | 0x0D => s.seqLen2
  | 0x0E => s.dltLen
  | 0x0F => s.bufLen
  | 0x10 => (s.maxw.val (Config.freeMaxw s.draws)).setWidth 32
  | 0x11 => (s.wfb.val (Config.freeWfb s.draws)).setWidth 32
  | 0x12 => s.capSeq
  | 0x13 => s.capBuf
  | _ => 0

/-- A write of `v` to CMD while the engine is idle: acceptance, or nothing while ERR = 1 (R21, R185). -/
def State.writeCmd (s : State) (v : Word) : State := if s.err then s else s.accept v

/-- A write of `v` to STATUS while the engine is idle: bit 2 of `v` clears ERR; the other bits are ignored (R22, R184). -/
def State.writeStatus (s : State) (v : Word) : State := if v.getLsbD 2 then s.clearErr else s

/-- The effect of a register write while the engine is idle; a read-only or reserved register ignores it, a narrow
register takes the low bits (R26, R33). -/
def State.writeReg (s : State) (r : Nat) (v : Word) : State :=
  match r with
  | 0x00 => s.writeCmd v
  | 0x01 => s.writeStatus v
  | 0x06 => { s with argLo := v }
  | 0x07 => { s with argHi := v.setWidth 1 }
  | 0x09 => { s with rows := .holds v }
  | 0x0A => { s with cols := .holds v }
  | 0x0B => { s with seqLen0 := v }
  | 0x0C => { s with seqLen1 := v }
  | 0x0D => { s with seqLen2 := v }
  | 0x0E => { s with dltLen := v }
  | 0x0F => { s with bufLen := v }
  | _ => s

/-- The number of elements of a space (R40). -/
def State.spaceSize (s : State) : Space → Nat
  | .seq _ => s.capSeq.toNat
  | .dlt => s.capSeq.toNat
  | .wid => s.capSeq.toNat
  | .buf => s.capBuf.toNat

/-- Element `i` of a space as the port returns it (R41): an unspecified element is a free value (R31). -/
def State.elemValue (s : State) (sp : Space) (i : Nat) : PortValue :=
  match sp with
  | .seq b => .word (s.seqElem b i)
  | .dlt => .delta (s.dltElem i)
  | .wid => .word ((s.widElem i).setWidth 32)
  | .buf => .word ((s.bufElem i).setWidth 32)

/-- A free value of a space's element type, for a read out of range (R53) or while the engine is busy (R47). -/
def State.freeValue (s : State) (sp : Space) (i : Nat) : PortValue :=
  match sp with
  | .seq b => .word (Config.freeSeq s.draws b i)
  | .dlt => .delta (Config.freeDlt s.draws i)
  | .wid => .word (BitVec.ofNat 32 ((Config.freeWid s.draws i).val + 1))
  | .buf => .word ((Config.freeBuf s.draws i).setWidth 32)

/-- What a host read returned, recorded (R79). -/
def State.observe (s : State) (v : PortValue) : State := { s with observed := v :: s.observed }

/-- `RegRead(r)` (R41): STATUS is exact at any time; any other register is unspecified while the engine is busy (R47). -/
def hostRegRead (r : Nat) (s : State) : State :=
  if s.busy && r != 0x01 then s.observe (.word (Config.freeBusyReg s.draws r)) else s.observe (.word (s.readReg r))

/-- `RegWrite(r, v)` (R41): ignored while the engine is busy (R47). -/
def hostRegWrite (r : Nat) (v : Word) (s : State) : State := if s.busy then s else s.writeReg r v

/-- `MemRead(space, idx)` (R41): unspecified while the engine is busy (R47) and out of range (R53). -/
def hostMemRead (sp : Space) (i : Nat) (s : State) : State :=
  if s.busy || decide (s.spaceSize sp ≤ i) then s.observe (s.freeValue sp i) else s.observe (s.elemValue sp i)

/-- `MemWrite(space, idx, v)` (R41): ignored while the engine is busy (R47), out of range, and on WID (R53, R16). -/
def hostMemWrite (e : ElementWrite) (s : State) : State :=
  if s.busy then s
  else
    match e with
    | .seq b i v => if i < s.capSeq.toNat then s.setSeq b ((s.seq b).set i v) else s
    | .dlt i v => if i < s.capSeq.toNat then s.setDlt (s.dlt.set i v) else s
    | .wid _ _ => s
    | .buf i v => if i < s.capBuf.toNat then s.setBuf (Memory.set (w := 8) s.buf i v) else s

/-- Reset in any state (R200, R201): a running command is abandoned; the capacities are constants of the machine and
the model's own fields stand (log entry 16). -/
def hostReset (s : State) : State := State.resetWith s.capSeq s.capBuf s.schedule s.observed s.draws

end Sys2Proof.Machine
end

