-- ==== Sys2Proof/Machine/Engine.lean ====
section
/-! DEFINITION. The engine's turn and the service of one scheduled event (00_scope.md R9, 20_memory.md R46). -/

namespace Sys2Proof.Machine

/-- The running command, from acceptance to its end: CMD is decoded and executed; an illegal word raises
IllegalCommand (R21, R64, R180). -/
def runCommand (s : State) : Host.Outcome State Fault Refusal :=
  match decode s.cmd with
  | .ok i => exec i s
  | .error _ => .next (raiseIllegal s)

/-- The engine's turn: a running command ends; an idle engine does nothing (R9, R28, R46). -/
def engineTurn (s : State) : Host.Outcome State Fault Refusal := if s.busy then runCommand s else .next s

/-- What an event does. -/
def serve (e : Event) (s : State) : Host.Outcome State Fault Refusal :=
  match e with
  | .regRead r => .next (hostRegRead r s)
  | .regWrite r v => .next (hostRegWrite r v s)
  | .memRead sp i => .next (hostMemRead sp i s)
  | .memWrite w => .next (hostMemWrite w s)
  | .reset => .next (hostReset s)
  | .engine => engineTurn s

/-- The event of the next step: the oldest scheduled one; with nothing scheduled it is the engine's turn, so a running
command ends without any further input (R9, R209). -/
def State.nextEvent (s : State) : Event := s.schedule.headD .engine

/-- The state in which the next event is served: it is off the schedule, and the draw counter has advanced, so that
the free values of this step are fresh (R31). -/
def State.tick (s : State) : State := { s with schedule := s.schedule.tail, draws := s.draws + 1 }

/-- The state whose very next step runs the command word `w`: the engine has just accepted it (R21), after the error
state ended if there was one (R185), and its turn comes first. -/
def State.withCommand (s : State) (w : Word) : State :=
  { (s.clearErr).accept w with schedule := .engine :: s.schedule }

end Sys2Proof.Machine
end

