-- ==== Sys2Proof/Machine/Step.lean ====
section
/-! DEFINITION. One step of the block, and the placing of a command word where the next step runs it. -/

namespace Sys2Proof.Machine

/-- One step: the next event is taken off the schedule and served. -/
def step (s : State) : Host.Outcome State Fault Refusal := serve s.nextEvent s.tick

/-- The word `w` of `nbits` bits placed where the next step runs it: in CMD, accepted, with the engine's turn next
(log entry 7). -/
def State.withFetchWord (s : State) (nbits w : Nat) : State := s.withCommand (BitVec.ofNat 32 (w % 2 ^ nbits))

end Sys2Proof.Machine
end

