-- ==== Sys2Proof/Safety.lean ====
section
/-! DEFINITION. What counts as safe, in the terms the claims use: the invariant of reachable states, sources that are
specified (70_reset_and_hazards.md R202), a host that keeps the ownership rule (R203), and what a command may write and
raise (10_state.md R34, 60_exceptions.md R176, R183). -/

namespace Sys2Proof.Machine

/-- All listed indices of a memory are below `n`. -/
def Memory.below {w : Nat} (m : Memory w) (n : Nat) : Prop := ∀ p ∈ m, p.1 < n

/-- `m'` is `m` after the elements `vs` were written from index 0: they read back, and every element at or above their
number reads as before (R34). -/
def Memory.wrote {w : Nat} (m m' : Memory w) (vs : List (BitVec w)) : Prop :=
  (∀ i (h : i < vs.length), m'.get i = some vs[i]) ∧ ∀ i, vs.length ≤ i → m'.get i = m.get i

/-- The invariant: what the rules say of every state the machine can be in. -/
structure State.Inv (s : State) : Prop where
  /-- `BUSY = 1` implies `DONE = 0` and `ERR = 0` (R22). -/
  busyAlone : s.busy = true → s.done = false ∧ s.err = false
  /-- `ERR = 1` implies `DONE = 1` (R22). -/
  errDone : s.err = true → s.done = true
  /-- The error registers are 0 when `ERR = 0` (R23, R187). -/
  noError : s.err = false → s.errcode = 0 ∧ s.erridx = 0 ∧ s.errfld = 0
  /-- ERRCODE is a cause code of R176 when `ERR = 1`. -/
  errorCode : s.err = true → ∃ c, s.errcode = causeCode c
  /-- After an exception OVF is 1 exactly for RNG_ENC_DELTA (R182). -/
  errorOvf : s.err = true → s.flags = flagsOf (decide (s.errcode = causeCode .rngEncDelta))
  /-- RES is 0 or a width (R18). -/
  resRange : s.res.toNat ≤ 32
  /-- MAXW, where it has a value, is 0 or a width (R20). -/
  maxwRange : ∀ v, s.maxw = .holds v → v.toNat ≤ 32
  /-- WFB, where it has a value, is at most 5 (R20). -/
  wfbRange : ∀ v, s.wfb = .holds v → v.toNat ≤ 5
  /-- `1 ≤ SEQ_CAP` (00_scope.md section 4). -/
  capSeqRange : 1 ≤ s.capSeq.toNat
  /-- `5 ≤ BUF_CAP` (00_scope.md section 4). -/
  capBufRange : 5 ≤ s.capBuf.toNat
  seqWf : ∀ b, (s.seq b).wf
  dltWf : s.dlt.wf
  widWf : s.wid.wf
  bufWf : Memory.wf (w := 8) s.buf
  seqBound : ∀ b, (s.seq b).below s.capSeq.toNat
  dltBound : s.dlt.below s.capSeq.toNat
  widBound : s.wid.below s.capSeq.toNat
  bufBound : Memory.below (w := 8) s.buf s.capBuf.toNat
  /-- Every width written to WID is in `1 .. 32` (R16). -/
  widRange : ∀ p ∈ s.wid, 1 ≤ p.2.toNat ∧ p.2.toNat ≤ 32

/-- Every valid element of bank `b` has been written since reset or invalidation (R202). -/
def bankSpecified (s : State) (b : Bank) : Prop := ∀ i, i < (s.seqLen b).toNat → (s.seq b).get i ≠ none

/-- Every valid byte of BUF has been written (R202). -/
def bufSpecified (s : State) : Prop := ∀ i, i < s.bufLen.toNat → Memory.get (w := 8) s.buf i ≠ none

/-- Every valid entry of DLT has been written (R202). -/
def dltSpecified (s : State) : Prop := ∀ i, i < s.dltLen.toNat → s.dlt.get i ≠ none

/-- Every source the command reads (R34) is specified: the host's duty of R202. -/
def sourcesSpecified (i : Instr) (s : State) : Prop :=
  match i with
  | .bwc => True
  | .denc f => ∀ b, bankOf f = some b → bankSpecified s b
  | .venc f => ∀ b, bankOf f = some b → bankSpecified s b
  | .vdec _ => bufSpecified s
  | .ddec _ => dltSpecified s
  | .basm => (∀ b, bankSpecified s b) ∧ s.rows ≠ .unspecified ∧ s.cols ≠ .unspecified
  | .bpar => bufSpecified s

/-- The state a step leaves when `e` is the next event. -/
def afterServing (e : Event) (s : State) : State :=
  match serve e s.tick with
  | .next t => t
  | .fault _ => s
  | .refused _ => s

/-- What may happen while the host waits for a command it has issued: a STATUS read is its only access (R203); the engine's turn
and a reset are none of its accesses. -/
def allowedWhileWaiting : Event → Bool
  | .regRead r => r == 0x01
  | .regWrite _ _ => false
  | .memRead _ _ => false
  | .memWrite _ => false
  | .reset => true
  | .engine => true

/-- Whether the host waits after `e`, the next event of `s`: the wait begins with a CMD write that is accepted (R21) and ends with
a STATUS read that returns BUSY = 0 (R203), or with a reset, which abandons the command (log entry 24). -/
def waitsAfter (waiting : Bool) (e : Event) (s : State) : Bool :=
  match e with
  | .regRead r => waiting && !(r == 0x01 && !s.busy)
  | .regWrite r _ => waiting || (r == 0x00 && !s.busy && !s.err)
  | .memRead _ _ => waiting
  | .memWrite _ => waiting
  | .reset => false
  | .engine => waiting

/-- The host's duty of R203 on the events to come, served from `s` on: between a CMD write that is accepted and a STATUS read that
returns BUSY = 0 the host only reads STATUS. -/
def respectsOwnership : (waiting : Bool) → State → List Event → Bool
  | _, _, [] => true
  | waiting, s, e :: es =>
    (!waiting || allowedWhileWaiting e) && respectsOwnership (waitsAfter waiting e s) (afterServing e s) es

/-- `mw` is the largest of the widths, and 1 where there is none (R102: `max(1, w[0], ...)`). -/
def largestWidth (ws : List Nat) (mw : Nat) : Prop := 1 ≤ mw ∧ (∀ w ∈ ws, w ≤ mw) ∧ (mw = 1 ∨ mw ∈ ws)

/-- `k` is the least number of bits whose codes name every width of the list (R71). -/
def leastFieldBits (ws : List Nat) (k : Nat) : Prop :=
  (∀ w ∈ ws, w ≤ 2 ^ k) ∧ ∀ j, (∀ w ∈ ws, w ≤ 2 ^ j) → k ≤ j

/-- The causes a command may raise: the column "raised by" of R176; any command word may be illegal (R64). -/
def mayRaise : Instr → List Cause
  | .bwc => []
  | .denc _ => [.capSrcLen]
  | .venc _ => [.capSrcLen, .rngEncDelta, .capBuf]
  | .vdec _ => [.capSrcLen, .fmtHdrCount, .fmtHdrWfb, .fmtWfbRange, .fmtElemCode, .fmtElemDelta, .rngDecAcc, .capSeq]
  | .ddec _ => [.capSrcLen, .rngDecAcc]
  | .basm => [.capSrcLen, .rngEncDelta, .capBuf]
  | .bpar => [.capSrcLen, .fmtBlobDim, .fmtBlobLen, .fmtBlobBody, .fmtHdrCount, .fmtHdrWfb, .fmtWfbRange, .fmtElemCode,
      .fmtElemDelta, .rngDecAcc, .capSeq, .fmtBlobIndptr]

/-- The destination length registers of a command (the first column of R183), as the state holds them. -/
def destinationLengths (i : Instr) (s : State) : List Word :=
  match i with
  | .bwc => []
  | .denc _ => [s.dltLen]
  | .venc _ => [s.bufLen, s.dltLen]
  | .vdec f => (match bankOf f with | some b => [s.seqLen b] | none => []) ++ [s.dltLen]
  | .ddec f => (match bankOf f with | some b => [s.seqLen b] | none => [])
  | .basm => [s.bufLen, s.dltLen]
  | .bpar => [s.seqLen0, s.seqLen1, s.seqLen2, s.dltLen]

/-- A delta of the sequence, as R100 defines it: element 0 whole, then the difference of neighbours, for `i` below the
length (the statements use no other). -/
def deltaAt (x : List Int) (i : Nat) : Int := if i = 0 then x.getD 0 0 else x.getD i 0 - x.getD (i - 1) 0

end Sys2Proof.Machine
end

