-- ==== Sys2Proof/Certificates/Slice0/Obligations.lean ====
section
/-! DEFINITION. The statements for the provers. Each docstring names the rule of spec/ it formalises; where a clause rests on
the model's own choice it says so and names the log entry. In every statement about a step the clauses on `schedule`, `observed`
and `draws` are about the model's own fields (log entries 3, 5, 8), not about a rule. -/

open Sys2Proof Sys2Proof.Machine

/-! ### Reset -/

/-- R32: after reset every control register reads 0 but the two capacities, no memory element has a value, the engine is
idle. State.reset is that state for some capacities and values of the model's own fields; which ones they are (log entries 3, 4,
5, 8) is the model's choice and is not stated. -/
def Obligations.ResetGivesTheStatedValues : Prop :=
  (∃ capSeq capBuf es vs n, State.reset = State.resetWith capSeq capBuf es vs n) ∧
  ∀ (capSeq capBuf : Word) (es : List Event) (vs : List PortValue) (n : Nat),
    (∀ r, r < 0x12 → (State.resetWith capSeq capBuf es vs n).readReg r = 0) ∧
    (State.resetWith capSeq capBuf es vs n).readReg 0x12 = capSeq ∧
    (State.resetWith capSeq capBuf es vs n).readReg 0x13 = capBuf ∧
    (∀ b i, ((State.resetWith capSeq capBuf es vs n).seq b).get i = none) ∧
    (∀ i, (State.resetWith capSeq capBuf es vs n).dlt.get i = none ∧ (State.resetWith capSeq capBuf es vs n).wid.get i = none ∧
      Memory.get (w := 8) (State.resetWith capSeq capBuf es vs n).buf i = none) ∧
    (State.resetWith capSeq capBuf es vs n).busy = false

/-- R200, R201: reset in any state, a running command included, gives the state of R32: no completion, no exception, STATUS 0,
every register 0 but the capacities, every memory unspecified. -/
def Obligations.ResetAbandonsARunningCommand : Prop :=
  ∀ s : State, s.nextEvent = .reset → ∃ t, step s = .next t ∧ (∀ r, r < 0x12 → t.readReg r = 0) ∧
    t.readReg 0x12 = s.readReg 0x12 ∧ t.readReg 0x13 = s.readReg 0x13 ∧ (∀ b i, (t.seq b).get i = none) ∧
    ∀ i, t.dlt.get i = none ∧ t.wid.get i = none ∧ Memory.get (w := 8) t.buf i = none

/-! ### The invariant and progress -/

/-- The invariant holds after reset (its capacities are log entry 4). -/
def Obligations.InvariantHoldsAfterReset : Prop := State.reset.Inv

/-- Every step of every agent keeps the invariant: STATUS bits legal, error registers 0 outside the error state, memories in
canonical form and within the capacities, widths in 1 to 32, WFB at most 5. -/
def Obligations.EveryStepKeepsTheInvariant : Prop := ∀ s t : State, s.Inv → step s = .next t → t.Inv

/-- R209: every step answers a next state, and an accepted command ends at the engine's turn, by completion or by exception,
with BUSY then reading 0. That a command is one transition at the engine's turn is the model's form (log entries 5, 6). -/
def Obligations.EveryCommandEndsAndNothingStops : Prop :=
  ∀ s : State, ∃ t, step s = .next t ∧
    (s.nextEvent = .engine → s.busy = true → t.busy = false ∧ t.done = true ∧ (t.readReg 0x01).getLsbD 0 = false)

/-! ### Command words -/

/-- Words written out from the encoding of R61 and R62 decode to their commands. -/
def Obligations.WrittenOutWordsDecode : Prop :=
  decode 0b00000000000000000000000000000001#32 = .ok .bwc ∧
  decode 0b00000000000000000000000100000010#32 = .ok (.denc 1#2) ∧
  decode 0b00000000000000000000001000000011#32 = .ok (.venc 2#2) ∧
  decode 0b00000000000000000000000000000100#32 = .ok (.vdec 0#2) ∧
  decode 0b00000000000000000000001000000101#32 = .ok (.ddec 2#2) ∧
  decode 0b00000000000000000000000000000110#32 = .ok .basm ∧
  decode 0b00000000000000000000000000000111#32 = .ok .bpar

/-- R82: the decoder of command words is total; fields as numbers. All illegal words raise the same cause with the same recorded
values: the order of the tests cannot be observed (around it the step takes the event off the schedule and advances the draw
counter, the model's own fields, log entries 3 and 5). -/
def Obligations.DecoderFollowsTheFieldTests : Prop :=
  ∀ w : Word,
    let top := w.toNat / 2 ^ 10
    let bank := w.toNat / 2 ^ 8 % 4
    let op := w.toNat % 2 ^ 8
    (top ≠ 0 → ∃ e, decode w = .error e) ∧
    (op < 0x01 ∨ 0x07 < op → ∃ e, decode w = .error e) ∧
    (top = 0 → op = 0x01 → if bank = 0 then decode w = .ok .bwc else ∃ e, decode w = .error e) ∧
    (top = 0 → op = 0x06 → if bank = 0 then decode w = .ok .basm else ∃ e, decode w = .error e) ∧
    (top = 0 → op = 0x07 → if bank = 0 then decode w = .ok .bpar else ∃ e, decode w = .error e) ∧
    (top = 0 → op = 0x02 → if bank ≤ 2 then decode w = .ok (.denc (BitVec.ofNat 2 bank)) else ∃ e, decode w = .error e) ∧
    (top = 0 → op = 0x03 → if bank ≤ 2 then decode w = .ok (.venc (BitVec.ofNat 2 bank)) else ∃ e, decode w = .error e) ∧
    (top = 0 → op = 0x04 → if bank ≤ 2 then decode w = .ok (.vdec (BitVec.ofNat 2 bank)) else ∃ e, decode w = .error e) ∧
    (top = 0 → op = 0x05 → if bank ≤ 2 then decode w = .ok (.ddec (BitVec.ofNat 2 bank)) else ∃ e, decode w = .error e) ∧
    (∀ (e : Illegal) (s : State), decode w = .error e → s.cmd = w → s.busy = true → s.nextEvent = .engine →
      step s = .next { s with status := 0b110#3, errcode := 0x40#8, erridx := 0, errfld := 0, flags := 0,
                              schedule := s.schedule.tail, draws := s.draws + 1 })

/-- R61, R62, R64: a word decodes to a command exactly when the command is well formed and the word is its encoding, so no bit
of a command word is dropped and no two words mean one command. -/
def Obligations.DecodeInvertsEncode : Prop :=
  ∀ (w : Word) (i : Instr), decode w = .ok i ↔ WellFormed i ∧ encode i = w

/-- A step at the engine's turn with a command running is exec of the decoded command; around it the step takes the event off
the schedule and advances the draw counter (the model's own fields, log entries 3 and 5). -/
def Obligations.StepRunsTheDecodedCommand : Prop :=
  ∀ (s : State) (i : Instr), s.nextEvent = .engine → s.busy = true → decode s.cmd = .ok i →
    step s = exec i { s with schedule := s.schedule.tail, draws := s.draws + 1 }

/-- R180: an illegal word written to CMD while the engine is idle and ERR = 0 is latched, OVF is cleared, STATUS ends with
DONE and ERR, the error registers record ILLEGAL_CMD, and no other state changes (but the model's own schedule and draw counter,
log entries 3 and 5). -/
def Obligations.IllegalWordRaisesIllegalCommand : Prop :=
  ∀ (s : State) (w : Word) (es : List Event) (e : Illegal), s.busy = false → s.err = false → decode w = .error e →
    s.schedule = .regWrite 0x00 w :: .engine :: es →
    ∃ t, step s = .next t ∧ t.busy = true ∧ step t = .next { s with
      cmd := w, status := 0b110#3, errcode := 0x40#8, erridx := 0, errfld := 0, flags := 0, schedule := es,
      draws := s.draws + 2 }

/-- R64: a bank command that names bank 3 is illegal: it raises ILLEGAL_CMD and changes no operand or result. No word
decodes to such a term; that exec takes the exception for it is log entry 11. -/
def Obligations.BankThreeIsIllegal : Prop :=
  ∀ (s : State) (i : Instr), i = .denc 3#2 ∨ i = .venc 3#2 ∨ i = .vdec 3#2 ∨ i = .ddec 3#2 →
    exec i s = .next { s with status := 0b110#3, errcode := 0x40#8, erridx := 0, errfld := 0, flags := 0 }

/-! ### The host port -/

/-- R21: a CMD write is the acceptance exactly while BUSY = 0 and ERR = 0; else it is ignored. CMD reads the latched word. -/
def Obligations.CmdWriteIsAcceptedOrIgnored : Prop :=
  ∀ (s : State) (w : Word), s.nextEvent = .regWrite 0x00 w →
    (s.busy = false → s.err = false → ∃ t, step s = .next t ∧ t.readReg 0x00 = w ∧ t.busy = true ∧ t.done = false ∧
      t.err = false ∧ t.flags = 0 ∧
      t = { s with cmd := w, status := t.status, flags := 0, schedule := s.schedule.tail, draws := s.draws + 1 }) ∧
    (s.busy = true ∨ s.err = true → step s = .next { s with schedule := s.schedule.tail, draws := s.draws + 1 })

/-- R184: writing 1 to STATUS.ERR while the engine is idle clears ERR and the three error registers and changes nothing else
(but the model's own schedule and draw counter, log entries 3 and 5); writing 0 there changes nothing; reset also clears the
error state. -/
def Obligations.ClearingErrEndsTheErrorState : Prop :=
  ∀ s : State,
    (∀ v : Word, s.nextEvent = .regWrite 0x01 v → s.busy = false →
      (v.getLsbD 2 = true → ∃ t, step s = .next t ∧ t.err = false ∧ t.done = s.done ∧ t.busy = false ∧
        t = { s with status := t.status, errcode := 0, erridx := 0, errfld := 0, schedule := s.schedule.tail,
                     draws := s.draws + 1 }) ∧
      (v.getLsbD 2 = false → step s = .next { s with schedule := s.schedule.tail, draws := s.draws + 1 })) ∧
    (s.nextEvent = .reset → ∃ t, step s = .next t ∧ t.err = false ∧ t.errcode = 0 ∧ t.erridx = 0 ∧ t.errfld = 0)

/-- R185, R23: in the error state no event but a reset or a clear of ERR changes STATUS, CMD or the error registers, and none
starts a command. -/
def Obligations.ErrorStateIsSticky : Prop :=
  ∀ s t : State, s.Inv → s.err = true → s.nextEvent ≠ .reset → (∀ v, v.getLsbD 2 = true → s.nextEvent ≠ .regWrite 0x01 v) →
    step s = .next t →
    t.status = s.status ∧ t.cmd = s.cmd ∧ t.errcode = s.errcode ∧ t.erridx = s.erridx ∧ t.errfld = s.errfld ∧ t.flags = s.flags

/-- R47: while BUSY = 1 a STATUS read is exact, any other read returns some value, every write is ignored, and nothing of the
machine changes. -/
def Obligations.BusyHostAccessesDisturbNothing : Prop :=
  ∀ s : State, s.busy = true → s.nextEvent ≠ .reset → s.nextEvent ≠ .engine → ∃ t, step s = .next t ∧
    t = { s with schedule := s.schedule.tail, draws := s.draws + 1, observed := t.observed } ∧
    (s.nextEvent = .regRead 0x01 → t.observed = .word (s.status.setWidth 32) :: s.observed) ∧
    (∀ r, s.nextEvent = .regRead r → ∃ v, t.observed = .word v :: s.observed) ∧
    (∀ sp i, s.nextEvent = .memRead sp i → ∃ v, t.observed = v :: s.observed) ∧
    (∀ r v, s.nextEvent = .regWrite r v → t.observed = s.observed) ∧
    (∀ e, s.nextEvent = .memWrite e → t.observed = s.observed)

/-- R26: what each register number reads at the port while the engine is idle, zero-extended; reserved numbers read 0; the read
changes nothing (R33). -/
def Obligations.RegisterReadsFollowTheTable : Prop :=
  ∀ (s : State) (r v : Nat), s.busy = false → s.nextEvent = .regRead r →
    ((r, v) ∈ [(0x00, s.cmd.toNat), (0x01, s.status.toNat), (0x02, s.errcode.toNat), (0x03, s.erridx.toNat),
        (0x04, s.errfld.toNat), (0x05, s.flags.toNat), (0x06, s.argLo.toNat), (0x07, s.argHi.toNat), (0x08, s.res.toNat),
        (0x0B, s.seqLen0.toNat), (0x0C, s.seqLen1.toNat), (0x0D, s.seqLen2.toNat), (0x0E, s.dltLen.toNat),
        (0x0F, s.bufLen.toNat), (0x12, s.capSeq.toNat), (0x13, s.capBuf.toNat)] ∨
      (∃ u, r = 0x09 ∧ s.rows = .holds u ∧ v = u.toNat) ∨ (∃ u, r = 0x0A ∧ s.cols = .holds u ∧ v = u.toNat) ∨
      (∃ u, r = 0x10 ∧ s.maxw = .holds u ∧ v = u.toNat) ∨ (∃ u, r = 0x11 ∧ s.wfb = .holds u ∧ v = u.toNat) ∨
      (0x14 ≤ r ∧ v = 0)) →
    step s = .next { s with schedule := s.schedule.tail, draws := s.draws + 1,
                            observed := .word (BitVec.ofNat 32 v) :: s.observed }

/-- R33, R26: a write to a read-only or reserved register number is ignored; a write to a read-write register takes the low
bits, reads back, and changes that register alone. -/
def Obligations.RegisterWritesFollowTheTable : Prop :=
  ∀ (s : State) (r : Nat) (v : Word), s.busy = false → s.nextEvent = .regWrite r v →
    (r ∈ [0x02, 0x03, 0x04, 0x05, 0x08, 0x10, 0x11, 0x12, 0x13] ∨ 0x14 ≤ r →
      step s = .next { s with schedule := s.schedule.tail, draws := s.draws + 1 }) ∧
    (r ∈ [0x06, 0x09, 0x0A, 0x0B, 0x0C, 0x0D, 0x0E, 0x0F] → ∃ t, step s = .next t ∧ t.readReg r = v) ∧
    (r = 0x07 → ∃ t, step s = .next t ∧ (t.readReg r).toNat = v.toNat % 2) ∧
    (∀ t, step s = .next t → 0x06 ≤ r → t = { s with
      argLo := if r = 0x06 then t.argLo else s.argLo, argHi := if r = 0x07 then t.argHi else s.argHi,
      rows := if r = 0x09 then t.rows else s.rows, cols := if r = 0x0A then t.cols else s.cols,
      seqLen0 := if r = 0x0B then t.seqLen0 else s.seqLen0, seqLen1 := if r = 0x0C then t.seqLen1 else s.seqLen1,
      seqLen2 := if r = 0x0D then t.seqLen2 else s.seqLen2, dltLen := if r = 0x0E then t.dltLen else s.dltLen,
      bufLen := if r = 0x0F then t.bufLen else s.bufLen, schedule := s.schedule.tail, draws := s.draws + 1 })

/-- R41, R40: a host write of an element in range while the engine is idle, then a host read of it, returns the value written;
every other element of every space reads as before and nothing else changes. A host read of an element in range that holds a
value, whoever wrote it, returns that value in its port form, WID and BUF zero-extended, and changes nothing else. -/
def Obligations.ElementWriteThenReadReturnsIt : Prop :=
  ∀ (s : State) (es : List Event) (i : Nat), s.busy = false →
    (∀ (b : Bank) (v : Word), i < s.capSeq.toNat → s.schedule = .memWrite (.seq b i v) :: .memRead (.seq b) i :: es →
      ∃ t u, step s = .next t ∧ step t = .next u ∧ u.observed = .word v :: s.observed ∧
        (∀ j, j ≠ i → (u.seq b).get j = (s.seq b).get j) ∧
        u = { s.setSeq b (u.seq b) with schedule := es, draws := s.draws + 2, observed := u.observed }) ∧
    (∀ v : Delta, i < s.capSeq.toNat → s.schedule = .memWrite (.dlt i v) :: .memRead .dlt i :: es →
      ∃ t u, step s = .next t ∧ step t = .next u ∧ u.observed = .delta v :: s.observed ∧
        (∀ j, j ≠ i → u.dlt.get j = s.dlt.get j) ∧
        u = { s with dlt := u.dlt, schedule := es, draws := s.draws + 2, observed := u.observed }) ∧
    (∀ v : Byte, i < s.capBuf.toNat → s.schedule = .memWrite (.buf i v) :: .memRead .buf i :: es →
      ∃ t u, step s = .next t ∧ step t = .next u ∧ u.observed = .word (v.setWidth 32) :: s.observed ∧
        (∀ j, j ≠ i → Memory.get (w := 8) u.buf j = Memory.get (w := 8) s.buf j) ∧
        u = { s with buf := u.buf, schedule := es, draws := s.draws + 2, observed := u.observed }) ∧
    (∀ (b : Bank) (v : Word), i < s.capSeq.toNat → (s.seq b).get i = some v → s.nextEvent = .memRead (.seq b) i →
      step s = .next { s with schedule := s.schedule.tail, draws := s.draws + 1, observed := .word v :: s.observed }) ∧
    (∀ v : Delta, i < s.capSeq.toNat → s.dlt.get i = some v → s.nextEvent = .memRead .dlt i →
      step s = .next { s with schedule := s.schedule.tail, draws := s.draws + 1, observed := .delta v :: s.observed }) ∧
    (∀ v : WidthCell, i < s.capSeq.toNat → s.wid.get i = some v → s.nextEvent = .memRead .wid i →
      step s = .next { s with schedule := s.schedule.tail, draws := s.draws + 1,
                              observed := .word (v.setWidth 32) :: s.observed }) ∧
    (∀ v : Byte, i < s.capBuf.toNat → Memory.get (w := 8) s.buf i = some v → s.nextEvent = .memRead .buf i →
      step s = .next { s with schedule := s.schedule.tail, draws := s.draws + 1,
                              observed := .word (v.setWidth 32) :: s.observed })

/-- R53: an access out of its space's range, and a write to WID, does nothing: a write is ignored, a read returns some value;
no exception is raised and no flag set. -/
def Obligations.OutOfRangeAccessesDoNothing : Prop :=
  ∀ (s : State) (i : Nat),
    (∀ b v, s.nextEvent = .memWrite (.seq b i v) → s.capSeq.toNat ≤ i →
      step s = .next { s with schedule := s.schedule.tail, draws := s.draws + 1 }) ∧
    (∀ v, s.nextEvent = .memWrite (.dlt i v) → s.capSeq.toNat ≤ i →
      step s = .next { s with schedule := s.schedule.tail, draws := s.draws + 1 }) ∧
    (∀ v, s.nextEvent = .memWrite (.buf i v) → s.capBuf.toNat ≤ i →
      step s = .next { s with schedule := s.schedule.tail, draws := s.draws + 1 }) ∧
    (∀ v, s.nextEvent = .memWrite (.wid i v) → step s = .next { s with schedule := s.schedule.tail, draws := s.draws + 1 }) ∧
    (∀ sp, s.nextEvent = .memRead sp i → s.spaceSize sp ≤ i →
      ∃ v, step s = .next { s with schedule := s.schedule.tail, draws := s.draws + 1, observed := v :: s.observed })

/-- R203: a host that waits whenever a command runs and keeps the ownership rule keeps both at every step; it touches a busy block
only by reading STATUS, and each of its reads returns the register's value, or the value of the element in range, never a busy
engine's free value. The rule is stated on the model's schedule (log entry 5), and a reset ends the wait (log entry 24). -/
def Obligations.OwnershipMakesReadsExact : Prop :=
  ∀ (waiting : Bool) (s t : State), (s.busy = true → waiting = true) → respectsOwnership waiting s s.schedule = true →
    step s = .next t →
    let after := waitsAfter waiting s.nextEvent s
    (t.busy = true → after = true) ∧ respectsOwnership after t t.schedule = true ∧
    (s.busy = true → allowedWhileWaiting s.nextEvent = true) ∧
    (∀ r, s.nextEvent = .regRead r → t.observed = .word (s.tick.readReg r) :: s.observed) ∧
    ∀ sp i, s.nextEvent = .memRead sp i → i < s.spaceSize sp → t.observed = s.tick.elemValue sp i :: s.observed

/-! ### Notation -/

/-- R3, R8: bit `k` of a bit string of whole bytes is bit `7 - k mod 8` of byte `k div 8`, and `bits_of` is the inverse;
`be32` is the four bytes of a number, most significant first, laid as R3 says, and `unbe32` reads it back. -/
def Obligations.BitAndByteOrder : Prop :=
  (∀ s : List Bool, s.length % 8 = 0 →
    (∀ k, k < s.length → ((bytesOf s).getD (k / 8) 0).getLsbD (7 - k % 8) = s.getD k false) ∧
    8 * (bytesOf s).length = s.length ∧ bitsOf (bytesOf s) = s) ∧
  (∀ bs : List Byte, bytesOf (bitsOf bs) = bs ∧ (bitsOf bs).length = 8 * bs.length) ∧
  (∀ (b0 b1 b2 b3 : Byte) (rest : List Byte),
    unbe32 (b0 :: b1 :: b2 :: b3 :: rest) = b0.toNat * 2 ^ 24 + b1.toNat * 2 ^ 16 + b2.toNat * 2 ^ 8 + b3.toNat) ∧
  ∀ v : Nat, v < 2 ^ 32 →
    (be32 v).map BitVec.toNat = [v / 2 ^ 24, v / 2 ^ 16 % 2 ^ 8, v / 2 ^ 8 % 2 ^ 8, v % 2 ^ 8] ∧
    (∀ rest, unbe32 (be32 v ++ rest) = v) ∧ be32 v = bytesOf (ubits 32 v)

/-- R176, R175: the code of each cause; the codes are distinct, never 0, and their high four bits are the kind. -/
def Obligations.CauseCodesNameTheirKind : Prop :=
  (causeCode .fmtHdrCount = 0x10#8 ∧ causeCode .fmtHdrWfb = 0x11#8 ∧ causeCode .fmtWfbRange = 0x12#8 ∧
    causeCode .fmtElemCode = 0x13#8 ∧ causeCode .fmtElemDelta = 0x14#8 ∧ causeCode .fmtBlobDim = 0x15#8 ∧
    causeCode .fmtBlobLen = 0x16#8 ∧ causeCode .fmtBlobBody = 0x17#8 ∧ causeCode .fmtBlobIndptr = 0x18#8 ∧
    causeCode .rngEncDelta = 0x20#8 ∧ causeCode .rngDecAcc = 0x21#8 ∧ causeCode .capSrcLen = 0x30#8 ∧
    causeCode .capSeq = 0x31#8 ∧ causeCode .capBuf = 0x32#8 ∧ causeCode .illegalCmd = 0x40#8) ∧
  ∀ c d : Cause, (causeCode c = causeCode d → c = d) ∧ causeCode c ≠ 0 ∧
    (causeKind c = .formatError ↔ (causeCode c).toNat / 16 = 1) ∧ (causeKind c = .rangeError ↔ (causeCode c).toNat / 16 = 2) ∧
    (causeKind c = .capacityError ↔ (causeCode c).toNat / 16 = 3) ∧ (causeKind c = .illegalCommand ↔ (causeCode c).toNat / 16 = 4)

/-! ### The calculator -/

/-- R90: `bw(d)` is the least width in 1 to 32 that holds `d` with `ovf = 0`, and `(32, 1)` where no width does. -/
def Obligations.CalculatorGivesTheLeastWidth : Prop :=
  ∀ d : Int,
    ((∃ b, 1 ≤ b ∧ b ≤ 32 ∧ -2 ^ (b - 1) ≤ d ∧ d < 2 ^ (b - 1)) →
      (bw d).2 = false ∧ 1 ≤ (bw d).1 ∧ (bw d).1 ≤ 32 ∧ -2 ^ ((bw d).1 - 1) ≤ d ∧ d < 2 ^ ((bw d).1 - 1) ∧
      ∀ b, 1 ≤ b → b < (bw d).1 → ¬(-2 ^ (b - 1) ≤ d ∧ d < 2 ^ (b - 1))) ∧
    ((¬∃ b, 1 ≤ b ∧ b ≤ 32 ∧ -2 ^ (b - 1) ≤ d ∧ d < 2 ^ (b - 1)) → bw d = (32, true))

/-- R93: the calculator at its 33-bit port: `ovf = d[32] xor d[31]`; with `x` the low word xored with bit 32, the width is
`bitlen(x) + 1` and `x[31] = 0` when `ovf = 0`, and 32 when `ovf = 1`; the port form agrees with `bw`. -/
def Obligations.CalculatorPortAgrees : Prop :=
  ∀ d : Delta,
    let x : Word := d.setWidth 32 ^^^ (if d.getLsbD 32 then BitVec.allOnes 32 else 0#32)
    (bw d.toInt).2 = xor (d.getLsbD 32) (d.getLsbD 31) ∧
    ((bw d.toInt).2 = false → (bw d.toInt).1 = bitlen x.toNat + 1 ∧ x.getLsbD 31 = false ∧ (bw d.toInt).1 ≤ 32) ∧
    ((bw d.toInt).2 = true → (bw d.toInt).1 = 32) ∧ bwPort d = bw d.toInt

/-- R96: the laws (a) to (g) of the calculator. -/
def Obligations.CalculatorLaws : Prop :=
  ∀ d e : Int,
    (1 ≤ width d ∧ width d ≤ 32) ∧
    (width d = 1 ↔ d = -1 ∨ d = 0) ∧
    width d = width (-d - 1) ∧
    (InInt32 d → -2 ^ (width d - 1) ≤ d ∧ d < 2 ^ (width d - 1) ∧ sext (width d) (uval (tc (width d) d)) = d) ∧
    (InInt32 d → 2 ≤ width d → (tc (width d) d)[0]? ≠ (tc (width d) d)[1]?) ∧
    ((bw d).2 = true ↔ ¬InInt32 d) ∧
    (0 ≤ d → d ≤ e → width d ≤ width e) ∧ (e ≤ d → d < 0 → width d ≤ width e)

/-! ### Sequences -/

/-- R100: for an IntegerSequence (every element in INT32, R4) the delta transform keeps the length; element 0 is the original,
element `i` the exact difference. -/
def Obligations.DeltaIsTheFirstDifference : Prop :=
  ∀ x : List Int, (∀ v ∈ x, InInt32 v) → (delta x).length = x.length ∧
    ∀ i, i < x.length → (delta x)[i]? = some (if i = 0 then x.getD 0 0 else x.getD i 0 - x.getD (i - 1) 0)

/-- R101: of a sequence in INT32 every delta fits a 33-bit signed entry, delta 0 is in INT32, and a delta outside INT32 needs
neighbours of opposite signs. -/
def Obligations.DeltasFitThirtyThreeBits : Prop :=
  ∀ x : List Int, (∀ v ∈ x, InInt32 v) → ∀ (i : Nat) (d : Int), (delta x)[i]? = some d →
    (i = 0 → InInt32 d) ∧ (-(2 ^ 32 - 1) ≤ d ∧ d ≤ 2 ^ 32 - 1) ∧ (BitVec.ofInt 33 d).toInt = d ∧
    (¬InInt32 d → 0 < i ∧ ((x.getD i 0 < 0 ∧ 0 ≤ x.getD (i - 1) 0) ∨ (0 ≤ x.getD i 0 ∧ x.getD (i - 1) 0 < 0)))

/-- R143: (a) the running sum of the deltas is the sequence, (b) the deltas of a successful running sum are the deltas, (c) the
running sum succeeds exactly when every partial sum is in INT32. -/
def Obligations.RunningSumInvertsDelta : Prop :=
  (∀ x : List Int, (∀ v ∈ x, InInt32 v) → undelta (delta x) = .ok x) ∧
  (∀ d x : List Int, undelta d = .ok x → delta x = d) ∧
  (∀ d : List Int, (∃ x, undelta d = .ok x) ↔ ∀ i, i < d.length → InInt32 (d.take (i + 1)).sum)

/-! ### The stream -/

/-- R117, R112: the encoder fails exactly when a delta is outside INT32, with RNG_ENC_DELTA at the first such delta, and so
never for representable input, an IntegerSequence of fewer than 2^32 elements (R4, R110); the empty sequence gives five zero bytes. -/
def Obligations.EncoderFailsExactlyOnRange : Prop :=
  vldEncode [] = .ok [0, 0, 0, 0, 0] ∧
  ∀ x : List Int, (∀ v ∈ x, InInt32 v) → x.length < 2 ^ 32 →
    ((∀ d ∈ delta x, InInt32 d) → ∃ e, vldEncode x = .ok e) ∧
    ∀ k, k < x.length → ¬InInt32 (deltaAt x k) → (∀ i, i < k → InInt32 (deltaAt x i)) →
      vldEncode x = .error ⟨.rngEncDelta, k⟩

/-- R114, R115, with R70 and R122 (b) to (e): for an IntegerSequence of fewer than 2^32 elements the stream's header bytes, its elements in order, its length, its zero padding, and
that byte 4 is 0 exactly when every delta is -1 or 0. -/
def Obligations.EncodedStreamHasTheStatedShape : Prop :=
  ∀ (x : List Int) (e : List Byte), (∀ v ∈ x, InInt32 v) → x.length < 2 ^ 32 → vldEncode x = .ok e →
    ∃ wfb : Nat, wfb ≤ 5 ∧ (∀ d ∈ delta x, width d ≤ 2 ^ wfb) ∧
      (wfb ≠ 0 → ∃ d ∈ delta x, 2 ^ (wfb - 1) < width d) ∧
      e.take 5 = be32 x.length ++ [BitVec.ofNat 8 wfb] ∧
      e.length = (32 + 8 + ((delta x).map (fun d => wfb + width d)).sum + 7) / 8 ∧
      (wfb = 0 ↔ ∀ d ∈ delta x, d = -1 ∨ d = 0) ∧
      ∃ padding, (∀ b ∈ padding, b = false) ∧ padding.length < 8 ∧
        bitsOf e = ubits 32 x.length ++ ubits 8 wfb ++
          ((delta x).map (fun d => (if wfb > 0 then ubits wfb (width d - 1) else []) ++ tc (width d) d)).flatten ++ padding

/-- R122 (a), R138 (a): decoding an encoded sequence returns the sequence, its deltas, the minimal widths and the wfb. -/
def Obligations.DecodeInvertsVldEncode : Prop :=
  ∀ (x : List Int) (e : List Byte), (∀ v ∈ x, InInt32 v) → x.length < 2 ^ 32 → vldEncode x = .ok e →
    ∃ r, vldDecode e = .ok r ∧ r.values = x ∧ r.deltas = delta x ∧ r.widths = (delta x).map width ∧ r.wfb = (scan x).wfb

/-- R138 (b): every strict prefix of an encoded stream fails with FormatError: FMT_HDR_COUNT below 4 bytes, FMT_HDR_WFB at 4,
from 5 on FMT_ELEM_CODE or FMT_ELEM_DELTA with the index of the first incomplete element, never a shorter sequence. -/
def Obligations.EveryTruncatedStreamFails : Prop :=
  ∀ (x : List Int) (e : List Byte) (m : Nat), (∀ v ∈ x, InInt32 v) → x.length < 2 ^ 32 → vldEncode x = .ok e → m < e.length →
    ∃ f, vldDecode (e.take m) = .error f ∧ causeKind f.cause = .formatError ∧
      (m < 4 → f = ⟨.fmtHdrCount, 0⟩) ∧ (m = 4 → f = ⟨.fmtHdrWfb, 0⟩) ∧
      (5 ≤ m →
        let used : Nat → Nat := fun k => 40 + (((delta x).take k).map (fun d => (scan x).wfb + width d)).sum
        (f.cause = .fmtElemCode ∨ f.cause = .fmtElemDelta) ∧ f.idx < x.length ∧
        used f.idx ≤ 8 * m ∧ 8 * m < used (f.idx + 1) ∧ (f.cause = .fmtElemCode ↔ 8 * m < used f.idx + (scan x).wfb))

/-- R134: a stream that decodes also decodes, to the same result, with any other bits after its last element:
padding of any value and any bytes after it. -/
def Obligations.DecoderIgnoresWhatFollows : Prop :=
  ∀ (a b : List Byte) (r : Decoded), vldDecode a = .ok r →
    8 * a.length ≥ 40 + (r.widths.map (fun w => r.wfb + w)).sum ∧
    ((bitsOf b).take (40 + (r.widths.map (fun w => r.wfb + w)).sum) =
        (bitsOf a).take (40 + (r.widths.map (fun w => r.wfb + w)).sum) → vldDecode b = .ok r)

/-- R127, R128, with R126: the header's three failures, for every capacity and whatever follows the header; on success wfb is
byte 4 and every width is in 1 to 32. -/
def Obligations.MalformedHeadersFail : Prop :=
  ∀ (cap : Option Nat) (b : List Byte),
    (b.length < 4 → vldDecodeCap cap b = .error ⟨.fmtHdrCount, 0⟩) ∧
    (b.length = 4 → vldDecodeCap cap b = .error ⟨.fmtHdrWfb, 0⟩) ∧
    (5 ≤ b.length → 5 < (b.getD 4 0).toNat → vldDecodeCap cap b = .error ⟨.fmtWfbRange, 0⟩) ∧
    (∀ r, vldDecodeCap cap b = .ok r → r.wfb = (b.getD 4 0).toNat ∧ ∀ w ∈ r.widths, 1 ≤ w ∧ w ≤ 32)

/-- R129 to R132: a decoded stream has exactly as many elements as its count says; its wfb is byte 4 and at most 5; every width
is in 1 to 2^wfb; every delta fits its width; the values are the running sum of the deltas, all in INT32. -/
def Obligations.DecodedStreamIsWellTyped : Prop :=
  ∀ (cap : Option Nat) (b : List Byte) (r : Decoded), vldDecodeCap cap b = .ok r →
    r.elems.length = unbe32 b ∧ r.wfb = (b.getD 4 0).toNat ∧ r.wfb ≤ 5 ∧
    (∀ e ∈ r.elems, 1 ≤ e.width ∧ e.width ≤ 2 ^ r.wfb ∧ -2 ^ (e.width - 1) ≤ e.delta ∧ e.delta < 2 ^ (e.width - 1) ∧
      InInt32 e.value) ∧
    undelta r.deltas = .ok r.values

/-- R129, R130, R131, with R137: the decoder element by element. Where the first `i` elements of a stream decode, as the stream with
count `i` does, element `i` is read from the bits after them: it fails with FMT_ELEM_CODE or FMT_ELEM_DELTA where its code or its
delta is cut short, with RNG_DEC_ACC where the sum leaves INT32, with CAP_SEQ where it does not fit, in this order and with the
index `i`; and where it does not fail the first `i + 1` elements decode, this one added. -/
def Obligations.DecoderFailsAtTheFirstBadElement : Prop :=
  ∀ (cap : Option Nat) (b : List Byte), 5 ≤ b.length →
    ((b.getD 4 0).toNat ≤ 5 → vldDecodeCap cap (be32 0 ++ b.drop 4) = .ok ⟨[], (b.getD 4 0).toNat⟩) ∧
    ∀ (i : Nat) (r : Decoded), i < unbe32 b → vldDecodeCap cap (be32 i ++ b.drop 4) = .ok r →
      let rest := (bitsOf b).drop (40 + (r.widths.map (fun w => r.wfb + w)).sum)
      let w := if 0 < r.wfb then uval (rest.take r.wfb) + 1 else 1
      let d := sext w (uval ((rest.drop r.wfb).take w))
      let v := if i = 0 then d else r.values.getLastD 0 + d
      (rest.length < r.wfb → vldDecodeCap cap b = .error ⟨.fmtElemCode, i⟩) ∧
      (r.wfb ≤ rest.length → rest.length < r.wfb + w → vldDecodeCap cap b = .error ⟨.fmtElemDelta, i⟩) ∧
      (r.wfb + w ≤ rest.length → ¬InInt32 v → vldDecodeCap cap b = .error ⟨.rngDecAcc, i⟩) ∧
      (r.wfb + w ≤ rest.length → InInt32 v → (∃ c, cap = some c ∧ c ≤ i) → vldDecodeCap cap b = .error ⟨.capSeq, i⟩) ∧
      (r.wfb + w ≤ rest.length → InInt32 v → (∀ c, cap = some c → i < c) →
        vldDecodeCap cap (be32 (i + 1) ++ b.drop 4) = .ok ⟨r.elems ++ [⟨v, d, w⟩], r.wfb⟩)

/-- R137: with a capacity, a stream that decodes without one decodes to the same result if it fits and raises CAP_SEQ at
element `cap` if it does not; one that fails without a capacity reports whichever defect comes first in element order, the
capacity test of an element coming after its other tests. -/
def Obligations.CapacityStopsTheDecoderAtItsElement : Prop :=
  ∀ (cap : Nat) (b : List Byte),
    (∀ r, vldDecode b = .ok r → r.elems.length ≤ cap → vldDecodeCap (some cap) b = .ok r) ∧
    (∀ r, vldDecode b = .ok r → cap < r.elems.length → vldDecodeCap (some cap) b = .error ⟨.capSeq, cap⟩) ∧
    (∀ f, vldDecode b = .error f → f.idx ≤ cap → vldDecodeCap (some cap) b = .error f) ∧
    (∀ f, vldDecode b = .error f → cap < f.idx → vldDecodeCap (some cap) b = .error ⟨.capSeq, cap⟩)

/-! ### The blob -/

/-- R164: a blob assembled from a matrix with `len(indptr) = rows + 1` parses to the same five fields. -/
def Obligations.ParseInvertsAssemble : Prop :=
  ∀ (m : Matrix) (e : List Byte), m.rows < 2 ^ 32 → m.cols < 2 ^ 32 → m.indptr.length = m.rows + 1 →
    (∀ a ∈ [m.indptr, m.indices, m.data], (∀ v ∈ a, InInt32 v) ∧ a.length < 2 ^ 32 ∧ streamLength (scan a) < 2 ^ 32) →
    blobAssemble m = .ok e → blobParse e = .ok m

/-- R164: every strict prefix of such a blob fails with FormatError. -/
def Obligations.EveryTruncatedBlobFails : Prop :=
  ∀ (m : Matrix) (e : List Byte) (k : Nat), m.rows < 2 ^ 32 → m.cols < 2 ^ 32 → m.indptr.length = m.rows + 1 →
    (∀ a ∈ [m.indptr, m.indices, m.data], (∀ v ∈ a, InInt32 v) ∧ a.length < 2 ^ 32 ∧ streamLength (scan a) < 2 ^ 32) →
    blobAssemble m = .ok e → k < e.length →
    ∃ f, blobParse (e.take k) = .error f ∧ causeKind f.cause = .formatError

/-- R75, with R76 and R151: an assembled blob is the two dimensions and the three length-prefixed streams, at least 35 bytes. Of the
matrix, two naturals below 2^32 and three IntegerSequences, nothing is checked; that every count and stream length is below 2^32,
as in every command, is a premise, because the spec lays out no other. -/
def Obligations.BlobLayout : Prop :=
  ∀ (m : Matrix) (e0 e1 e2 : List Byte), m.rows < 2 ^ 32 → m.cols < 2 ^ 32 →
    (∀ a ∈ [m.indptr, m.indices, m.data], (∀ v ∈ a, InInt32 v) ∧ a.length < 2 ^ 32) → (∀ e ∈ [e0, e1, e2], e.length < 2 ^ 32) →
    vldEncode m.indptr = .ok e0 → vldEncode m.indices = .ok e1 → vldEncode m.data = .ok e2 →
    ∃ e, blobAssemble m = .ok e ∧ 35 ≤ e.length ∧ e.length = 20 + e0.length + e1.length + e2.length ∧
      e.take 4 = be32 m.rows ∧ (e.drop 4).take 4 = be32 m.cols ∧
      (e.drop 8).take 4 = be32 e0.length ∧ (e.drop 12).take e0.length = e0 ∧
      (e.drop (12 + e0.length)).take 4 = be32 e1.length ∧ (e.drop (16 + e0.length)).take e1.length = e1 ∧
      (e.drop (16 + e0.length + e1.length)).take 4 = be32 e2.length ∧ e.drop (20 + e0.length + e1.length) = e2

/-- R155, R156, R158, with R157, R160 and R163: the parser test by test. A buffer below 8 bytes; in each of the fields 0, 1, 2 a
prefix that is not there, one that overruns, and a window that does not decode, reported with the field; an indptr of the wrong
length; and where every test passes the matrix, whatever follows the third field. -/
def Obligations.ParserChecksAndIgnores : Prop :=
  ∀ (cap : Option Nat) (b : List Byte),
    let window : List Byte → List Byte := fun c => (c.drop 4).take (unbe32 c)
    let next : List Byte → List Byte := fun c => c.drop (4 + unbe32 c)
    let whole : List Byte → Prop := fun c => 4 ≤ c.length ∧ unbe32 c ≤ c.length - 4
    let fails : Nat → List Byte → Prop := fun k c =>
      (c.length < 4 → blobParseCap cap b = .error ⟨.fmtBlobLen, 0, k⟩) ∧
      (4 ≤ c.length → c.length - 4 < unbe32 c → blobParseCap cap b = .error ⟨.fmtBlobBody, 0, k⟩) ∧
      (∀ f, whole c → vldDecodeCap cap (window c) = .error f → blobParseCap cap b = .error ⟨f.cause, f.idx, k⟩)
    let field0 := b.drop 8
    let field1 := next field0
    let field2 := next field1
    (b.length < 8 → blobParseCap cap b = .error ⟨.fmtBlobDim, 0, 0⟩) ∧
    (8 ≤ b.length → fails 0 field0 ∧ ∀ r0, whole field0 → vldDecodeCap cap (window field0) = .ok r0 →
      (r0.elems.length ≠ unbe32 b + 1 → blobParseCap cap b = .error ⟨.fmtBlobIndptr, 0, 0⟩) ∧
      (r0.elems.length = unbe32 b + 1 → fails 1 field1 ∧ ∀ r1, whole field1 → vldDecodeCap cap (window field1) = .ok r1 →
        fails 2 field2 ∧ ∀ r2, whole field2 → vldDecodeCap cap (window field2) = .ok r2 →
          blobParseCap cap b = .ok ⟨unbe32 b, unbe32 (b.drop 4), r0, r1, r2⟩)) ∧
    ∀ p tail, blobParseCap cap b = .ok p → blobParseCap cap (b ++ tail) = .ok p

/-! ### The commands: results, completion and frames -/

/-- R94: BWC, the word 0x00000001, answers, in every state, the state with RES the least width of `ARG_LO - 2^32 ARG_HI` (32 when out of INT32),
OVF the clamp, BUSY 0, DONE 1, and everything else as before. -/
def Obligations.BwcWritesWidthAndClamp : Prop :=
  decode 0x00000001#32 = .ok .bwc ∧ ∀ s : State,
    let d : Int := (s.argLo.toNat : Int) - 2 ^ 32 * s.argHi.toNat
    ∃ t, exec .bwc s = .next t ∧ t.busy = false ∧ t.done = true ∧ t.err = s.err ∧
      t = { s with res := t.res, flags := t.flags, status := t.status } ∧
      (InInt32 d → t.flags = 0#1 ∧ 1 ≤ t.res.toNat ∧ t.res.toNat ≤ 32 ∧ -2 ^ (t.res.toNat - 1) ≤ d ∧ d < 2 ^ (t.res.toNat - 1) ∧
        ∀ b, 1 ≤ b → b < t.res.toNat → ¬(-2 ^ (b - 1) ≤ d ∧ d < 2 ^ (b - 1))) ∧
      (¬InInt32 d → t.flags = 1#1 ∧ t.res.toNat = 32)

/-- R103: DENC completes whenever the source length is within SEQ_CAP: DLT, WID, DLT_LEN, MAXW, WFB and OVF take the scan of the
bank, elements at the length and above and everything else are as before. A delta outside INT32 is no exception. MAXW is
the largest width and at least 1, WFB the least code size for the widths, also then. Where a source element is unspecified, that
the entries agree on one value for it is log entry 1 (DESIGN CHOICE). -/
def Obligations.DencWritesTheScan : Prop :=
  ∀ (s : State) (f : BitVec 2) (b : Bank), bankOf f = some b → (s.seqLen b).toNat ≤ s.capSeq.toNat →
    ∃ t, exec (.denc f) s = .next t ∧ t.busy = false ∧ t.done = true ∧ t.err = s.err ∧
      Memory.wrote s.dlt t.dlt ((delta (s.source b)).map (BitVec.ofInt 33)) ∧
      (∀ i, i < (s.seqLen b).toNat → ∃ v, t.dlt.get i = some v ∧ v.toInt = deltaAt (s.source b) i) ∧
      Memory.wrote s.wid t.wid ((delta (s.source b)).map (fun d => BitVec.ofNat 6 (width d))) ∧
      t.dltLen = s.seqLen b ∧
      (∃ mw : Nat, t.maxw = .holds (BitVec.ofNat 6 mw) ∧ mw ≤ 32 ∧ largestWidth ((delta (s.source b)).map width) mw) ∧
      (∃ k : Nat, t.wfb = .holds (BitVec.ofNat 8 k) ∧ k ≤ 5 ∧ leastFieldBits ((delta (s.source b)).map width) k) ∧
      (t.flags = 1#1 ↔ ∃ d ∈ delta (s.source b), ¬InInt32 d) ∧
      t = { s with dlt := t.dlt, wid := t.wid, dltLen := t.dltLen, maxw := t.maxw, wfb := t.wfb, flags := t.flags,
                   status := t.status }

/-- R103, R182, R183: DENC raises CAP_SRC_LEN when the source length exceeds SEQ_CAP: the scratch is invalidated, the error
registers record it, the rest stands. -/
def Obligations.DencTrapsOnLength : Prop :=
  ∀ (s : State) (f : BitVec 2) (b : Bank), bankOf f = some b → s.capSeq.toNat < (s.seqLen b).toNat →
    exec (.denc f) s = .next { s with
      dltLen := 0, dlt := [], wid := [], maxw := .unspecified, wfb := .unspecified, status := 0b110#3, errcode := 0x30#8,
      erridx := 0, errfld := BitVec.ofNat 2 (bankNumber b), flags := 0#1 }

/-- R118: VENC completes whenever the source length is within SEQ_CAP, every delta is in INT32 and the stream fits BUF_CAP: BUF
takes the encoding, BUF_LEN its length, the scratch the scan; bytes at the length and above and everything else are as before.
Where a source element is unspecified, that BUF, DLT and WID agree on one value for it is log entry 1 (DESIGN CHOICE). -/
def Obligations.VencWritesTheStream : Prop :=
  ∀ (s : State) (f : BitVec 2) (b : Bank), bankOf f = some b → (s.seqLen b).toNat ≤ s.capSeq.toNat →
    (∀ d ∈ delta (s.source b), InInt32 d) → streamLength (scan (s.source b)) ≤ s.capBuf.toNat →
    ∃ t e, exec (.venc f) s = .next t ∧ t.busy = false ∧ t.done = true ∧ t.err = s.err ∧
      vldEncode (s.source b) = .ok e ∧ Memory.wrote (w := 8) s.buf t.buf e ∧ t.bufLen.toNat = e.length ∧
      Memory.wrote s.dlt t.dlt ((delta (s.source b)).map (BitVec.ofInt 33)) ∧
      Memory.wrote s.wid t.wid ((delta (s.source b)).map (fun d => BitVec.ofNat 6 (width d))) ∧
      t.dltLen = s.seqLen b ∧
      (∃ mw : Nat, t.maxw = .holds (BitVec.ofNat 6 mw) ∧ mw ≤ 32 ∧ largestWidth ((delta (s.source b)).map width) mw) ∧
      (∃ k : Nat, t.wfb = .holds (BitVec.ofNat 8 k) ∧ k ≤ 5 ∧ leastFieldBits ((delta (s.source b)).map width) k) ∧ t.flags = 0#1 ∧
      t = { s with buf := t.buf, bufLen := t.bufLen, dlt := t.dlt, wid := t.wid, dltLen := t.dltLen, maxw := t.maxw,
                   wfb := t.wfb, flags := t.flags, status := t.status }

/-- R118, R182, R183: the exceptions of VENC in the order tested, with BUF and the scratch invalidated. -/
def Obligations.VencTraps : Prop :=
  ∀ (s : State) (f : BitVec 2) (b : Bank), bankOf f = some b →
    let failed : BitVec 8 → Nat → BitVec 1 → State := fun code idx ovf => { s with
      bufLen := 0, buf := [], dltLen := 0, dlt := [], wid := [], maxw := .unspecified, wfb := .unspecified, status := 0b110#3,
      errcode := code, erridx := BitVec.ofNat 32 idx, errfld := BitVec.ofNat 2 (bankNumber b), flags := ovf }
    (s.capSeq.toNat < (s.seqLen b).toNat → exec (.venc f) s = .next (failed 0x30#8 0 0#1)) ∧
    ((s.seqLen b).toNat ≤ s.capSeq.toNat → ∀ k, k < (s.seqLen b).toNat → ¬InInt32 (deltaAt (s.source b) k) →
      (∀ i, i < k → InInt32 (deltaAt (s.source b) i)) → exec (.venc f) s = .next (failed 0x20#8 k 1#1)) ∧
    ((s.seqLen b).toNat ≤ s.capSeq.toNat → (∀ d ∈ delta (s.source b), InInt32 d) →
      s.capBuf.toNat < streamLength (scan (s.source b)) → exec (.venc f) s = .next (failed 0x32#8 0 0#1))

/-- R136: VDEC completes whenever BUF_LEN is within BUF_CAP and the bytes decode within SEQ_CAP: the bank, its length and the
scratch take what was decoded; elements at the length and above and everything else are as before. -/
def Obligations.VdecWritesTheSequence : Prop :=
  ∀ (s : State) (f : BitVec 2) (b : Bank) (r : Decoded), bankOf f = some b → s.bufLen.toNat ≤ s.capBuf.toNat →
    vldDecodeCap (some s.capSeq.toNat) s.bufSource = .ok r →
    ∃ t, exec (.vdec f) s = .next t ∧ t.busy = false ∧ t.done = true ∧ t.err = s.err ∧
      Memory.wrote (s.seq b) (t.seq b) (r.values.map (BitVec.ofInt 32)) ∧ (t.seqLen b).toNat = r.elems.length ∧
      Memory.wrote s.dlt t.dlt (r.deltas.map (BitVec.ofInt 33)) ∧ Memory.wrote s.wid t.wid (r.widths.map (BitVec.ofNat 6)) ∧
      t.dltLen.toNat = r.elems.length ∧ t.wfb = .holds (BitVec.ofNat 8 r.wfb) ∧
      (∃ mw : Nat, t.maxw = .holds (BitVec.ofNat 6 mw) ∧ 1 ≤ mw ∧ mw ≤ 32 ∧ (∀ w ∈ r.widths, w ≤ mw) ∧ (mw = 1 ∨ mw ∈ r.widths)) ∧
      t = { (s.setSeq b (t.seq b)).setSeqLen b (t.seqLen b) with
              dlt := t.dlt, wid := t.wid, dltLen := t.dltLen, maxw := t.maxw, wfb := t.wfb, status := t.status }

/-- R136, R182, R183: the exceptions of VDEC, with bank and scratch invalidated; ERRFLD is the bank. -/
def Obligations.VdecTraps : Prop :=
  ∀ (s : State) (f : BitVec 2) (b : Bank), bankOf f = some b →
    let failed : BitVec 8 → Nat → State := fun code idx => { (s.setSeqLen b 0).setSeq b [] with
      dltLen := 0, dlt := [], wid := [], maxw := .unspecified, wfb := .unspecified, status := 0b110#3, errcode := code,
      erridx := BitVec.ofNat 32 idx, errfld := BitVec.ofNat 2 (bankNumber b), flags := 0#1 }
    (s.capBuf.toNat < s.bufLen.toNat → exec (.vdec f) s = .next (failed 0x30#8 0)) ∧
    (∀ e, s.bufLen.toNat ≤ s.capBuf.toNat → vldDecodeCap (some s.capSeq.toNat) s.bufSource = .error e →
      exec (.vdec f) s = .next (failed (causeCode e.cause) e.idx))

/-- R142: DDEC completes whenever DLT_LEN is within SEQ_CAP and every partial sum is in INT32: the bank takes the running sums;
the scratch, elements at the length and above and everything else are as before. -/
def Obligations.DdecWritesTheRunningSum : Prop :=
  ∀ (s : State) (f : BitVec 2) (b : Bank), bankOf f = some b → s.dltLen.toNat ≤ s.capSeq.toNat →
    (∀ i, i < s.dltLen.toNat → InInt32 (s.deltaSource.take (i + 1)).sum) →
    ∃ t, exec (.ddec f) s = .next t ∧ t.busy = false ∧ t.done = true ∧ t.err = s.err ∧ t.seqLen b = s.dltLen ∧
      (∀ i, i < s.dltLen.toNat → ∃ v, (t.seq b).get i = some v ∧ v.toInt = (s.deltaSource.take (i + 1)).sum) ∧
      (∀ i, s.dltLen.toNat ≤ i → (t.seq b).get i = (s.seq b).get i) ∧
      t = { (s.setSeq b (t.seq b)).setSeqLen b (t.seqLen b) with status := t.status }

/-- R142, R182, R183: the exceptions of DDEC: the bank alone is invalidated, the scratch keeps its values. -/
def Obligations.DdecTraps : Prop :=
  ∀ (s : State) (f : BitVec 2) (b : Bank), bankOf f = some b →
    let failed : BitVec 8 → Nat → State := fun code idx => { (s.setSeqLen b 0).setSeq b [] with
      status := 0b110#3, errcode := code, erridx := BitVec.ofNat 32 idx, errfld := BitVec.ofNat 2 (bankNumber b),
      flags := 0#1 }
    (s.capSeq.toNat < s.dltLen.toNat → exec (.ddec f) s = .next (failed 0x30#8 0)) ∧
    (∀ k, s.dltLen.toNat ≤ s.capSeq.toNat → k < s.dltLen.toNat → ¬InInt32 (s.deltaSource.take (k + 1)).sum →
      (∀ i, i < k → InInt32 (s.deltaSource.take (i + 1)).sum) → exec (.ddec f) s = .next (failed 0x21#8 k))

/-- R152: BASM completes whenever the three source lengths are within SEQ_CAP, every delta is in INT32 and the blob fits
BUF_CAP: BUF takes the assembled blob, BUF_LEN its length, the scratch what a DENC of bank 2 leaves; bytes at the length and
above and everything else are as before. Where a bank element, ROWS or COLS is unspecified, that blob and scratch agree on one
value for it is log entries 1 and 2 (DESIGN CHOICE). -/
def Obligations.BasmWritesTheBlob : Prop :=
  ∀ s : State, (∀ b, (s.seqLen b).toNat ≤ s.capSeq.toNat) → (∀ b, ∀ d ∈ delta (s.source b), InInt32 d) →
    20 + streamLength (scan (s.source .b0)) + streamLength (scan (s.source .b1)) + streamLength (scan (s.source .b2)) ≤
      s.capBuf.toNat →
    ∃ t e, exec .basm s = .next t ∧ t.busy = false ∧ t.done = true ∧ t.err = s.err ∧
      blobAssemble ⟨s.rowsVal.toNat, s.colsVal.toNat, s.source .b0, s.source .b1, s.source .b2⟩ = .ok e ∧
      Memory.wrote (w := 8) s.buf t.buf e ∧ t.bufLen.toNat = e.length ∧
      Memory.wrote s.dlt t.dlt ((delta (s.source .b2)).map (BitVec.ofInt 33)) ∧
      Memory.wrote s.wid t.wid ((delta (s.source .b2)).map (fun d => BitVec.ofNat 6 (width d))) ∧
      t.dltLen = s.seqLen2 ∧
      (∃ mw : Nat, t.maxw = .holds (BitVec.ofNat 6 mw) ∧ mw ≤ 32 ∧ largestWidth ((delta (s.source .b2)).map width) mw) ∧
      (∃ k : Nat, t.wfb = .holds (BitVec.ofNat 8 k) ∧ k ≤ 5 ∧ leastFieldBits ((delta (s.source .b2)).map width) k) ∧ t.flags = 0#1 ∧
      t = { s with buf := t.buf, bufLen := t.bufLen, dlt := t.dlt, wid := t.wid, dltLen := t.dltLen, maxw := t.maxw,
                   wfb := t.wfb, flags := t.flags, status := t.status }

/-- R152, R181 to R183: the exceptions of BASM: the lowest field over SEQ_CAP, then the lowest field with a bad delta and its
first one, then the capacity; BUF and the scratch are invalidated. -/
def Obligations.BasmTraps : Prop :=
  ∀ s : State,
    let failed : BitVec 8 → Nat → Nat → BitVec 1 → State := fun code idx fld ovf => { s with
      bufLen := 0, buf := [], dltLen := 0, dlt := [], wid := [], maxw := .unspecified, wfb := .unspecified, status := 0b110#3,
      errcode := code, erridx := BitVec.ofNat 32 idx, errfld := BitVec.ofNat 2 fld, flags := ovf }
    (∀ b, s.capSeq.toNat < (s.seqLen b).toNat →
      (∀ c, bankNumber c < bankNumber b → (s.seqLen c).toNat ≤ s.capSeq.toNat) →
      exec .basm s = .next (failed 0x30#8 0 (bankNumber b) 0#1)) ∧
    ((∀ b, (s.seqLen b).toNat ≤ s.capSeq.toNat) → ∀ b k, k < (s.seqLen b).toNat → ¬InInt32 (deltaAt (s.source b) k) →
      (∀ i, i < k → InInt32 (deltaAt (s.source b) i)) →
      (∀ c, bankNumber c < bankNumber b → ∀ d ∈ delta (s.source c), InInt32 d) →
      exec .basm s = .next (failed 0x20#8 k (bankNumber b) 1#1)) ∧
    ((∀ b, (s.seqLen b).toNat ≤ s.capSeq.toNat) → (∀ b, ∀ d ∈ delta (s.source b), InInt32 d) →
      s.capBuf.toNat < 20 + streamLength (scan (s.source .b0)) + streamLength (scan (s.source .b1)) +
        streamLength (scan (s.source .b2)) →
      exec .basm s = .next (failed 0x32#8 0 0 0#1))

/-- R162: BPAR completes whenever BUF_LEN is within BUF_CAP and the bytes parse within SEQ_CAP: ROWS, COLS, the three banks and
lengths take the matrix, the scratch the third field; elements at the lengths and above and everything else are as before. R162
decodes the third field's window a second time for the scratch: where a byte of BUF is unspecified, that bank 2 and DLT, WID, WFB
and MAXW agree on one value for it is log entry 1 (DESIGN CHOICE). -/
def Obligations.BparWritesTheMatrix : Prop :=
  ∀ (s : State) (p : Parsed), s.bufLen.toNat ≤ s.capBuf.toNat → blobParseCap (some s.capSeq.toNat) s.bufSource = .ok p →
    ∃ t, exec .bpar s = .next t ∧ t.busy = false ∧ t.done = true ∧ t.err = s.err ∧
      t.rows = .holds (BitVec.ofNat 32 p.rows) ∧ t.cols = .holds (BitVec.ofNat 32 p.cols) ∧
      Memory.wrote s.seq0 t.seq0 (p.indptr.values.map (BitVec.ofInt 32)) ∧ t.seqLen0.toNat = p.indptr.elems.length ∧
      Memory.wrote s.seq1 t.seq1 (p.indices.values.map (BitVec.ofInt 32)) ∧ t.seqLen1.toNat = p.indices.elems.length ∧
      Memory.wrote s.seq2 t.seq2 (p.data.values.map (BitVec.ofInt 32)) ∧ t.seqLen2.toNat = p.data.elems.length ∧
      Memory.wrote s.dlt t.dlt (p.data.deltas.map (BitVec.ofInt 33)) ∧
      Memory.wrote s.wid t.wid (p.data.widths.map (BitVec.ofNat 6)) ∧ t.dltLen.toNat = p.data.elems.length ∧
      t.wfb = .holds (BitVec.ofNat 8 p.data.wfb) ∧
      (∃ mw : Nat, t.maxw = .holds (BitVec.ofNat 6 mw) ∧ 1 ≤ mw ∧ mw ≤ 32 ∧ (∀ w ∈ p.data.widths, w ≤ mw) ∧
        (mw = 1 ∨ mw ∈ p.data.widths)) ∧
      t = { s with rows := t.rows, cols := t.cols, seq0 := t.seq0, seqLen0 := t.seqLen0, seq1 := t.seq1, seqLen1 := t.seqLen1,
                   seq2 := t.seq2, seqLen2 := t.seqLen2, dlt := t.dlt, wid := t.wid, dltLen := t.dltLen, maxw := t.maxw,
                   wfb := t.wfb, status := t.status }

/-- R162, R182, R183: the exceptions of BPAR: the three banks, the scratch and the dimensions are invalidated. -/
def Obligations.BparTraps : Prop :=
  ∀ s : State,
    let failed : BitVec 8 → Nat → Nat → State := fun code idx fld => { s with
      rows := .unspecified, cols := .unspecified, seqLen0 := 0, seqLen1 := 0, seqLen2 := 0, seq0 := [], seq1 := [], seq2 := [],
      dltLen := 0, dlt := [], wid := [], maxw := .unspecified, wfb := .unspecified, status := 0b110#3, errcode := code,
      erridx := BitVec.ofNat 32 idx, errfld := BitVec.ofNat 2 fld, flags := 0#1 }
    (s.capBuf.toNat < s.bufLen.toNat → exec .bpar s = .next (failed 0x30#8 0 0)) ∧
    (∀ e, s.bufLen.toNat ≤ s.capBuf.toNat → blobParseCap (some s.capSeq.toNat) s.bufSource = .error e →
      exec .bpar s = .next (failed (causeCode e.cause) e.idx e.fld))

/-! ### Commands in sequence -/

/-- R205, R138 (a): a VDEC right after a VENC decodes what the VENC wrote: whatever bank it names ends with the sequence the
encoded bank held, and its length. Where a source element is unspecified, that all of it speaks of one value is log
entry 1 (DESIGN CHOICE): both commands run at one value of the draw counter. -/
def Obligations.VencThenVdecRestoresTheSequence : Prop :=
  ∀ (s : State) (f g : BitVec 2) (b c : Bank), bankOf f = some b → bankOf g = some c →
    (s.seqLen b).toNat ≤ s.capSeq.toNat → (∀ d ∈ delta (s.source b), InInt32 d) →
    streamLength (scan (s.source b)) ≤ s.capBuf.toNat →
    ∃ t u, exec (.venc f) s = .next t ∧ exec (.vdec g) t = .next u ∧ u.err = s.err ∧ u.done = true ∧
      u.seqLen c = s.seqLen b ∧ u.source c = s.source b ∧ u.dltLen = s.seqLen b ∧ u.deltaSource = delta (s.source b)

/-- R105 (b), R142: a DDEC right after a DENC puts the sequence back, whatever the size of its deltas. Where a source element
is unspecified, that all of it speaks of one value is log entry 1 (DESIGN CHOICE): both commands run at one value of the draw
counter. -/
def Obligations.DencThenDdecRestoresTheSequence : Prop :=
  ∀ (s : State) (f g : BitVec 2) (b c : Bank), bankOf f = some b → bankOf g = some c →
    (s.seqLen b).toNat ≤ s.capSeq.toNat →
    ∃ t u, exec (.denc f) s = .next t ∧ exec (.ddec g) t = .next u ∧ u.err = s.err ∧
      u.seqLen c = s.seqLen b ∧ u.source c = s.source b

/-- R164, R154: a BPAR right after a BASM restores the matrix: ROWS, COLS and the three banks. Where a bank element
is unspecified, that all of it speaks of one value is log entry 1, and where ROWS or COLS is, log entry 2 (DESIGN CHOICE): both
commands run at one value of the draw counter. -/
def Obligations.BasmThenBparRestoresTheMatrix : Prop :=
  ∀ s : State, (∀ b, (s.seqLen b).toNat ≤ s.capSeq.toNat) → (∀ b, ∀ d ∈ delta (s.source b), InInt32 d) →
    20 + streamLength (scan (s.source .b0)) + streamLength (scan (s.source .b1)) + streamLength (scan (s.source .b2)) ≤
      s.capBuf.toNat →
    s.seqLen0.toNat = s.rowsVal.toNat + 1 →
    ∃ t u, exec .basm s = .next t ∧ exec .bpar t = .next u ∧ u.err = s.err ∧
      u.rows = .holds s.rowsVal ∧ u.cols = .holds s.colsVal ∧ ∀ b, u.seqLen b = s.seqLen b ∧ u.source b = s.source b

/-! ### Rules of the whole machine -/

/-- R17 to R20, R25: which registers no command writes: the arguments and capacities never, RES only BWC, ROWS and COLS only
BPAR, MAXW, WFB, DLT, WID and DLT_LEN never BWC or DDEC, BUF and BUF_LEN only VENC and BASM; CMD never. -/
def Obligations.CommandsWriteOnlyTheirRow : Prop :=
  ∀ (i : Instr) (s t : State), exec i s = .next t →
    t.argLo = s.argLo ∧ t.argHi = s.argHi ∧ t.capSeq = s.capSeq ∧ t.capBuf = s.capBuf ∧ t.cmd = s.cmd ∧
    (i ≠ .bwc → t.res = s.res) ∧ (i ≠ .bpar → t.rows = s.rows ∧ t.cols = s.cols) ∧
    ((i = .bwc ∨ ∃ f, i = .ddec f) →
      t.dlt = s.dlt ∧ t.wid = s.wid ∧ t.dltLen = s.dltLen ∧ t.maxw = s.maxw ∧ t.wfb = s.wfb) ∧
    ((∀ f, i ≠ .venc f) → i ≠ .basm → t.buf = s.buf ∧ t.bufLen = s.bufLen) ∧
    (∀ b, i ≠ .bpar → (∀ f, bankOf f = some b → i ≠ .vdec f ∧ i ≠ .ddec f) → t.seq b = s.seq b ∧ t.seqLen b = s.seqLen b)

/-- R176, R183: a command raises only the causes of its row of R176 (or ILLEGAL_CMD, for a bank field of 3), and after any
exception but ILLEGAL_CMD every destination length of it is 0. -/
def Obligations.ExceptionsFollowTheTables : Prop :=
  ∀ (i : Instr) (s t : State), s.err = false → exec i s = .next t → t.err = true →
    ∃ c, t.errcode = causeCode c ∧ (c ∈ mayRaise i ∨ (c = .illegalCmd ∧ ¬WellFormed i)) ∧
      (c ≠ .illegalCmd → ∀ n ∈ destinationLengths i t, n = 0)

/-- R30 (a), R31: with every source specified a command's result does not depend on any free value: changing the draw counter
(the model's own field, log entry 3) changes nothing else. -/
def Obligations.SpecifiedSourcesFixTheResult : Prop :=
  ∀ (i : Instr) (s t : State) (n : Nat), sourcesSpecified i s → exec i s = .next t →
    exec i { s with draws := n } = .next { t with draws := n }
end

