-- ==== Sys2Proof/Laws/Bits.lean ====
section
/-! SUPPORT. The laws of bit strings: lengths, the unsigned value, field reading, two's complement and the byte layout
(00_scope.md section 5, R3, R6, R7). -/

namespace Sys2Proof.Laws

open Sys2Proof Sys2Proof.Machine

/-! ### Least numbers -/

theorem findLeast_some {p : Nat → Bool} {f k n : Nat} (h : findLeast p f k = some n) :
    p n = true ∧ k ≤ n ∧ n < k + f ∧ ∀ m, k ≤ m → m < n → p m = false := by
  induction f generalizing k with
  | zero => simp [findLeast] at h
  | succ f ih =>
    simp only [findLeast] at h
    split_ifs at h with hp
    · obtain rfl := Option.some.inj h
      exact ⟨hp, le_refl _, by omega, fun m h1 h2 => absurd h1 (by omega)⟩
    · obtain ⟨h1, h2, h3, h4⟩ := ih h
      refine ⟨h1, by omega, by omega, fun m hm hn => ?_⟩
      rcases Nat.eq_or_lt_of_le hm with rfl | hlt
      · simpa using hp
      · exact h4 m hlt hn

theorem findLeast_none {p : Nat → Bool} {f k : Nat} (h : findLeast p f k = none) :
    ∀ m, k ≤ m → m < k + f → p m = false := by
  induction f generalizing k with
  | zero => intro m h1 h2; omega
  | succ f ih =>
    simp only [findLeast] at h
    split_ifs at h with hp
    intro m h1 h2
    rcases Nat.eq_or_lt_of_le h1 with rfl | hlt
    · simpa using hp
    · exact ih h m hlt (by omega)

/-! ### Bit strings -/

@[simp] theorem length_ubits (k v : Nat) : (ubits k v).length = k := by
  induction k with
  | zero => rfl
  | succ k ih => simp [ubits, ih]

@[simp] theorem length_tc (k : Nat) (v : Int) : (tc k v).length = k := length_ubits k _

theorem foldl_uval (s : List Bool) (a : Nat) :
    s.foldl (fun a b => 2 * a + b.toNat) a = a * 2 ^ s.length + uval s := by
  induction s generalizing a with
  | nil => simp [uval]
  | cons b t ih =>
    have h0 : uval (b :: t) = b.toNat * 2 ^ t.length + uval t := by
      simp only [uval, List.foldl_cons, Nat.mul_zero, Nat.zero_add]
      exact ih _
    rw [List.foldl_cons, ih, h0, List.length_cons, pow_succ]
    ring

@[simp] theorem uval_nil : uval [] = 0 := rfl

theorem uval_cons (b : Bool) (t : List Bool) : uval (b :: t) = b.toNat * 2 ^ t.length + uval t := by
  have h := foldl_uval t b.toNat
  simpa [uval] using h

theorem uval_append (s t : List Bool) : uval (s ++ t) = uval s * 2 ^ t.length + uval t := by
  simp only [uval, List.foldl_append]
  exact foldl_uval t _

theorem uval_lt (s : List Bool) : uval s < 2 ^ s.length := by
  induction s with
  | nil => simp
  | cons b t ih =>
    rw [uval_cons, List.length_cons, pow_succ]
    cases b <;> simp <;> omega

/-- Reading a field gives the value emitted (R6, R7). -/
theorem uval_ubits {k v : Nat} (h : v < 2 ^ k) : uval (ubits k v) = v := by
  have gen : ∀ k v : Nat, uval (ubits k v) = v % 2 ^ k := by
    intro k
    induction k with
    | zero => intro v; simp [ubits, Nat.mod_one]
    | succ k ih =>
      intro v
      rw [ubits, uval_cons, length_ubits, ih, Nat.mod_pow_succ, Nat.toNat_testBit]
      ring
  rw [gen, Nat.mod_eq_of_lt h]

theorem testBit_uval_lt {s : List Bool} {k : Nat} (h : s.length ≤ k) : (uval s).testBit k = false :=
  Nat.testBit_lt_two_pow ((uval_lt s).trans_le (Nat.pow_le_pow_right (by omega) h))

theorem ubits_add_mul {k v : Nat} (a : Nat) (hv : v < 2 ^ k) : ubits k (a * 2 ^ k + v) = ubits k v := by
  have gen : ∀ j, j ≤ k → ubits j (a * 2 ^ k + v) = ubits j v := by
    intro j
    induction j with
    | zero => intro _; rfl
    | succ j ih =>
      intro hj
      rw [ubits, ubits, ih (by omega), Nat.mul_comm, Nat.testBit_two_pow_mul_add a hv, if_pos (by omega)]
  exact gen k (le_refl k)

/-- Emitting the value of a bit string gives the bit string. -/
theorem ubits_uval (s : List Bool) : ubits s.length (uval s) = s := by
  induction s with
  | nil => rfl
  | cons b t ih =>
    have hb : (b.toNat * 2 ^ t.length + uval t).testBit t.length = b := by
      have h := uval_lt t
      rw [Nat.testBit, Nat.shiftRight_eq_div_pow, Nat.add_comm, Nat.add_mul_div_right _ _ (by positivity),
        Nat.div_eq_of_lt h]
      cases b <;> rfl
    rw [List.length_cons, ubits, uval_cons, hb, ubits_add_mul _ (uval_lt t), ih]

/-! ### Reading fields -/

/-- A read of exactly the bits `a` (R7). -/
theorem takeBits_append {k : Nat} (a rest : List Bool) (h : a.length = k) :
    takeBits k (a ++ rest) = some (uval a, rest) := by
  subst h
  simp [takeBits]

theorem takeBits_none {k : Nat} {w : List Bool} : takeBits k w = none ↔ w.length < k := by
  simp [takeBits]

theorem takeBits_some {k : Nat} {w : List Bool} {r : Nat × List Bool} (h : takeBits k w = some r) :
    k ≤ w.length ∧ r = (uval (w.take k), w.drop k) := by
  simp only [takeBits] at h
  split_ifs at h with hl
  exact ⟨by omega, (Option.some.inj h).symm⟩

theorem takeBits_value_lt {k : Nat} {w : List Bool} {r : Nat × List Bool} (h : takeBits k w = some r) : r.1 < 2 ^ k := by
  obtain ⟨hk, rfl⟩ := takeBits_some h
  have := uval_lt (w.take k)
  rwa [List.length_take, Nat.min_eq_left hk] at this

/-- Bits after the field are not looked at (R7). -/
theorem takeBits_extend {k : Nat} {w : List Bool} {r : Nat × List Bool} (h : takeBits k w = some r) (t : List Bool) :
    takeBits k (w ++ t) = some (r.1, r.2 ++ t) := by
  obtain ⟨hk, rfl⟩ := takeBits_some h
  rw [takeBits, if_neg (by simp; omega), List.take_append_of_le_length hk, List.drop_append_of_le_length hk]

/-! ### Two's complement -/

theorem two_pow_pred {k : Nat} (hk : 1 ≤ k) : (2 : Int) ^ k = 2 * 2 ^ (k - 1) := by
  obtain ⟨j, rfl⟩ := Nat.exists_eq_add_of_le' hk
  rw [pow_succ, Nat.add_sub_cancel]
  ring

/-- Sign extension recovers the value from its two's-complement field (R68, R96 d). -/
theorem sext_uval_tc {k : Nat} {v : Int} (hk : 1 ≤ k) (hlo : -2 ^ (k - 1) ≤ v) (hhi : v < 2 ^ (k - 1)) :
    sext k (uval (tc k v)) = v := by
  have h2 := two_pow_pred hk
  have hpos : (0 : Int) < 2 ^ (k - 1) := by positivity
  have hm0 : 0 ≤ v % 2 ^ k := Int.emod_nonneg _ (by positivity)
  have hml : v % 2 ^ k < 2 ^ k := Int.emod_lt_of_pos _ (by positivity)
  have hlt : (v % 2 ^ k).toNat < 2 ^ k := by
    have : ((v % 2 ^ k).toNat : Int) < ((2 ^ k : Nat) : Int) := by push_cast; omega
    exact_mod_cast this
  rw [tc, uval_ubits hlt, sext]
  have hcast : ((v % 2 ^ k).toNat : Int) = v % 2 ^ k := Int.toNat_of_nonneg hm0
  have hcmp : 2 ^ (k - 1) ≤ (v % 2 ^ k).toNat ↔ (2 : Int) ^ (k - 1) ≤ v % 2 ^ k := by
    rw [← hcast]; exact_mod_cast Iff.rfl
  rcases lt_or_ge v 0 with hv | hv
  · have hmod : v % 2 ^ k = v + 2 ^ k := by
      rw [← Int.add_emod_right]
      exact Int.emod_eq_of_lt (by omega) (by omega)
    rw [if_pos (hcmp.2 (by omega)), hcast, hmod]
    ring
  · have hmod : v % 2 ^ k = v := Int.emod_eq_of_lt hv (by omega)
    rw [if_neg (fun h => absurd (hcmp.1 h) (by omega)), hcast, hmod]

theorem sext_range {k u : Nat} (hk : 1 ≤ k) (hu : u < 2 ^ k) : -2 ^ (k - 1) ≤ sext k u ∧ sext k u < 2 ^ (k - 1) := by
  have h2 := two_pow_pred hk
  have hpos : (0 : Int) < 2 ^ (k - 1) := by positivity
  have hu' : (u : Int) < 2 ^ k := by exact_mod_cast hu
  have hcmp : 2 ^ (k - 1) ≤ u ↔ (2 : Int) ^ (k - 1) ≤ u := by exact_mod_cast Iff.rfl
  rw [sext]
  split_ifs with h
  · have := hcmp.1 h; omega
  · have := mt hcmp.2 h; omega

/-! ### Bytes -/

@[simp] theorem bitsOf_nil : bitsOf [] = [] := rfl

@[simp] theorem bitsOf_cons (b : Byte) (bs : List Byte) : bitsOf (b :: bs) = ubits 8 b.toNat ++ bitsOf bs := rfl

@[simp] theorem bitsOf_append (a b : List Byte) : bitsOf (a ++ b) = bitsOf a ++ bitsOf b := by simp [bitsOf]

@[simp] theorem length_bitsOf (bs : List Byte) : (bitsOf bs).length = 8 * bs.length := by
  induction bs with
  | nil => rfl
  | cons b bs ih => rw [bitsOf_cons, List.length_append, length_ubits, ih, List.length_cons]; ring

/-- Eight bits make one byte, in front of the bytes of the rest (R3). -/
theorem bytesOf_eight {a : List Bool} (h : a.length = 8) (rest : List Bool) :
    bytesOf (a ++ rest) = BitVec.ofNat 8 (uval a) :: bytesOf rest := by
  match a, h with
  | [_, _, _, _, _, _, _, _], _ => rfl

/-- `bits_of` undoes `bytes_of` on whole bytes (R3). -/
theorem bitsOf_bytesOf (n : Nat) : ∀ s : List Bool, s.length = 8 * n → bitsOf (bytesOf s) = s := by
  induction n with
  | zero => intro s h; obtain rfl := List.length_eq_zero_iff.1 (by omega : s.length = 0); rfl
  | succ n ih =>
    intro s h
    have h8 : (s.take 8).length = 8 := by rw [List.length_take]; omega
    have hv : uval (s.take 8) < 2 ^ 8 := by simpa [h8] using uval_lt (s.take 8)
    conv_lhs => rw [← List.take_append_drop 8 s]
    rw [bytesOf_eight h8, bitsOf_cons, ih _ (by rw [List.length_drop]; omega), BitVec.toNat_ofNat,
      Nat.mod_eq_of_lt hv]
    have hu := ubits_uval (s.take 8)
    rw [h8] at hu
    rw [hu, List.take_append_drop]

theorem length_bytesOf (n : Nat) (s : List Bool) (h : s.length = 8 * n) : (bytesOf s).length = n := by
  have := congrArg List.length (bitsOf_bytesOf n s h)
  rw [length_bitsOf] at this
  omega

/-- Padding ends on a byte boundary, at the number of bytes `ceil(len / 8)` (R6, R69). -/
theorem length_pad (s : List Bool) : (pad s).length = 8 * bytesFor s.length := by
  simp only [pad, List.length_append, List.length_replicate, bytesFor]
  omega

theorem bitsOf_bytesOf_pad (s : List Bool) : bitsOf (bytesOf (pad s)) = pad s := bitsOf_bytesOf _ _ (length_pad s)

theorem length_bytesOf_pad (s : List Bool) : (bytesOf (pad s)).length = bytesFor s.length :=
  length_bytesOf _ _ (length_pad s)

@[simp] theorem length_be32 (v : Nat) : (be32 v).length = 4 := rfl

end Sys2Proof.Laws
end

