-- ==== Sys2Proof/Laws/Memory.lean ====
section
/-! SUPPORT. The laws of the memories: a read after a write to the same index gives the value written, a write leaves
every other index alone, and every operation keeps the canonical form and the index bound. -/

namespace Sys2Proof.Laws

open Sys2Proof Sys2Proof.Machine

variable {w : Nat}

@[simp] theorem get_nil (i : Nat) : Memory.get ([] : Memory w) i = none := rfl

theorem get_set (m : Memory w) (i k : Nat) (v : BitVec w) :
    (m.set i v).get k = if k = i then some v else m.get k := by
  induction m with
  | nil => simp [Memory.set, Memory.get]
  | cons p t ih =>
    obtain ⟨j, u⟩ := p
    rw [Memory.set]
    rcases lt_trichotomy i j with h | rfl | h
    · rw [if_pos h]
      rfl
    · rw [if_neg (lt_irrefl i), if_pos rfl]
      by_cases hk : k = i <;> simp [Memory.get, hk]
    · rw [if_neg (by omega), if_neg (by omega), Memory.get, ih, Memory.get]
      by_cases hk : k = j
      · rw [if_pos hk, if_neg (by omega), if_pos hk]
      · rw [if_neg hk, if_neg hk]

theorem mem_set {m : Memory w} {i : Nat} {v : BitVec w} {p : Nat × BitVec w} (h : p ∈ m.set i v) : p = (i, v) ∨ p ∈ m := by
  induction m with
  | nil => simpa [Memory.set] using h
  | cons q t ih =>
    obtain ⟨j, u⟩ := q
    simp only [Memory.set] at h
    split_ifs at h
    · simpa using h
    · rcases List.mem_cons.1 h with h | h
      · exact .inl h
      · exact .inr (List.mem_cons_of_mem _ h)
    · rcases List.mem_cons.1 h with h | h
      · exact .inr (h ▸ List.mem_cons_self)
      · rcases ih h with h | h
        · exact .inl h
        · exact .inr (List.mem_cons_of_mem _ h)

/-- A write keeps the canonical form. -/
theorem wf_set {m : Memory w} (h : m.wf) (i : Nat) (v : BitVec w) : (m.set i v).wf := by
  induction m with
  | nil => simp [Memory.set, Memory.wf]
  | cons q t ih =>
    obtain ⟨j, u⟩ := q
    have ht : ∀ p ∈ t, j < p.1 := (List.pairwise_cons.1 h).1
    have h' : Memory.wf t := (List.pairwise_cons.1 h).2
    simp only [Memory.set]
    split_ifs with h1 h2
    · refine List.pairwise_cons.2 ⟨?_, h⟩
      intro p hp
      rcases List.mem_cons.1 hp with rfl | hp
      · exact h1
      · exact h1.trans (ht p hp)
    · subst h2
      exact List.pairwise_cons.2 ⟨ht, h'⟩
    · refine List.pairwise_cons.2 ⟨?_, ih h'⟩
      intro p hp
      rcases mem_set hp with rfl | hp
      · show j < i
        omega
      · exact ht p hp

theorem get_setAll (m : Memory w) (i k : Nat) (vs : List (BitVec w)) :
    (m.setAll i vs).get k = if i ≤ k ∧ k < i + vs.length then vs[k - i]? else m.get k := by
  induction vs generalizing m i with
  | nil => simp [Memory.setAll]
  | cons v vs ih =>
    rw [Memory.setAll, ih, get_set]
    by_cases h : k = i
    · subst h
      simp
    · have hlt : i + 1 ≤ k ↔ i ≤ k := by omega
      simp only [hlt, List.length_cons, h, if_false]
      by_cases hk : i ≤ k ∧ k < i + (vs.length + 1)
      · rw [if_pos (by omega), if_pos hk]
        rw [show k - i = (k - (i + 1)) + 1 by omega, List.getElem?_cons_succ]
      · rw [if_neg (by omega), if_neg hk]

/-- Elements written from index 0 read back. -/
theorem get_setAll_of_lt (m : Memory w) (vs : List (BitVec w)) {k : Nat} (h : k < vs.length) :
    (m.setAll 0 vs).get k = some vs[k] := by
  rw [get_setAll]
  simp [h]

/-- Elements at and above the number written keep their values (R34). -/
theorem get_setAll_of_ge (m : Memory w) (vs : List (BitVec w)) {k : Nat} (h : vs.length ≤ k) :
    (m.setAll 0 vs).get k = m.get k := by
  rw [get_setAll, if_neg (by omega)]

/-- Writing a sequence keeps the canonical form. -/
theorem wf_setAll {m : Memory w} (h : m.wf) (i : Nat) (vs : List (BitVec w)) : (m.setAll i vs).wf := by
  induction vs generalizing m i with
  | nil => exact h
  | cons v vs ih => exact ih (wf_set h i v) (i + 1)

theorem mem_setAll {m : Memory w} {i : Nat} {vs : List (BitVec w)} {p : Nat × BitVec w} (h : p ∈ m.setAll i vs) :
    (p.2 ∈ vs ∧ i ≤ p.1 ∧ p.1 < i + vs.length) ∨ p ∈ m := by
  induction vs generalizing m i with
  | nil => exact .inr h
  | cons v vs ih =>
    rcases ih h with ⟨h1, h2, h3⟩ | h
    · exact .inl ⟨List.mem_cons_of_mem _ h1, by omega, by simp only [List.length_cons]; omega⟩
    · rcases mem_set h with rfl | h
      · exact .inl ⟨List.mem_cons_self, le_refl _, by simp⟩
      · exact .inr h

end Sys2Proof.Laws
end

