-- ==== Sys2Proof/Laws/State.lean ====
section
/-! SUPPORT. What each field and accessor of State reads after each named update: true by unfolding the update once,
so that no later proof unfolds one. -/

namespace Sys2Proof.Laws

open Sys2Proof Sys2Proof.Machine

variable (s : State)

/-! ### STATUS and its bits -/

@[simp] theorem statusOf_bit0 (b d e : Bool) : (statusOf b d e)[0] = b := by cases b <;> cases d <;> cases e <;> rfl
@[simp] theorem statusOf_bit1 (b d e : Bool) : (statusOf b d e)[1] = d := by cases b <;> cases d <;> cases e <;> rfl
@[simp] theorem statusOf_bit2 (b d e : Bool) : (statusOf b d e)[2] = e := by cases b <;> cases d <;> cases e <;> rfl
@[simp] theorem statusOf_bits (v : BitVec 3) : statusOf v[0] v[1] v[2] = v := by revert v; decide
theorem statusOf_inj {b d e b' d' e' : Bool} : statusOf b d e = statusOf b' d' e' ↔ b = b' ∧ d = d' ∧ e = e' := by
  revert b d e b' d' e'; decide

/-! ### accept -/

@[simp] theorem accept_cmd (w : Word) : (s.accept w).cmd = w := rfl
@[simp] theorem accept_status (w : Word) : (s.accept w).status = statusOf true false s.err := rfl
@[simp] theorem accept_errcode (w : Word) : (s.accept w).errcode = s.errcode := rfl
@[simp] theorem accept_erridx (w : Word) : (s.accept w).erridx = s.erridx := rfl
@[simp] theorem accept_errfld (w : Word) : (s.accept w).errfld = s.errfld := rfl
@[simp] theorem accept_flags (w : Word) : (s.accept w).flags = 0 := rfl
@[simp] theorem accept_argLo (w : Word) : (s.accept w).argLo = s.argLo := rfl
@[simp] theorem accept_argHi (w : Word) : (s.accept w).argHi = s.argHi := rfl
@[simp] theorem accept_res (w : Word) : (s.accept w).res = s.res := rfl
@[simp] theorem accept_rows (w : Word) : (s.accept w).rows = s.rows := rfl
@[simp] theorem accept_cols (w : Word) : (s.accept w).cols = s.cols := rfl
@[simp] theorem accept_seqLen0 (w : Word) : (s.accept w).seqLen0 = s.seqLen0 := rfl
@[simp] theorem accept_seqLen1 (w : Word) : (s.accept w).seqLen1 = s.seqLen1 := rfl
@[simp] theorem accept_seqLen2 (w : Word) : (s.accept w).seqLen2 = s.seqLen2 := rfl
@[simp] theorem accept_dltLen (w : Word) : (s.accept w).dltLen = s.dltLen := rfl
@[simp] theorem accept_bufLen (w : Word) : (s.accept w).bufLen = s.bufLen := rfl
@[simp] theorem accept_maxw (w : Word) : (s.accept w).maxw = s.maxw := rfl
@[simp] theorem accept_wfb (w : Word) : (s.accept w).wfb = s.wfb := rfl
@[simp] theorem accept_capSeq (w : Word) : (s.accept w).capSeq = s.capSeq := rfl
@[simp] theorem accept_capBuf (w : Word) : (s.accept w).capBuf = s.capBuf := rfl
@[simp] theorem accept_seq0 (w : Word) : (s.accept w).seq0 = s.seq0 := rfl
@[simp] theorem accept_seq1 (w : Word) : (s.accept w).seq1 = s.seq1 := rfl
@[simp] theorem accept_seq2 (w : Word) : (s.accept w).seq2 = s.seq2 := rfl
@[simp] theorem accept_dlt (w : Word) : (s.accept w).dlt = s.dlt := rfl
@[simp] theorem accept_wid (w : Word) : (s.accept w).wid = s.wid := rfl
@[simp] theorem accept_buf (w : Word) : (s.accept w).buf = s.buf := rfl
@[simp] theorem accept_schedule (w : Word) : (s.accept w).schedule = s.schedule := rfl
@[simp] theorem accept_observed (w : Word) : (s.accept w).observed = s.observed := rfl
@[simp] theorem accept_draws (w : Word) : (s.accept w).draws = s.draws := rfl
@[simp] theorem accept_seqLen (w : Word) (b : Bank) : (s.accept w).seqLen b = s.seqLen b := by cases b <;> rfl
@[simp] theorem accept_seq (w : Word) (b : Bank) : (s.accept w).seq b = s.seq b := by cases b <;> rfl
@[simp] theorem accept_busy (w : Word) : (s.accept w).busy = true := by simp [State.busy]
@[simp] theorem accept_done (w : Word) : (s.accept w).done = false := by simp [State.done]
@[simp] theorem accept_err (w : Word) : (s.accept w).err = s.err := by simp [State.err]

/-! ### complete -/

@[simp] theorem complete_cmd : (s.complete).cmd = s.cmd := rfl
@[simp] theorem complete_status : (s.complete).status = statusOf false true s.err := rfl
@[simp] theorem complete_errcode : (s.complete).errcode = s.errcode := rfl
@[simp] theorem complete_erridx : (s.complete).erridx = s.erridx := rfl
@[simp] theorem complete_errfld : (s.complete).errfld = s.errfld := rfl
@[simp] theorem complete_flags : (s.complete).flags = s.flags := rfl
@[simp] theorem complete_argLo : (s.complete).argLo = s.argLo := rfl
@[simp] theorem complete_argHi : (s.complete).argHi = s.argHi := rfl
@[simp] theorem complete_res : (s.complete).res = s.res := rfl
@[simp] theorem complete_rows : (s.complete).rows = s.rows := rfl
@[simp] theorem complete_cols : (s.complete).cols = s.cols := rfl
@[simp] theorem complete_seqLen0 : (s.complete).seqLen0 = s.seqLen0 := rfl
@[simp] theorem complete_seqLen1 : (s.complete).seqLen1 = s.seqLen1 := rfl
@[simp] theorem complete_seqLen2 : (s.complete).seqLen2 = s.seqLen2 := rfl
@[simp] theorem complete_dltLen : (s.complete).dltLen = s.dltLen := rfl
@[simp] theorem complete_bufLen : (s.complete).bufLen = s.bufLen := rfl
@[simp] theorem complete_maxw : (s.complete).maxw = s.maxw := rfl
@[simp] theorem complete_wfb : (s.complete).wfb = s.wfb := rfl
@[simp] theorem complete_capSeq : (s.complete).capSeq = s.capSeq := rfl
@[simp] theorem complete_capBuf : (s.complete).capBuf = s.capBuf := rfl
@[simp] theorem complete_seq0 : (s.complete).seq0 = s.seq0 := rfl
@[simp] theorem complete_seq1 : (s.complete).seq1 = s.seq1 := rfl
@[simp] theorem complete_seq2 : (s.complete).seq2 = s.seq2 := rfl
@[simp] theorem complete_dlt : (s.complete).dlt = s.dlt := rfl
@[simp] theorem complete_wid : (s.complete).wid = s.wid := rfl
@[simp] theorem complete_buf : (s.complete).buf = s.buf := rfl
@[simp] theorem complete_schedule : (s.complete).schedule = s.schedule := rfl
@[simp] theorem complete_observed : (s.complete).observed = s.observed := rfl
@[simp] theorem complete_draws : (s.complete).draws = s.draws := rfl
@[simp] theorem complete_seqLen (b : Bank) : (s.complete).seqLen b = s.seqLen b := by cases b <;> rfl
@[simp] theorem complete_seq (b : Bank) : (s.complete).seq b = s.seq b := by cases b <;> rfl
@[simp] theorem complete_busy : (s.complete).busy = false := by simp [State.busy]
@[simp] theorem complete_done : (s.complete).done = true := by simp [State.done]
@[simp] theorem complete_err : (s.complete).err = s.err := by simp [State.err]

/-! ### clearErr -/

@[simp] theorem clearErr_cmd : (s.clearErr).cmd = s.cmd := rfl
@[simp] theorem clearErr_status : (s.clearErr).status = statusOf s.busy s.done false := rfl
@[simp] theorem clearErr_errcode : (s.clearErr).errcode = 0 := rfl
@[simp] theorem clearErr_erridx : (s.clearErr).erridx = 0 := rfl
@[simp] theorem clearErr_errfld : (s.clearErr).errfld = 0 := rfl
@[simp] theorem clearErr_flags : (s.clearErr).flags = s.flags := rfl
@[simp] theorem clearErr_argLo : (s.clearErr).argLo = s.argLo := rfl
@[simp] theorem clearErr_argHi : (s.clearErr).argHi = s.argHi := rfl
@[simp] theorem clearErr_res : (s.clearErr).res = s.res := rfl
@[simp] theorem clearErr_rows : (s.clearErr).rows = s.rows := rfl
@[simp] theorem clearErr_cols : (s.clearErr).cols = s.cols := rfl
@[simp] theorem clearErr_seqLen0 : (s.clearErr).seqLen0 = s.seqLen0 := rfl
@[simp] theorem clearErr_seqLen1 : (s.clearErr).seqLen1 = s.seqLen1 := rfl
@[simp] theorem clearErr_seqLen2 : (s.clearErr).seqLen2 = s.seqLen2 := rfl
@[simp] theorem clearErr_dltLen : (s.clearErr).dltLen = s.dltLen := rfl
@[simp] theorem clearErr_bufLen : (s.clearErr).bufLen = s.bufLen := rfl
@[simp] theorem clearErr_maxw : (s.clearErr).maxw = s.maxw := rfl
@[simp] theorem clearErr_wfb : (s.clearErr).wfb = s.wfb := rfl
@[simp] theorem clearErr_capSeq : (s.clearErr).capSeq = s.capSeq := rfl
@[simp] theorem clearErr_capBuf : (s.clearErr).capBuf = s.capBuf := rfl
@[simp] theorem clearErr_seq0 : (s.clearErr).seq0 = s.seq0 := rfl
@[simp] theorem clearErr_seq1 : (s.clearErr).seq1 = s.seq1 := rfl
@[simp] theorem clearErr_seq2 : (s.clearErr).seq2 = s.seq2 := rfl
@[simp] theorem clearErr_dlt : (s.clearErr).dlt = s.dlt := rfl
@[simp] theorem clearErr_wid : (s.clearErr).wid = s.wid := rfl
@[simp] theorem clearErr_buf : (s.clearErr).buf = s.buf := rfl
@[simp] theorem clearErr_schedule : (s.clearErr).schedule = s.schedule := rfl
@[simp] theorem clearErr_observed : (s.clearErr).observed = s.observed := rfl
@[simp] theorem clearErr_draws : (s.clearErr).draws = s.draws := rfl
@[simp] theorem clearErr_seqLen (b : Bank) : (s.clearErr).seqLen b = s.seqLen b := by cases b <;> rfl
@[simp] theorem clearErr_seq (b : Bank) : (s.clearErr).seq b = s.seq b := by cases b <;> rfl
@[simp] theorem clearErr_busy : (s.clearErr).busy = s.busy := by simp [State.busy]
@[simp] theorem clearErr_done : (s.clearErr).done = s.done := by simp [State.done]
@[simp] theorem clearErr_err : (s.clearErr).err = false := by simp [State.err]

/-! ### recordException -/

@[simp] theorem recordException_cmd (e : Exc) : (recordException e s).cmd = s.cmd := rfl
@[simp] theorem recordException_status (e : Exc) : (recordException e s).status = statusOf false true true := rfl
@[simp] theorem recordException_errcode (e : Exc) : (recordException e s).errcode = causeCode e.cause := rfl
@[simp] theorem recordException_erridx (e : Exc) : (recordException e s).erridx = BitVec.ofNat 32 e.idx := rfl
@[simp] theorem recordException_errfld (e : Exc) : (recordException e s).errfld = BitVec.ofNat 2 e.fld := rfl
@[simp] theorem recordException_flags (e : Exc) : (recordException e s).flags = flagsOf (ovfAfter e.cause) := rfl
@[simp] theorem recordException_argLo (e : Exc) : (recordException e s).argLo = s.argLo := rfl
@[simp] theorem recordException_argHi (e : Exc) : (recordException e s).argHi = s.argHi := rfl
@[simp] theorem recordException_res (e : Exc) : (recordException e s).res = s.res := rfl
@[simp] theorem recordException_rows (e : Exc) : (recordException e s).rows = s.rows := rfl
@[simp] theorem recordException_cols (e : Exc) : (recordException e s).cols = s.cols := rfl
@[simp] theorem recordException_seqLen0 (e : Exc) : (recordException e s).seqLen0 = s.seqLen0 := rfl
@[simp] theorem recordException_seqLen1 (e : Exc) : (recordException e s).seqLen1 = s.seqLen1 := rfl
@[simp] theorem recordException_seqLen2 (e : Exc) : (recordException e s).seqLen2 = s.seqLen2 := rfl
@[simp] theorem recordException_dltLen (e : Exc) : (recordException e s).dltLen = s.dltLen := rfl
@[simp] theorem recordException_bufLen (e : Exc) : (recordException e s).bufLen = s.bufLen := rfl
@[simp] theorem recordException_maxw (e : Exc) : (recordException e s).maxw = s.maxw := rfl
@[simp] theorem recordException_wfb (e : Exc) : (recordException e s).wfb = s.wfb := rfl
@[simp] theorem recordException_capSeq (e : Exc) : (recordException e s).capSeq = s.capSeq := rfl
@[simp] theorem recordException_capBuf (e : Exc) : (recordException e s).capBuf = s.capBuf := rfl
@[simp] theorem recordException_seq0 (e : Exc) : (recordException e s).seq0 = s.seq0 := rfl
@[simp] theorem recordException_seq1 (e : Exc) : (recordException e s).seq1 = s.seq1 := rfl
@[simp] theorem recordException_seq2 (e : Exc) : (recordException e s).seq2 = s.seq2 := rfl
@[simp] theorem recordException_dlt (e : Exc) : (recordException e s).dlt = s.dlt := rfl
@[simp] theorem recordException_wid (e : Exc) : (recordException e s).wid = s.wid := rfl
@[simp] theorem recordException_buf (e : Exc) : (recordException e s).buf = s.buf := rfl
@[simp] theorem recordException_schedule (e : Exc) : (recordException e s).schedule = s.schedule := rfl
@[simp] theorem recordException_observed (e : Exc) : (recordException e s).observed = s.observed := rfl
@[simp] theorem recordException_draws (e : Exc) : (recordException e s).draws = s.draws := rfl
@[simp] theorem recordException_seqLen (e : Exc) (b : Bank) : (recordException e s).seqLen b = s.seqLen b := by cases b <;> rfl
@[simp] theorem recordException_seq (e : Exc) (b : Bank) : (recordException e s).seq b = s.seq b := by cases b <;> rfl
@[simp] theorem recordException_busy (e : Exc) : (recordException e s).busy = false := by simp [State.busy]
@[simp] theorem recordException_done (e : Exc) : (recordException e s).done = true := by simp [State.done]
@[simp] theorem recordException_err (e : Exc) : (recordException e s).err = true := by simp [State.err]

/-! ### writeScratch -/

@[simp] theorem writeScratch_cmd (ds : List Int) (ws : List Nat) (mw wf : Nat) : (s.writeScratch ds ws mw wf).cmd = s.cmd := rfl
@[simp] theorem writeScratch_status (ds : List Int) (ws : List Nat) (mw wf : Nat) : (s.writeScratch ds ws mw wf).status = s.status := rfl
@[simp] theorem writeScratch_errcode (ds : List Int) (ws : List Nat) (mw wf : Nat) : (s.writeScratch ds ws mw wf).errcode = s.errcode := rfl
@[simp] theorem writeScratch_erridx (ds : List Int) (ws : List Nat) (mw wf : Nat) : (s.writeScratch ds ws mw wf).erridx = s.erridx := rfl
@[simp] theorem writeScratch_errfld (ds : List Int) (ws : List Nat) (mw wf : Nat) : (s.writeScratch ds ws mw wf).errfld = s.errfld := rfl
@[simp] theorem writeScratch_flags (ds : List Int) (ws : List Nat) (mw wf : Nat) : (s.writeScratch ds ws mw wf).flags = s.flags := rfl
@[simp] theorem writeScratch_argLo (ds : List Int) (ws : List Nat) (mw wf : Nat) : (s.writeScratch ds ws mw wf).argLo = s.argLo := rfl
@[simp] theorem writeScratch_argHi (ds : List Int) (ws : List Nat) (mw wf : Nat) : (s.writeScratch ds ws mw wf).argHi = s.argHi := rfl
@[simp] theorem writeScratch_res (ds : List Int) (ws : List Nat) (mw wf : Nat) : (s.writeScratch ds ws mw wf).res = s.res := rfl
@[simp] theorem writeScratch_rows (ds : List Int) (ws : List Nat) (mw wf : Nat) : (s.writeScratch ds ws mw wf).rows = s.rows := rfl
@[simp] theorem writeScratch_cols (ds : List Int) (ws : List Nat) (mw wf : Nat) : (s.writeScratch ds ws mw wf).cols = s.cols := rfl
@[simp] theorem writeScratch_seqLen0 (ds : List Int) (ws : List Nat) (mw wf : Nat) : (s.writeScratch ds ws mw wf).seqLen0 = s.seqLen0 := rfl
@[simp] theorem writeScratch_seqLen1 (ds : List Int) (ws : List Nat) (mw wf : Nat) : (s.writeScratch ds ws mw wf).seqLen1 = s.seqLen1 := rfl
@[simp] theorem writeScratch_seqLen2 (ds : List Int) (ws : List Nat) (mw wf : Nat) : (s.writeScratch ds ws mw wf).seqLen2 = s.seqLen2 := rfl
@[simp] theorem writeScratch_dltLen (ds : List Int) (ws : List Nat) (mw wf : Nat) : (s.writeScratch ds ws mw wf).dltLen = BitVec.ofNat 32 ds.length := rfl
@[simp] theorem writeScratch_bufLen (ds : List Int) (ws : List Nat) (mw wf : Nat) : (s.writeScratch ds ws mw wf).bufLen = s.bufLen := rfl
@[simp] theorem writeScratch_maxw (ds : List Int) (ws : List Nat) (mw wf : Nat) : (s.writeScratch ds ws mw wf).maxw = .holds (BitVec.ofNat 6 mw) := rfl
@[simp] theorem writeScratch_wfb (ds : List Int) (ws : List Nat) (mw wf : Nat) : (s.writeScratch ds ws mw wf).wfb = .holds (BitVec.ofNat 8 wf) := rfl
@[simp] theorem writeScratch_capSeq (ds : List Int) (ws : List Nat) (mw wf : Nat) : (s.writeScratch ds ws mw wf).capSeq = s.capSeq := rfl
@[simp] theorem writeScratch_capBuf (ds : List Int) (ws : List Nat) (mw wf : Nat) : (s.writeScratch ds ws mw wf).capBuf = s.capBuf := rfl
@[simp] theorem writeScratch_seq0 (ds : List Int) (ws : List Nat) (mw wf : Nat) : (s.writeScratch ds ws mw wf).seq0 = s.seq0 := rfl
@[simp] theorem writeScratch_seq1 (ds : List Int) (ws : List Nat) (mw wf : Nat) : (s.writeScratch ds ws mw wf).seq1 = s.seq1 := rfl
@[simp] theorem writeScratch_seq2 (ds : List Int) (ws : List Nat) (mw wf : Nat) : (s.writeScratch ds ws mw wf).seq2 = s.seq2 := rfl
@[simp] theorem writeScratch_dlt (ds : List Int) (ws : List Nat) (mw wf : Nat) : (s.writeScratch ds ws mw wf).dlt = s.dlt.setAll 0 (ds.map (BitVec.ofInt 33)) := rfl
@[simp] theorem writeScratch_wid (ds : List Int) (ws : List Nat) (mw wf : Nat) : (s.writeScratch ds ws mw wf).wid = s.wid.setAll 0 (ws.map (BitVec.ofNat 6)) := rfl
@[simp] theorem writeScratch_buf (ds : List Int) (ws : List Nat) (mw wf : Nat) : (s.writeScratch ds ws mw wf).buf = s.buf := rfl
@[simp] theorem writeScratch_schedule (ds : List Int) (ws : List Nat) (mw wf : Nat) : (s.writeScratch ds ws mw wf).schedule = s.schedule := rfl
@[simp] theorem writeScratch_observed (ds : List Int) (ws : List Nat) (mw wf : Nat) : (s.writeScratch ds ws mw wf).observed = s.observed := rfl
@[simp] theorem writeScratch_draws (ds : List Int) (ws : List Nat) (mw wf : Nat) : (s.writeScratch ds ws mw wf).draws = s.draws := rfl
@[simp] theorem writeScratch_seqLen (ds : List Int) (ws : List Nat) (mw wf : Nat) (b : Bank) : (s.writeScratch ds ws mw wf).seqLen b = s.seqLen b := by cases b <;> rfl
@[simp] theorem writeScratch_seq (ds : List Int) (ws : List Nat) (mw wf : Nat) (b : Bank) : (s.writeScratch ds ws mw wf).seq b = s.seq b := by cases b <;> rfl
@[simp] theorem writeScratch_busy (ds : List Int) (ws : List Nat) (mw wf : Nat) : (s.writeScratch ds ws mw wf).busy = s.busy := rfl
@[simp] theorem writeScratch_done (ds : List Int) (ws : List Nat) (mw wf : Nat) : (s.writeScratch ds ws mw wf).done = s.done := rfl
@[simp] theorem writeScratch_err (ds : List Int) (ws : List Nat) (mw wf : Nat) : (s.writeScratch ds ws mw wf).err = s.err := rfl

/-! ### writeBuf -/

@[simp] theorem writeBuf_cmd (bs : List Byte) : (s.writeBuf bs).cmd = s.cmd := rfl
@[simp] theorem writeBuf_status (bs : List Byte) : (s.writeBuf bs).status = s.status := rfl
@[simp] theorem writeBuf_errcode (bs : List Byte) : (s.writeBuf bs).errcode = s.errcode := rfl
@[simp] theorem writeBuf_erridx (bs : List Byte) : (s.writeBuf bs).erridx = s.erridx := rfl
@[simp] theorem writeBuf_errfld (bs : List Byte) : (s.writeBuf bs).errfld = s.errfld := rfl
@[simp] theorem writeBuf_flags (bs : List Byte) : (s.writeBuf bs).flags = s.flags := rfl
@[simp] theorem writeBuf_argLo (bs : List Byte) : (s.writeBuf bs).argLo = s.argLo := rfl
@[simp] theorem writeBuf_argHi (bs : List Byte) : (s.writeBuf bs).argHi = s.argHi := rfl
@[simp] theorem writeBuf_res (bs : List Byte) : (s.writeBuf bs).res = s.res := rfl
@[simp] theorem writeBuf_rows (bs : List Byte) : (s.writeBuf bs).rows = s.rows := rfl
@[simp] theorem writeBuf_cols (bs : List Byte) : (s.writeBuf bs).cols = s.cols := rfl
@[simp] theorem writeBuf_seqLen0 (bs : List Byte) : (s.writeBuf bs).seqLen0 = s.seqLen0 := rfl
@[simp] theorem writeBuf_seqLen1 (bs : List Byte) : (s.writeBuf bs).seqLen1 = s.seqLen1 := rfl
@[simp] theorem writeBuf_seqLen2 (bs : List Byte) : (s.writeBuf bs).seqLen2 = s.seqLen2 := rfl
@[simp] theorem writeBuf_dltLen (bs : List Byte) : (s.writeBuf bs).dltLen = s.dltLen := rfl
@[simp] theorem writeBuf_bufLen (bs : List Byte) : (s.writeBuf bs).bufLen = BitVec.ofNat 32 bs.length := rfl
@[simp] theorem writeBuf_maxw (bs : List Byte) : (s.writeBuf bs).maxw = s.maxw := rfl
@[simp] theorem writeBuf_wfb (bs : List Byte) : (s.writeBuf bs).wfb = s.wfb := rfl
@[simp] theorem writeBuf_capSeq (bs : List Byte) : (s.writeBuf bs).capSeq = s.capSeq := rfl
@[simp] theorem writeBuf_capBuf (bs : List Byte) : (s.writeBuf bs).capBuf = s.capBuf := rfl
@[simp] theorem writeBuf_seq0 (bs : List Byte) : (s.writeBuf bs).seq0 = s.seq0 := rfl
@[simp] theorem writeBuf_seq1 (bs : List Byte) : (s.writeBuf bs).seq1 = s.seq1 := rfl
@[simp] theorem writeBuf_seq2 (bs : List Byte) : (s.writeBuf bs).seq2 = s.seq2 := rfl
@[simp] theorem writeBuf_dlt (bs : List Byte) : (s.writeBuf bs).dlt = s.dlt := rfl
@[simp] theorem writeBuf_wid (bs : List Byte) : (s.writeBuf bs).wid = s.wid := rfl
@[simp] theorem writeBuf_buf (bs : List Byte) : (s.writeBuf bs).buf = Memory.setAll (w := 8) s.buf 0 bs := rfl
@[simp] theorem writeBuf_schedule (bs : List Byte) : (s.writeBuf bs).schedule = s.schedule := rfl
@[simp] theorem writeBuf_observed (bs : List Byte) : (s.writeBuf bs).observed = s.observed := rfl
@[simp] theorem writeBuf_draws (bs : List Byte) : (s.writeBuf bs).draws = s.draws := rfl
@[simp] theorem writeBuf_seqLen (bs : List Byte) (b : Bank) : (s.writeBuf bs).seqLen b = s.seqLen b := by cases b <;> rfl
@[simp] theorem writeBuf_seq (bs : List Byte) (b : Bank) : (s.writeBuf bs).seq b = s.seq b := by cases b <;> rfl
@[simp] theorem writeBuf_busy (bs : List Byte) : (s.writeBuf bs).busy = s.busy := rfl
@[simp] theorem writeBuf_done (bs : List Byte) : (s.writeBuf bs).done = s.done := rfl
@[simp] theorem writeBuf_err (bs : List Byte) : (s.writeBuf bs).err = s.err := rfl

/-! ### setOvf -/

@[simp] theorem setOvf_cmd (o : Bool) : (s.setOvf o).cmd = s.cmd := rfl
@[simp] theorem setOvf_status (o : Bool) : (s.setOvf o).status = s.status := rfl
@[simp] theorem setOvf_errcode (o : Bool) : (s.setOvf o).errcode = s.errcode := rfl
@[simp] theorem setOvf_erridx (o : Bool) : (s.setOvf o).erridx = s.erridx := rfl
@[simp] theorem setOvf_errfld (o : Bool) : (s.setOvf o).errfld = s.errfld := rfl
@[simp] theorem setOvf_flags (o : Bool) : (s.setOvf o).flags = flagsOf o := rfl
@[simp] theorem setOvf_argLo (o : Bool) : (s.setOvf o).argLo = s.argLo := rfl
@[simp] theorem setOvf_argHi (o : Bool) : (s.setOvf o).argHi = s.argHi := rfl
@[simp] theorem setOvf_res (o : Bool) : (s.setOvf o).res = s.res := rfl
@[simp] theorem setOvf_rows (o : Bool) : (s.setOvf o).rows = s.rows := rfl
@[simp] theorem setOvf_cols (o : Bool) : (s.setOvf o).cols = s.cols := rfl
@[simp] theorem setOvf_seqLen0 (o : Bool) : (s.setOvf o).seqLen0 = s.seqLen0 := rfl
@[simp] theorem setOvf_seqLen1 (o : Bool) : (s.setOvf o).seqLen1 = s.seqLen1 := rfl
@[simp] theorem setOvf_seqLen2 (o : Bool) : (s.setOvf o).seqLen2 = s.seqLen2 := rfl
@[simp] theorem setOvf_dltLen (o : Bool) : (s.setOvf o).dltLen = s.dltLen := rfl
@[simp] theorem setOvf_bufLen (o : Bool) : (s.setOvf o).bufLen = s.bufLen := rfl
@[simp] theorem setOvf_maxw (o : Bool) : (s.setOvf o).maxw = s.maxw := rfl
@[simp] theorem setOvf_wfb (o : Bool) : (s.setOvf o).wfb = s.wfb := rfl
@[simp] theorem setOvf_capSeq (o : Bool) : (s.setOvf o).capSeq = s.capSeq := rfl
@[simp] theorem setOvf_capBuf (o : Bool) : (s.setOvf o).capBuf = s.capBuf := rfl
@[simp] theorem setOvf_seq0 (o : Bool) : (s.setOvf o).seq0 = s.seq0 := rfl
@[simp] theorem setOvf_seq1 (o : Bool) : (s.setOvf o).seq1 = s.seq1 := rfl
@[simp] theorem setOvf_seq2 (o : Bool) : (s.setOvf o).seq2 = s.seq2 := rfl
@[simp] theorem setOvf_dlt (o : Bool) : (s.setOvf o).dlt = s.dlt := rfl
@[simp] theorem setOvf_wid (o : Bool) : (s.setOvf o).wid = s.wid := rfl
@[simp] theorem setOvf_buf (o : Bool) : (s.setOvf o).buf = s.buf := rfl
@[simp] theorem setOvf_schedule (o : Bool) : (s.setOvf o).schedule = s.schedule := rfl
@[simp] theorem setOvf_observed (o : Bool) : (s.setOvf o).observed = s.observed := rfl
@[simp] theorem setOvf_draws (o : Bool) : (s.setOvf o).draws = s.draws := rfl
@[simp] theorem setOvf_seqLen (o : Bool) (b : Bank) : (s.setOvf o).seqLen b = s.seqLen b := by cases b <;> rfl
@[simp] theorem setOvf_seq (o : Bool) (b : Bank) : (s.setOvf o).seq b = s.seq b := by cases b <;> rfl
@[simp] theorem setOvf_busy (o : Bool) : (s.setOvf o).busy = s.busy := rfl
@[simp] theorem setOvf_done (o : Bool) : (s.setOvf o).done = s.done := rfl
@[simp] theorem setOvf_err (o : Bool) : (s.setOvf o).err = s.err := rfl

/-! ### observe -/

@[simp] theorem observe_cmd (v : PortValue) : (s.observe v).cmd = s.cmd := rfl
@[simp] theorem observe_status (v : PortValue) : (s.observe v).status = s.status := rfl
@[simp] theorem observe_errcode (v : PortValue) : (s.observe v).errcode = s.errcode := rfl
@[simp] theorem observe_erridx (v : PortValue) : (s.observe v).erridx = s.erridx := rfl
@[simp] theorem observe_errfld (v : PortValue) : (s.observe v).errfld = s.errfld := rfl
@[simp] theorem observe_flags (v : PortValue) : (s.observe v).flags = s.flags := rfl
@[simp] theorem observe_argLo (v : PortValue) : (s.observe v).argLo = s.argLo := rfl
@[simp] theorem observe_argHi (v : PortValue) : (s.observe v).argHi = s.argHi := rfl
@[simp] theorem observe_res (v : PortValue) : (s.observe v).res = s.res := rfl
@[simp] theorem observe_rows (v : PortValue) : (s.observe v).rows = s.rows := rfl
@[simp] theorem observe_cols (v : PortValue) : (s.observe v).cols = s.cols := rfl
@[simp] theorem observe_seqLen0 (v : PortValue) : (s.observe v).seqLen0 = s.seqLen0 := rfl
@[simp] theorem observe_seqLen1 (v : PortValue) : (s.observe v).seqLen1 = s.seqLen1 := rfl
@[simp] theorem observe_seqLen2 (v : PortValue) : (s.observe v).seqLen2 = s.seqLen2 := rfl
@[simp] theorem observe_dltLen (v : PortValue) : (s.observe v).dltLen = s.dltLen := rfl
@[simp] theorem observe_bufLen (v : PortValue) : (s.observe v).bufLen = s.bufLen := rfl
@[simp] theorem observe_maxw (v : PortValue) : (s.observe v).maxw = s.maxw := rfl
@[simp] theorem observe_wfb (v : PortValue) : (s.observe v).wfb = s.wfb := rfl
@[simp] theorem observe_capSeq (v : PortValue) : (s.observe v).capSeq = s.capSeq := rfl
@[simp] theorem observe_capBuf (v : PortValue) : (s.observe v).capBuf = s.capBuf := rfl
@[simp] theorem observe_seq0 (v : PortValue) : (s.observe v).seq0 = s.seq0 := rfl
@[simp] theorem observe_seq1 (v : PortValue) : (s.observe v).seq1 = s.seq1 := rfl
@[simp] theorem observe_seq2 (v : PortValue) : (s.observe v).seq2 = s.seq2 := rfl
@[simp] theorem observe_dlt (v : PortValue) : (s.observe v).dlt = s.dlt := rfl
@[simp] theorem observe_wid (v : PortValue) : (s.observe v).wid = s.wid := rfl
@[simp] theorem observe_buf (v : PortValue) : (s.observe v).buf = s.buf := rfl
@[simp] theorem observe_schedule (v : PortValue) : (s.observe v).schedule = s.schedule := rfl
@[simp] theorem observe_observed (v : PortValue) : (s.observe v).observed = v :: s.observed := rfl
@[simp] theorem observe_draws (v : PortValue) : (s.observe v).draws = s.draws := rfl
@[simp] theorem observe_seqLen (v : PortValue) (b : Bank) : (s.observe v).seqLen b = s.seqLen b := by cases b <;> rfl
@[simp] theorem observe_seq (v : PortValue) (b : Bank) : (s.observe v).seq b = s.seq b := by cases b <;> rfl
@[simp] theorem observe_busy (v : PortValue) : (s.observe v).busy = s.busy := rfl
@[simp] theorem observe_done (v : PortValue) : (s.observe v).done = s.done := rfl
@[simp] theorem observe_err (v : PortValue) : (s.observe v).err = s.err := rfl

/-! ### setDlt -/

@[simp] theorem setDlt_cmd (m : Memory 33) : (s.setDlt m).cmd = s.cmd := rfl
@[simp] theorem setDlt_status (m : Memory 33) : (s.setDlt m).status = s.status := rfl
@[simp] theorem setDlt_errcode (m : Memory 33) : (s.setDlt m).errcode = s.errcode := rfl
@[simp] theorem setDlt_erridx (m : Memory 33) : (s.setDlt m).erridx = s.erridx := rfl
@[simp] theorem setDlt_errfld (m : Memory 33) : (s.setDlt m).errfld = s.errfld := rfl
@[simp] theorem setDlt_flags (m : Memory 33) : (s.setDlt m).flags = s.flags := rfl
@[simp] theorem setDlt_argLo (m : Memory 33) : (s.setDlt m).argLo = s.argLo := rfl
@[simp] theorem setDlt_argHi (m : Memory 33) : (s.setDlt m).argHi = s.argHi := rfl
@[simp] theorem setDlt_res (m : Memory 33) : (s.setDlt m).res = s.res := rfl
@[simp] theorem setDlt_rows (m : Memory 33) : (s.setDlt m).rows = s.rows := rfl
@[simp] theorem setDlt_cols (m : Memory 33) : (s.setDlt m).cols = s.cols := rfl
@[simp] theorem setDlt_seqLen0 (m : Memory 33) : (s.setDlt m).seqLen0 = s.seqLen0 := rfl
@[simp] theorem setDlt_seqLen1 (m : Memory 33) : (s.setDlt m).seqLen1 = s.seqLen1 := rfl
@[simp] theorem setDlt_seqLen2 (m : Memory 33) : (s.setDlt m).seqLen2 = s.seqLen2 := rfl
@[simp] theorem setDlt_dltLen (m : Memory 33) : (s.setDlt m).dltLen = s.dltLen := rfl
@[simp] theorem setDlt_bufLen (m : Memory 33) : (s.setDlt m).bufLen = s.bufLen := rfl
@[simp] theorem setDlt_maxw (m : Memory 33) : (s.setDlt m).maxw = s.maxw := rfl
@[simp] theorem setDlt_wfb (m : Memory 33) : (s.setDlt m).wfb = s.wfb := rfl
@[simp] theorem setDlt_capSeq (m : Memory 33) : (s.setDlt m).capSeq = s.capSeq := rfl
@[simp] theorem setDlt_capBuf (m : Memory 33) : (s.setDlt m).capBuf = s.capBuf := rfl
@[simp] theorem setDlt_seq0 (m : Memory 33) : (s.setDlt m).seq0 = s.seq0 := rfl
@[simp] theorem setDlt_seq1 (m : Memory 33) : (s.setDlt m).seq1 = s.seq1 := rfl
@[simp] theorem setDlt_seq2 (m : Memory 33) : (s.setDlt m).seq2 = s.seq2 := rfl
@[simp] theorem setDlt_dlt (m : Memory 33) : (s.setDlt m).dlt = m := rfl
@[simp] theorem setDlt_wid (m : Memory 33) : (s.setDlt m).wid = s.wid := rfl
@[simp] theorem setDlt_buf (m : Memory 33) : (s.setDlt m).buf = s.buf := rfl
@[simp] theorem setDlt_schedule (m : Memory 33) : (s.setDlt m).schedule = s.schedule := rfl
@[simp] theorem setDlt_observed (m : Memory 33) : (s.setDlt m).observed = s.observed := rfl
@[simp] theorem setDlt_draws (m : Memory 33) : (s.setDlt m).draws = s.draws := rfl
@[simp] theorem setDlt_seqLen (m : Memory 33) (b : Bank) : (s.setDlt m).seqLen b = s.seqLen b := by cases b <;> rfl
@[simp] theorem setDlt_seq (m : Memory 33) (b : Bank) : (s.setDlt m).seq b = s.seq b := by cases b <;> rfl
@[simp] theorem setDlt_busy (m : Memory 33) : (s.setDlt m).busy = s.busy := rfl
@[simp] theorem setDlt_done (m : Memory 33) : (s.setDlt m).done = s.done := rfl
@[simp] theorem setDlt_err (m : Memory 33) : (s.setDlt m).err = s.err := rfl

/-! ### setBuf -/

@[simp] theorem setBuf_cmd (m : Memory 8) : (s.setBuf m).cmd = s.cmd := rfl
@[simp] theorem setBuf_status (m : Memory 8) : (s.setBuf m).status = s.status := rfl
@[simp] theorem setBuf_errcode (m : Memory 8) : (s.setBuf m).errcode = s.errcode := rfl
@[simp] theorem setBuf_erridx (m : Memory 8) : (s.setBuf m).erridx = s.erridx := rfl
@[simp] theorem setBuf_errfld (m : Memory 8) : (s.setBuf m).errfld = s.errfld := rfl
@[simp] theorem setBuf_flags (m : Memory 8) : (s.setBuf m).flags = s.flags := rfl
@[simp] theorem setBuf_argLo (m : Memory 8) : (s.setBuf m).argLo = s.argLo := rfl
@[simp] theorem setBuf_argHi (m : Memory 8) : (s.setBuf m).argHi = s.argHi := rfl
@[simp] theorem setBuf_res (m : Memory 8) : (s.setBuf m).res = s.res := rfl
@[simp] theorem setBuf_rows (m : Memory 8) : (s.setBuf m).rows = s.rows := rfl
@[simp] theorem setBuf_cols (m : Memory 8) : (s.setBuf m).cols = s.cols := rfl
@[simp] theorem setBuf_seqLen0 (m : Memory 8) : (s.setBuf m).seqLen0 = s.seqLen0 := rfl
@[simp] theorem setBuf_seqLen1 (m : Memory 8) : (s.setBuf m).seqLen1 = s.seqLen1 := rfl
@[simp] theorem setBuf_seqLen2 (m : Memory 8) : (s.setBuf m).seqLen2 = s.seqLen2 := rfl
@[simp] theorem setBuf_dltLen (m : Memory 8) : (s.setBuf m).dltLen = s.dltLen := rfl
@[simp] theorem setBuf_bufLen (m : Memory 8) : (s.setBuf m).bufLen = s.bufLen := rfl
@[simp] theorem setBuf_maxw (m : Memory 8) : (s.setBuf m).maxw = s.maxw := rfl
@[simp] theorem setBuf_wfb (m : Memory 8) : (s.setBuf m).wfb = s.wfb := rfl
@[simp] theorem setBuf_capSeq (m : Memory 8) : (s.setBuf m).capSeq = s.capSeq := rfl
@[simp] theorem setBuf_capBuf (m : Memory 8) : (s.setBuf m).capBuf = s.capBuf := rfl
@[simp] theorem setBuf_seq0 (m : Memory 8) : (s.setBuf m).seq0 = s.seq0 := rfl
@[simp] theorem setBuf_seq1 (m : Memory 8) : (s.setBuf m).seq1 = s.seq1 := rfl
@[simp] theorem setBuf_seq2 (m : Memory 8) : (s.setBuf m).seq2 = s.seq2 := rfl
@[simp] theorem setBuf_dlt (m : Memory 8) : (s.setBuf m).dlt = s.dlt := rfl
@[simp] theorem setBuf_wid (m : Memory 8) : (s.setBuf m).wid = s.wid := rfl
@[simp] theorem setBuf_buf (m : Memory 8) : (s.setBuf m).buf = m := rfl
@[simp] theorem setBuf_schedule (m : Memory 8) : (s.setBuf m).schedule = s.schedule := rfl
@[simp] theorem setBuf_observed (m : Memory 8) : (s.setBuf m).observed = s.observed := rfl
@[simp] theorem setBuf_draws (m : Memory 8) : (s.setBuf m).draws = s.draws := rfl
@[simp] theorem setBuf_seqLen (m : Memory 8) (b : Bank) : (s.setBuf m).seqLen b = s.seqLen b := by cases b <;> rfl
@[simp] theorem setBuf_seq (m : Memory 8) (b : Bank) : (s.setBuf m).seq b = s.seq b := by cases b <;> rfl
@[simp] theorem setBuf_busy (m : Memory 8) : (s.setBuf m).busy = s.busy := rfl
@[simp] theorem setBuf_done (m : Memory 8) : (s.setBuf m).done = s.done := rfl
@[simp] theorem setBuf_err (m : Memory 8) : (s.setBuf m).err = s.err := rfl

/-! ### tick -/

@[simp] theorem tick_cmd : (s.tick).cmd = s.cmd := rfl
@[simp] theorem tick_status : (s.tick).status = s.status := rfl
@[simp] theorem tick_errcode : (s.tick).errcode = s.errcode := rfl
@[simp] theorem tick_erridx : (s.tick).erridx = s.erridx := rfl
@[simp] theorem tick_errfld : (s.tick).errfld = s.errfld := rfl
@[simp] theorem tick_flags : (s.tick).flags = s.flags := rfl
@[simp] theorem tick_argLo : (s.tick).argLo = s.argLo := rfl
@[simp] theorem tick_argHi : (s.tick).argHi = s.argHi := rfl
@[simp] theorem tick_res : (s.tick).res = s.res := rfl
@[simp] theorem tick_rows : (s.tick).rows = s.rows := rfl
@[simp] theorem tick_cols : (s.tick).cols = s.cols := rfl
@[simp] theorem tick_seqLen0 : (s.tick).seqLen0 = s.seqLen0 := rfl
@[simp] theorem tick_seqLen1 : (s.tick).seqLen1 = s.seqLen1 := rfl
@[simp] theorem tick_seqLen2 : (s.tick).seqLen2 = s.seqLen2 := rfl
@[simp] theorem tick_dltLen : (s.tick).dltLen = s.dltLen := rfl
@[simp] theorem tick_bufLen : (s.tick).bufLen = s.bufLen := rfl
@[simp] theorem tick_maxw : (s.tick).maxw = s.maxw := rfl
@[simp] theorem tick_wfb : (s.tick).wfb = s.wfb := rfl
@[simp] theorem tick_capSeq : (s.tick).capSeq = s.capSeq := rfl
@[simp] theorem tick_capBuf : (s.tick).capBuf = s.capBuf := rfl
@[simp] theorem tick_seq0 : (s.tick).seq0 = s.seq0 := rfl
@[simp] theorem tick_seq1 : (s.tick).seq1 = s.seq1 := rfl
@[simp] theorem tick_seq2 : (s.tick).seq2 = s.seq2 := rfl
@[simp] theorem tick_dlt : (s.tick).dlt = s.dlt := rfl
@[simp] theorem tick_wid : (s.tick).wid = s.wid := rfl
@[simp] theorem tick_buf : (s.tick).buf = s.buf := rfl
@[simp] theorem tick_schedule : (s.tick).schedule = s.schedule.tail := rfl
@[simp] theorem tick_observed : (s.tick).observed = s.observed := rfl
@[simp] theorem tick_draws : (s.tick).draws = s.draws + 1 := rfl
@[simp] theorem tick_seqLen (b : Bank) : (s.tick).seqLen b = s.seqLen b := by cases b <;> rfl
@[simp] theorem tick_seq (b : Bank) : (s.tick).seq b = s.seq b := by cases b <;> rfl
@[simp] theorem tick_busy : (s.tick).busy = s.busy := rfl
@[simp] theorem tick_done : (s.tick).done = s.done := rfl
@[simp] theorem tick_err : (s.tick).err = s.err := rfl

/-! ### setSeqLen -/

@[simp] theorem setSeqLen_cmd (b : Bank) (n : Word) : (s.setSeqLen b n).cmd = s.cmd := by cases b <;> rfl
@[simp] theorem setSeqLen_status (b : Bank) (n : Word) : (s.setSeqLen b n).status = s.status := by cases b <;> rfl
@[simp] theorem setSeqLen_errcode (b : Bank) (n : Word) : (s.setSeqLen b n).errcode = s.errcode := by cases b <;> rfl
@[simp] theorem setSeqLen_erridx (b : Bank) (n : Word) : (s.setSeqLen b n).erridx = s.erridx := by cases b <;> rfl
@[simp] theorem setSeqLen_errfld (b : Bank) (n : Word) : (s.setSeqLen b n).errfld = s.errfld := by cases b <;> rfl
@[simp] theorem setSeqLen_flags (b : Bank) (n : Word) : (s.setSeqLen b n).flags = s.flags := by cases b <;> rfl
@[simp] theorem setSeqLen_argLo (b : Bank) (n : Word) : (s.setSeqLen b n).argLo = s.argLo := by cases b <;> rfl
@[simp] theorem setSeqLen_argHi (b : Bank) (n : Word) : (s.setSeqLen b n).argHi = s.argHi := by cases b <;> rfl
@[simp] theorem setSeqLen_res (b : Bank) (n : Word) : (s.setSeqLen b n).res = s.res := by cases b <;> rfl
@[simp] theorem setSeqLen_rows (b : Bank) (n : Word) : (s.setSeqLen b n).rows = s.rows := by cases b <;> rfl
@[simp] theorem setSeqLen_cols (b : Bank) (n : Word) : (s.setSeqLen b n).cols = s.cols := by cases b <;> rfl
@[simp] theorem setSeqLen_dltLen (b : Bank) (n : Word) : (s.setSeqLen b n).dltLen = s.dltLen := by cases b <;> rfl
@[simp] theorem setSeqLen_bufLen (b : Bank) (n : Word) : (s.setSeqLen b n).bufLen = s.bufLen := by cases b <;> rfl
@[simp] theorem setSeqLen_maxw (b : Bank) (n : Word) : (s.setSeqLen b n).maxw = s.maxw := by cases b <;> rfl
@[simp] theorem setSeqLen_wfb (b : Bank) (n : Word) : (s.setSeqLen b n).wfb = s.wfb := by cases b <;> rfl
@[simp] theorem setSeqLen_capSeq (b : Bank) (n : Word) : (s.setSeqLen b n).capSeq = s.capSeq := by cases b <;> rfl
@[simp] theorem setSeqLen_capBuf (b : Bank) (n : Word) : (s.setSeqLen b n).capBuf = s.capBuf := by cases b <;> rfl
@[simp] theorem setSeqLen_seq0 (b : Bank) (n : Word) : (s.setSeqLen b n).seq0 = s.seq0 := by cases b <;> rfl
@[simp] theorem setSeqLen_seq1 (b : Bank) (n : Word) : (s.setSeqLen b n).seq1 = s.seq1 := by cases b <;> rfl
@[simp] theorem setSeqLen_seq2 (b : Bank) (n : Word) : (s.setSeqLen b n).seq2 = s.seq2 := by cases b <;> rfl
@[simp] theorem setSeqLen_dlt (b : Bank) (n : Word) : (s.setSeqLen b n).dlt = s.dlt := by cases b <;> rfl
@[simp] theorem setSeqLen_wid (b : Bank) (n : Word) : (s.setSeqLen b n).wid = s.wid := by cases b <;> rfl
@[simp] theorem setSeqLen_buf (b : Bank) (n : Word) : (s.setSeqLen b n).buf = s.buf := by cases b <;> rfl
@[simp] theorem setSeqLen_schedule (b : Bank) (n : Word) : (s.setSeqLen b n).schedule = s.schedule := by cases b <;> rfl
@[simp] theorem setSeqLen_observed (b : Bank) (n : Word) : (s.setSeqLen b n).observed = s.observed := by cases b <;> rfl
@[simp] theorem setSeqLen_draws (b : Bank) (n : Word) : (s.setSeqLen b n).draws = s.draws := by cases b <;> rfl
@[simp] theorem setSeqLen_busy (b : Bank) (n : Word) : (s.setSeqLen b n).busy = s.busy := by cases b <;> rfl
@[simp] theorem setSeqLen_done (b : Bank) (n : Word) : (s.setSeqLen b n).done = s.done := by cases b <;> rfl
@[simp] theorem setSeqLen_err (b : Bank) (n : Word) : (s.setSeqLen b n).err = s.err := by cases b <;> rfl

/-! ### setSeq -/

@[simp] theorem setSeq_cmd (b : Bank) (m : Memory 32) : (s.setSeq b m).cmd = s.cmd := by cases b <;> rfl
@[simp] theorem setSeq_status (b : Bank) (m : Memory 32) : (s.setSeq b m).status = s.status := by cases b <;> rfl
@[simp] theorem setSeq_errcode (b : Bank) (m : Memory 32) : (s.setSeq b m).errcode = s.errcode := by cases b <;> rfl
@[simp] theorem setSeq_erridx (b : Bank) (m : Memory 32) : (s.setSeq b m).erridx = s.erridx := by cases b <;> rfl
@[simp] theorem setSeq_errfld (b : Bank) (m : Memory 32) : (s.setSeq b m).errfld = s.errfld := by cases b <;> rfl
@[simp] theorem setSeq_flags (b : Bank) (m : Memory 32) : (s.setSeq b m).flags = s.flags := by cases b <;> rfl
@[simp] theorem setSeq_argLo (b : Bank) (m : Memory 32) : (s.setSeq b m).argLo = s.argLo := by cases b <;> rfl
@[simp] theorem setSeq_argHi (b : Bank) (m : Memory 32) : (s.setSeq b m).argHi = s.argHi := by cases b <;> rfl
@[simp] theorem setSeq_res (b : Bank) (m : Memory 32) : (s.setSeq b m).res = s.res := by cases b <;> rfl
@[simp] theorem setSeq_rows (b : Bank) (m : Memory 32) : (s.setSeq b m).rows = s.rows := by cases b <;> rfl
@[simp] theorem setSeq_cols (b : Bank) (m : Memory 32) : (s.setSeq b m).cols = s.cols := by cases b <;> rfl
@[simp] theorem setSeq_seqLen0 (b : Bank) (m : Memory 32) : (s.setSeq b m).seqLen0 = s.seqLen0 := by cases b <;> rfl
@[simp] theorem setSeq_seqLen1 (b : Bank) (m : Memory 32) : (s.setSeq b m).seqLen1 = s.seqLen1 := by cases b <;> rfl
@[simp] theorem setSeq_seqLen2 (b : Bank) (m : Memory 32) : (s.setSeq b m).seqLen2 = s.seqLen2 := by cases b <;> rfl
@[simp] theorem setSeq_dltLen (b : Bank) (m : Memory 32) : (s.setSeq b m).dltLen = s.dltLen := by cases b <;> rfl
@[simp] theorem setSeq_bufLen (b : Bank) (m : Memory 32) : (s.setSeq b m).bufLen = s.bufLen := by cases b <;> rfl
@[simp] theorem setSeq_maxw (b : Bank) (m : Memory 32) : (s.setSeq b m).maxw = s.maxw := by cases b <;> rfl
@[simp] theorem setSeq_wfb (b : Bank) (m : Memory 32) : (s.setSeq b m).wfb = s.wfb := by cases b <;> rfl
@[simp] theorem setSeq_capSeq (b : Bank) (m : Memory 32) : (s.setSeq b m).capSeq = s.capSeq := by cases b <;> rfl
@[simp] theorem setSeq_capBuf (b : Bank) (m : Memory 32) : (s.setSeq b m).capBuf = s.capBuf := by cases b <;> rfl
@[simp] theorem setSeq_dlt (b : Bank) (m : Memory 32) : (s.setSeq b m).dlt = s.dlt := by cases b <;> rfl
@[simp] theorem setSeq_wid (b : Bank) (m : Memory 32) : (s.setSeq b m).wid = s.wid := by cases b <;> rfl
@[simp] theorem setSeq_buf (b : Bank) (m : Memory 32) : (s.setSeq b m).buf = s.buf := by cases b <;> rfl
@[simp] theorem setSeq_schedule (b : Bank) (m : Memory 32) : (s.setSeq b m).schedule = s.schedule := by cases b <;> rfl
@[simp] theorem setSeq_observed (b : Bank) (m : Memory 32) : (s.setSeq b m).observed = s.observed := by cases b <;> rfl
@[simp] theorem setSeq_draws (b : Bank) (m : Memory 32) : (s.setSeq b m).draws = s.draws := by cases b <;> rfl
@[simp] theorem setSeq_busy (b : Bank) (m : Memory 32) : (s.setSeq b m).busy = s.busy := by cases b <;> rfl
@[simp] theorem setSeq_done (b : Bank) (m : Memory 32) : (s.setSeq b m).done = s.done := by cases b <;> rfl
@[simp] theorem setSeq_err (b : Bank) (m : Memory 32) : (s.setSeq b m).err = s.err := by cases b <;> rfl

/-! ### writeBank -/

@[simp] theorem writeBank_cmd (b : Bank) (xs : List Int) : (s.writeBank b xs).cmd = s.cmd := by cases b <;> rfl
@[simp] theorem writeBank_status (b : Bank) (xs : List Int) : (s.writeBank b xs).status = s.status := by cases b <;> rfl
@[simp] theorem writeBank_errcode (b : Bank) (xs : List Int) : (s.writeBank b xs).errcode = s.errcode := by cases b <;> rfl
@[simp] theorem writeBank_erridx (b : Bank) (xs : List Int) : (s.writeBank b xs).erridx = s.erridx := by cases b <;> rfl
@[simp] theorem writeBank_errfld (b : Bank) (xs : List Int) : (s.writeBank b xs).errfld = s.errfld := by cases b <;> rfl
@[simp] theorem writeBank_flags (b : Bank) (xs : List Int) : (s.writeBank b xs).flags = s.flags := by cases b <;> rfl
@[simp] theorem writeBank_argLo (b : Bank) (xs : List Int) : (s.writeBank b xs).argLo = s.argLo := by cases b <;> rfl
@[simp] theorem writeBank_argHi (b : Bank) (xs : List Int) : (s.writeBank b xs).argHi = s.argHi := by cases b <;> rfl
@[simp] theorem writeBank_res (b : Bank) (xs : List Int) : (s.writeBank b xs).res = s.res := by cases b <;> rfl
@[simp] theorem writeBank_rows (b : Bank) (xs : List Int) : (s.writeBank b xs).rows = s.rows := by cases b <;> rfl
@[simp] theorem writeBank_cols (b : Bank) (xs : List Int) : (s.writeBank b xs).cols = s.cols := by cases b <;> rfl
@[simp] theorem writeBank_dltLen (b : Bank) (xs : List Int) : (s.writeBank b xs).dltLen = s.dltLen := by cases b <;> rfl
@[simp] theorem writeBank_bufLen (b : Bank) (xs : List Int) : (s.writeBank b xs).bufLen = s.bufLen := by cases b <;> rfl
@[simp] theorem writeBank_maxw (b : Bank) (xs : List Int) : (s.writeBank b xs).maxw = s.maxw := by cases b <;> rfl
@[simp] theorem writeBank_wfb (b : Bank) (xs : List Int) : (s.writeBank b xs).wfb = s.wfb := by cases b <;> rfl
@[simp] theorem writeBank_capSeq (b : Bank) (xs : List Int) : (s.writeBank b xs).capSeq = s.capSeq := by cases b <;> rfl
@[simp] theorem writeBank_capBuf (b : Bank) (xs : List Int) : (s.writeBank b xs).capBuf = s.capBuf := by cases b <;> rfl
@[simp] theorem writeBank_dlt (b : Bank) (xs : List Int) : (s.writeBank b xs).dlt = s.dlt := by cases b <;> rfl
@[simp] theorem writeBank_wid (b : Bank) (xs : List Int) : (s.writeBank b xs).wid = s.wid := by cases b <;> rfl
@[simp] theorem writeBank_buf (b : Bank) (xs : List Int) : (s.writeBank b xs).buf = s.buf := by cases b <;> rfl
@[simp] theorem writeBank_schedule (b : Bank) (xs : List Int) : (s.writeBank b xs).schedule = s.schedule := by cases b <;> rfl
@[simp] theorem writeBank_observed (b : Bank) (xs : List Int) : (s.writeBank b xs).observed = s.observed := by cases b <;> rfl
@[simp] theorem writeBank_draws (b : Bank) (xs : List Int) : (s.writeBank b xs).draws = s.draws := by cases b <;> rfl
@[simp] theorem writeBank_busy (b : Bank) (xs : List Int) : (s.writeBank b xs).busy = s.busy := by cases b <;> rfl
@[simp] theorem writeBank_done (b : Bank) (xs : List Int) : (s.writeBank b xs).done = s.done := by cases b <;> rfl
@[simp] theorem writeBank_err (b : Bank) (xs : List Int) : (s.writeBank b xs).err = s.err := by cases b <;> rfl
@[simp] theorem writeBank_b0_seq0 (xs : List Int) : (s.writeBank .b0 xs).seq0 = s.seq0.setAll 0 (xs.map (BitVec.ofInt 32)) := rfl
@[simp] theorem writeBank_b0_seqLen0 (xs : List Int) : (s.writeBank .b0 xs).seqLen0 = BitVec.ofNat 32 xs.length := rfl
@[simp] theorem writeBank_b0_seq1 (xs : List Int) : (s.writeBank .b0 xs).seq1 = s.seq1 := rfl
@[simp] theorem writeBank_b0_seqLen1 (xs : List Int) : (s.writeBank .b0 xs).seqLen1 = s.seqLen1 := rfl
@[simp] theorem writeBank_b0_seq2 (xs : List Int) : (s.writeBank .b0 xs).seq2 = s.seq2 := rfl
@[simp] theorem writeBank_b0_seqLen2 (xs : List Int) : (s.writeBank .b0 xs).seqLen2 = s.seqLen2 := rfl
@[simp] theorem writeBank_b1_seq0 (xs : List Int) : (s.writeBank .b1 xs).seq0 = s.seq0 := rfl
@[simp] theorem writeBank_b1_seqLen0 (xs : List Int) : (s.writeBank .b1 xs).seqLen0 = s.seqLen0 := rfl
@[simp] theorem writeBank_b1_seq1 (xs : List Int) : (s.writeBank .b1 xs).seq1 = s.seq1.setAll 0 (xs.map (BitVec.ofInt 32)) := rfl
@[simp] theorem writeBank_b1_seqLen1 (xs : List Int) : (s.writeBank .b1 xs).seqLen1 = BitVec.ofNat 32 xs.length := rfl
@[simp] theorem writeBank_b1_seq2 (xs : List Int) : (s.writeBank .b1 xs).seq2 = s.seq2 := rfl
@[simp] theorem writeBank_b1_seqLen2 (xs : List Int) : (s.writeBank .b1 xs).seqLen2 = s.seqLen2 := rfl
@[simp] theorem writeBank_b2_seq0 (xs : List Int) : (s.writeBank .b2 xs).seq0 = s.seq0 := rfl
@[simp] theorem writeBank_b2_seqLen0 (xs : List Int) : (s.writeBank .b2 xs).seqLen0 = s.seqLen0 := rfl
@[simp] theorem writeBank_b2_seq1 (xs : List Int) : (s.writeBank .b2 xs).seq1 = s.seq1 := rfl
@[simp] theorem writeBank_b2_seqLen1 (xs : List Int) : (s.writeBank .b2 xs).seqLen1 = s.seqLen1 := rfl
@[simp] theorem writeBank_b2_seq2 (xs : List Int) : (s.writeBank .b2 xs).seq2 = s.seq2.setAll 0 (xs.map (BitVec.ofInt 32)) := rfl
@[simp] theorem writeBank_b2_seqLen2 (xs : List Int) : (s.writeBank .b2 xs).seqLen2 = BitVec.ofNat 32 xs.length := rfl
theorem writeBank_seq (b c : Bank) (xs : List Int) :
    (s.writeBank b xs).seq c = if c = b then (s.seq b).setAll 0 (xs.map (BitVec.ofInt 32)) else s.seq c := by
  cases b <;> cases c <;> rfl
theorem writeBank_seqLen (b c : Bank) (xs : List Int) :
    (s.writeBank b xs).seqLen c = if c = b then BitVec.ofNat 32 xs.length else s.seqLen c := by
  cases b <;> cases c <;> rfl

/-! ### writeScan -/

@[simp] theorem writeScan_cmd (x : List Int) : (s.writeScan x).cmd = s.cmd := by simp [State.writeScan]
@[simp] theorem writeScan_status (x : List Int) : (s.writeScan x).status = s.status := by simp [State.writeScan]
@[simp] theorem writeScan_errcode (x : List Int) : (s.writeScan x).errcode = s.errcode := by simp [State.writeScan]
@[simp] theorem writeScan_erridx (x : List Int) : (s.writeScan x).erridx = s.erridx := by simp [State.writeScan]
@[simp] theorem writeScan_errfld (x : List Int) : (s.writeScan x).errfld = s.errfld := by simp [State.writeScan]
@[simp] theorem writeScan_flags (x : List Int) : (s.writeScan x).flags = flagsOf (scanOvf (scan x)) := by simp [State.writeScan]
@[simp] theorem writeScan_argLo (x : List Int) : (s.writeScan x).argLo = s.argLo := by simp [State.writeScan]
@[simp] theorem writeScan_argHi (x : List Int) : (s.writeScan x).argHi = s.argHi := by simp [State.writeScan]
@[simp] theorem writeScan_res (x : List Int) : (s.writeScan x).res = s.res := by simp [State.writeScan]
@[simp] theorem writeScan_rows (x : List Int) : (s.writeScan x).rows = s.rows := by simp [State.writeScan]
@[simp] theorem writeScan_cols (x : List Int) : (s.writeScan x).cols = s.cols := by simp [State.writeScan]
@[simp] theorem writeScan_seqLen0 (x : List Int) : (s.writeScan x).seqLen0 = s.seqLen0 := by simp [State.writeScan]
@[simp] theorem writeScan_seqLen1 (x : List Int) : (s.writeScan x).seqLen1 = s.seqLen1 := by simp [State.writeScan]
@[simp] theorem writeScan_seqLen2 (x : List Int) : (s.writeScan x).seqLen2 = s.seqLen2 := by simp [State.writeScan]
@[simp] theorem writeScan_dltLen (x : List Int) : (s.writeScan x).dltLen = BitVec.ofNat 32 (scan x).deltas.length := by simp [State.writeScan]
@[simp] theorem writeScan_bufLen (x : List Int) : (s.writeScan x).bufLen = s.bufLen := by simp [State.writeScan]
@[simp] theorem writeScan_maxw (x : List Int) : (s.writeScan x).maxw = .holds (BitVec.ofNat 6 (scan x).maxWidth) := by simp [State.writeScan]
@[simp] theorem writeScan_wfb (x : List Int) : (s.writeScan x).wfb = .holds (BitVec.ofNat 8 (scan x).wfb) := by simp [State.writeScan]
@[simp] theorem writeScan_capSeq (x : List Int) : (s.writeScan x).capSeq = s.capSeq := by simp [State.writeScan]
@[simp] theorem writeScan_capBuf (x : List Int) : (s.writeScan x).capBuf = s.capBuf := by simp [State.writeScan]
@[simp] theorem writeScan_seq0 (x : List Int) : (s.writeScan x).seq0 = s.seq0 := by simp [State.writeScan]
@[simp] theorem writeScan_seq1 (x : List Int) : (s.writeScan x).seq1 = s.seq1 := by simp [State.writeScan]
@[simp] theorem writeScan_seq2 (x : List Int) : (s.writeScan x).seq2 = s.seq2 := by simp [State.writeScan]
@[simp] theorem writeScan_dlt (x : List Int) : (s.writeScan x).dlt = s.dlt.setAll 0 ((scan x).deltas.map (BitVec.ofInt 33)) := by simp [State.writeScan]
@[simp] theorem writeScan_wid (x : List Int) : (s.writeScan x).wid = s.wid.setAll 0 ((scan x).widths.map (BitVec.ofNat 6)) := by simp [State.writeScan]
@[simp] theorem writeScan_buf (x : List Int) : (s.writeScan x).buf = s.buf := by simp [State.writeScan]
@[simp] theorem writeScan_schedule (x : List Int) : (s.writeScan x).schedule = s.schedule := by simp [State.writeScan]
@[simp] theorem writeScan_observed (x : List Int) : (s.writeScan x).observed = s.observed := by simp [State.writeScan]
@[simp] theorem writeScan_draws (x : List Int) : (s.writeScan x).draws = s.draws := by simp [State.writeScan]
@[simp] theorem writeScan_busy (x : List Int) : (s.writeScan x).busy = s.busy := by simp [State.writeScan]
@[simp] theorem writeScan_done (x : List Int) : (s.writeScan x).done = s.done := by simp [State.writeScan]
@[simp] theorem writeScan_err (x : List Int) : (s.writeScan x).err = s.err := by simp [State.writeScan]

/-! ### writeDecodedScratch -/

@[simp] theorem writeDecodedScratch_cmd (r : Decoded) : (s.writeDecodedScratch r).cmd = s.cmd := by simp [State.writeDecodedScratch]
@[simp] theorem writeDecodedScratch_status (r : Decoded) : (s.writeDecodedScratch r).status = s.status := by simp [State.writeDecodedScratch]
@[simp] theorem writeDecodedScratch_errcode (r : Decoded) : (s.writeDecodedScratch r).errcode = s.errcode := by simp [State.writeDecodedScratch]
@[simp] theorem writeDecodedScratch_erridx (r : Decoded) : (s.writeDecodedScratch r).erridx = s.erridx := by simp [State.writeDecodedScratch]
@[simp] theorem writeDecodedScratch_errfld (r : Decoded) : (s.writeDecodedScratch r).errfld = s.errfld := by simp [State.writeDecodedScratch]
@[simp] theorem writeDecodedScratch_flags (r : Decoded) : (s.writeDecodedScratch r).flags = s.flags := by simp [State.writeDecodedScratch]
@[simp] theorem writeDecodedScratch_argLo (r : Decoded) : (s.writeDecodedScratch r).argLo = s.argLo := by simp [State.writeDecodedScratch]
@[simp] theorem writeDecodedScratch_argHi (r : Decoded) : (s.writeDecodedScratch r).argHi = s.argHi := by simp [State.writeDecodedScratch]
@[simp] theorem writeDecodedScratch_res (r : Decoded) : (s.writeDecodedScratch r).res = s.res := by simp [State.writeDecodedScratch]
@[simp] theorem writeDecodedScratch_rows (r : Decoded) : (s.writeDecodedScratch r).rows = s.rows := by simp [State.writeDecodedScratch]
@[simp] theorem writeDecodedScratch_cols (r : Decoded) : (s.writeDecodedScratch r).cols = s.cols := by simp [State.writeDecodedScratch]
@[simp] theorem writeDecodedScratch_seqLen0 (r : Decoded) : (s.writeDecodedScratch r).seqLen0 = s.seqLen0 := by simp [State.writeDecodedScratch]
@[simp] theorem writeDecodedScratch_seqLen1 (r : Decoded) : (s.writeDecodedScratch r).seqLen1 = s.seqLen1 := by simp [State.writeDecodedScratch]
@[simp] theorem writeDecodedScratch_seqLen2 (r : Decoded) : (s.writeDecodedScratch r).seqLen2 = s.seqLen2 := by simp [State.writeDecodedScratch]
@[simp] theorem writeDecodedScratch_dltLen (r : Decoded) : (s.writeDecodedScratch r).dltLen = BitVec.ofNat 32 r.deltas.length := by simp [State.writeDecodedScratch]
@[simp] theorem writeDecodedScratch_bufLen (r : Decoded) : (s.writeDecodedScratch r).bufLen = s.bufLen := by simp [State.writeDecodedScratch]
@[simp] theorem writeDecodedScratch_maxw (r : Decoded) : (s.writeDecodedScratch r).maxw = .holds (BitVec.ofNat 6 (maxWidthOf r.widths)) := by simp [State.writeDecodedScratch]
@[simp] theorem writeDecodedScratch_wfb (r : Decoded) : (s.writeDecodedScratch r).wfb = .holds (BitVec.ofNat 8 r.wfb) := by simp [State.writeDecodedScratch]
@[simp] theorem writeDecodedScratch_capSeq (r : Decoded) : (s.writeDecodedScratch r).capSeq = s.capSeq := by simp [State.writeDecodedScratch]
@[simp] theorem writeDecodedScratch_capBuf (r : Decoded) : (s.writeDecodedScratch r).capBuf = s.capBuf := by simp [State.writeDecodedScratch]
@[simp] theorem writeDecodedScratch_seq0 (r : Decoded) : (s.writeDecodedScratch r).seq0 = s.seq0 := by simp [State.writeDecodedScratch]
@[simp] theorem writeDecodedScratch_seq1 (r : Decoded) : (s.writeDecodedScratch r).seq1 = s.seq1 := by simp [State.writeDecodedScratch]
@[simp] theorem writeDecodedScratch_seq2 (r : Decoded) : (s.writeDecodedScratch r).seq2 = s.seq2 := by simp [State.writeDecodedScratch]
@[simp] theorem writeDecodedScratch_dlt (r : Decoded) : (s.writeDecodedScratch r).dlt = s.dlt.setAll 0 (r.deltas.map (BitVec.ofInt 33)) := by simp [State.writeDecodedScratch]
@[simp] theorem writeDecodedScratch_wid (r : Decoded) : (s.writeDecodedScratch r).wid = s.wid.setAll 0 (r.widths.map (BitVec.ofNat 6)) := by simp [State.writeDecodedScratch]
@[simp] theorem writeDecodedScratch_buf (r : Decoded) : (s.writeDecodedScratch r).buf = s.buf := by simp [State.writeDecodedScratch]
@[simp] theorem writeDecodedScratch_schedule (r : Decoded) : (s.writeDecodedScratch r).schedule = s.schedule := by simp [State.writeDecodedScratch]
@[simp] theorem writeDecodedScratch_observed (r : Decoded) : (s.writeDecodedScratch r).observed = s.observed := by simp [State.writeDecodedScratch]
@[simp] theorem writeDecodedScratch_draws (r : Decoded) : (s.writeDecodedScratch r).draws = s.draws := by simp [State.writeDecodedScratch]
@[simp] theorem writeDecodedScratch_busy (r : Decoded) : (s.writeDecodedScratch r).busy = s.busy := by simp [State.writeDecodedScratch]
@[simp] theorem writeDecodedScratch_done (r : Decoded) : (s.writeDecodedScratch r).done = s.done := by simp [State.writeDecodedScratch]
@[simp] theorem writeDecodedScratch_err (r : Decoded) : (s.writeDecodedScratch r).err = s.err := by simp [State.writeDecodedScratch]

/-! ### writeDims -/

@[simp] theorem writeDims_cmd (r c : Nat) : (s.writeDims r c).cmd = s.cmd := rfl
@[simp] theorem writeDims_status (r c : Nat) : (s.writeDims r c).status = s.status := rfl
@[simp] theorem writeDims_errcode (r c : Nat) : (s.writeDims r c).errcode = s.errcode := rfl
@[simp] theorem writeDims_erridx (r c : Nat) : (s.writeDims r c).erridx = s.erridx := rfl
@[simp] theorem writeDims_errfld (r c : Nat) : (s.writeDims r c).errfld = s.errfld := rfl
@[simp] theorem writeDims_flags (r c : Nat) : (s.writeDims r c).flags = s.flags := rfl
@[simp] theorem writeDims_argLo (r c : Nat) : (s.writeDims r c).argLo = s.argLo := rfl
@[simp] theorem writeDims_argHi (r c : Nat) : (s.writeDims r c).argHi = s.argHi := rfl
@[simp] theorem writeDims_res (r c : Nat) : (s.writeDims r c).res = s.res := rfl
@[simp] theorem writeDims_rows (r c : Nat) : (s.writeDims r c).rows = .holds (BitVec.ofNat 32 r) := rfl
@[simp] theorem writeDims_cols (r c : Nat) : (s.writeDims r c).cols = .holds (BitVec.ofNat 32 c) := rfl
@[simp] theorem writeDims_seqLen0 (r c : Nat) : (s.writeDims r c).seqLen0 = s.seqLen0 := rfl
@[simp] theorem writeDims_seqLen1 (r c : Nat) : (s.writeDims r c).seqLen1 = s.seqLen1 := rfl
@[simp] theorem writeDims_seqLen2 (r c : Nat) : (s.writeDims r c).seqLen2 = s.seqLen2 := rfl
@[simp] theorem writeDims_dltLen (r c : Nat) : (s.writeDims r c).dltLen = s.dltLen := rfl
@[simp] theorem writeDims_bufLen (r c : Nat) : (s.writeDims r c).bufLen = s.bufLen := rfl
@[simp] theorem writeDims_maxw (r c : Nat) : (s.writeDims r c).maxw = s.maxw := rfl
@[simp] theorem writeDims_wfb (r c : Nat) : (s.writeDims r c).wfb = s.wfb := rfl
@[simp] theorem writeDims_capSeq (r c : Nat) : (s.writeDims r c).capSeq = s.capSeq := rfl
@[simp] theorem writeDims_capBuf (r c : Nat) : (s.writeDims r c).capBuf = s.capBuf := rfl
@[simp] theorem writeDims_seq0 (r c : Nat) : (s.writeDims r c).seq0 = s.seq0 := rfl
@[simp] theorem writeDims_seq1 (r c : Nat) : (s.writeDims r c).seq1 = s.seq1 := rfl
@[simp] theorem writeDims_seq2 (r c : Nat) : (s.writeDims r c).seq2 = s.seq2 := rfl
@[simp] theorem writeDims_dlt (r c : Nat) : (s.writeDims r c).dlt = s.dlt := rfl
@[simp] theorem writeDims_wid (r c : Nat) : (s.writeDims r c).wid = s.wid := rfl
@[simp] theorem writeDims_buf (r c : Nat) : (s.writeDims r c).buf = s.buf := rfl
@[simp] theorem writeDims_schedule (r c : Nat) : (s.writeDims r c).schedule = s.schedule := rfl
@[simp] theorem writeDims_observed (r c : Nat) : (s.writeDims r c).observed = s.observed := rfl
@[simp] theorem writeDims_draws (r c : Nat) : (s.writeDims r c).draws = s.draws := rfl
@[simp] theorem writeDims_busy (r c : Nat) : (s.writeDims r c).busy = s.busy := rfl
@[simp] theorem writeDims_done (r c : Nat) : (s.writeDims r c).done = s.done := rfl
@[simp] theorem writeDims_err (r c : Nat) : (s.writeDims r c).err = s.err := rfl

/-! ### writeParsed -/

@[simp] theorem writeParsed_cmd (p : Parsed) : (s.writeParsed p).cmd = s.cmd := by simp [State.writeParsed]
@[simp] theorem writeParsed_status (p : Parsed) : (s.writeParsed p).status = s.status := by simp [State.writeParsed]
@[simp] theorem writeParsed_errcode (p : Parsed) : (s.writeParsed p).errcode = s.errcode := by simp [State.writeParsed]
@[simp] theorem writeParsed_erridx (p : Parsed) : (s.writeParsed p).erridx = s.erridx := by simp [State.writeParsed]
@[simp] theorem writeParsed_errfld (p : Parsed) : (s.writeParsed p).errfld = s.errfld := by simp [State.writeParsed]
@[simp] theorem writeParsed_flags (p : Parsed) : (s.writeParsed p).flags = s.flags := by simp [State.writeParsed]
@[simp] theorem writeParsed_argLo (p : Parsed) : (s.writeParsed p).argLo = s.argLo := by simp [State.writeParsed]
@[simp] theorem writeParsed_argHi (p : Parsed) : (s.writeParsed p).argHi = s.argHi := by simp [State.writeParsed]
@[simp] theorem writeParsed_res (p : Parsed) : (s.writeParsed p).res = s.res := by simp [State.writeParsed]
@[simp] theorem writeParsed_rows (p : Parsed) : (s.writeParsed p).rows = .holds (BitVec.ofNat 32 p.rows) := by simp [State.writeParsed]
@[simp] theorem writeParsed_cols (p : Parsed) : (s.writeParsed p).cols = .holds (BitVec.ofNat 32 p.cols) := by simp [State.writeParsed]
@[simp] theorem writeParsed_seqLen0 (p : Parsed) : (s.writeParsed p).seqLen0 = BitVec.ofNat 32 p.indptr.values.length := by simp [State.writeParsed]
@[simp] theorem writeParsed_seqLen1 (p : Parsed) : (s.writeParsed p).seqLen1 = BitVec.ofNat 32 p.indices.values.length := by simp [State.writeParsed]
@[simp] theorem writeParsed_seqLen2 (p : Parsed) : (s.writeParsed p).seqLen2 = BitVec.ofNat 32 p.data.values.length := by simp [State.writeParsed]
@[simp] theorem writeParsed_dltLen (p : Parsed) : (s.writeParsed p).dltLen = BitVec.ofNat 32 p.data.deltas.length := by simp [State.writeParsed]
@[simp] theorem writeParsed_bufLen (p : Parsed) : (s.writeParsed p).bufLen = s.bufLen := by simp [State.writeParsed]
@[simp] theorem writeParsed_maxw (p : Parsed) : (s.writeParsed p).maxw = .holds (BitVec.ofNat 6 (maxWidthOf p.data.widths)) := by simp [State.writeParsed]
@[simp] theorem writeParsed_wfb (p : Parsed) : (s.writeParsed p).wfb = .holds (BitVec.ofNat 8 p.data.wfb) := by simp [State.writeParsed]
@[simp] theorem writeParsed_capSeq (p : Parsed) : (s.writeParsed p).capSeq = s.capSeq := by simp [State.writeParsed]
@[simp] theorem writeParsed_capBuf (p : Parsed) : (s.writeParsed p).capBuf = s.capBuf := by simp [State.writeParsed]
@[simp] theorem writeParsed_seq0 (p : Parsed) : (s.writeParsed p).seq0 = s.seq0.setAll 0 (p.indptr.values.map (BitVec.ofInt 32)) := by simp [State.writeParsed]
@[simp] theorem writeParsed_seq1 (p : Parsed) : (s.writeParsed p).seq1 = s.seq1.setAll 0 (p.indices.values.map (BitVec.ofInt 32)) := by simp [State.writeParsed]
@[simp] theorem writeParsed_seq2 (p : Parsed) : (s.writeParsed p).seq2 = s.seq2.setAll 0 (p.data.values.map (BitVec.ofInt 32)) := by simp [State.writeParsed]
@[simp] theorem writeParsed_dlt (p : Parsed) : (s.writeParsed p).dlt = s.dlt.setAll 0 (p.data.deltas.map (BitVec.ofInt 33)) := by simp [State.writeParsed]
@[simp] theorem writeParsed_wid (p : Parsed) : (s.writeParsed p).wid = s.wid.setAll 0 (p.data.widths.map (BitVec.ofNat 6)) := by simp [State.writeParsed]
@[simp] theorem writeParsed_buf (p : Parsed) : (s.writeParsed p).buf = s.buf := by simp [State.writeParsed]
@[simp] theorem writeParsed_schedule (p : Parsed) : (s.writeParsed p).schedule = s.schedule := by simp [State.writeParsed]
@[simp] theorem writeParsed_observed (p : Parsed) : (s.writeParsed p).observed = s.observed := by simp [State.writeParsed]
@[simp] theorem writeParsed_draws (p : Parsed) : (s.writeParsed p).draws = s.draws := by simp [State.writeParsed]
@[simp] theorem writeParsed_busy (p : Parsed) : (s.writeParsed p).busy = s.busy := by simp [State.writeParsed]
@[simp] theorem writeParsed_done (p : Parsed) : (s.writeParsed p).done = s.done := by simp [State.writeParsed]
@[simp] theorem writeParsed_err (p : Parsed) : (s.writeParsed p).err = s.err := by simp [State.writeParsed]

@[simp] theorem writeScan_seqLen (x : List Int) (b : Bank) : (s.writeScan x).seqLen b = s.seqLen b := by cases b <;> simp [State.seqLen]
@[simp] theorem writeScan_seq (x : List Int) (b : Bank) : (s.writeScan x).seq b = s.seq b := by cases b <;> simp [State.seq]
@[simp] theorem writeDecodedScratch_seqLen (r : Decoded) (b : Bank) : (s.writeDecodedScratch r).seqLen b = s.seqLen b := by cases b <;> simp [State.seqLen]
@[simp] theorem writeDecodedScratch_seq (r : Decoded) (b : Bank) : (s.writeDecodedScratch r).seq b = s.seq b := by cases b <;> simp [State.seq]
@[simp] theorem writeDims_seqLen (r c : Nat) (b : Bank) : (s.writeDims r c).seqLen b = s.seqLen b := by cases b <;> simp [State.seqLen]
@[simp] theorem writeDims_seq (r c : Nat) (b : Bank) : (s.writeDims r c).seq b = s.seq b := by cases b <;> simp [State.seq]

@[simp] theorem setSeqLen_seq (b c : Bank) (n : Word) : (s.setSeqLen b n).seq c = s.seq c := by cases b <;> cases c <;> rfl
@[simp] theorem setSeq_seqLen (b c : Bank) (m : Memory 32) : (s.setSeq b m).seqLen c = s.seqLen c := by
  cases b <;> cases c <;> rfl
theorem setSeqLen_seqLen (b c : Bank) (n : Word) : (s.setSeqLen b n).seqLen c = if c = b then n else s.seqLen c := by
  cases b <;> cases c <;> rfl
theorem setSeq_seq (b c : Bank) (m : Memory 32) : (s.setSeq b m).seq c = if c = b then m else s.seq c := by
  cases b <;> cases c <;> rfl
@[simp] theorem setSeqLen_seqLen_self (b : Bank) (n : Word) : (s.setSeqLen b n).seqLen b = n := by cases b <;> rfl
@[simp] theorem setSeq_seq_self (b : Bank) (m : Memory 32) : (s.setSeq b m).seq b = m := by cases b <;> rfl

end Sys2Proof.Laws
end

