-- ==== Sys2Proof/Laws/Exceptions.lean ====
section
/-! SUPPORT. What taking an exception does, field by field (60_exceptions.md R182, R183): the registers that record it, what
its destinations lose, and what no exception touches. -/

namespace Sys2Proof.Laws

open Sys2Proof Sys2Proof.Machine

variable (s : State) (ds : List Dest) (e : Exc)

/-- A property of the state that no group of `ds` breaks holds after the groups are invalidated. -/
theorem invalidate_induct {P : State → Prop} (h : ∀ d ∈ ds, ∀ u, P u → P (invalidateOne u d)) (hs : P s) : P (invalidate ds s) := by
  induction ds generalizing s with
  | nil => exact hs
  | cons d ds ih =>
    exact ih (invalidateOne s d) (fun d' hd => h d' (List.mem_cons_of_mem _ hd)) (h d List.mem_cons_self s hs)

/-- A field that no group writes is unchanged by invalidation. -/
theorem invalidate_field {α : Type} (f : State → α) (h : ∀ d ∈ ds, ∀ u, f (invalidateOne u d) = f u) :
    f (invalidate ds s) = f s :=
  invalidate_induct s ds (P := fun u => f u = f s) (fun d hd u hu => (h d hd u).trans hu) rfl

/-! ### What an exception records -/

@[simp] theorem takeException_errcode : (takeException ds e s).errcode = causeCode e.cause := rfl
@[simp] theorem takeException_erridx : (takeException ds e s).erridx = BitVec.ofNat 32 e.idx := rfl
@[simp] theorem takeException_errfld : (takeException ds e s).errfld = BitVec.ofNat 2 e.fld := rfl
@[simp] theorem takeException_flags : (takeException ds e s).flags = flagsOf (ovfAfter e.cause) := rfl
@[simp] theorem takeException_status : (takeException ds e s).status = statusOf false true true := rfl
@[simp] theorem takeException_busy : (takeException ds e s).busy = false := by simp [takeException]
@[simp] theorem takeException_done : (takeException ds e s).done = true := by simp [takeException]
@[simp] theorem takeException_err : (takeException ds e s).err = true := by simp [takeException]

/-! ### What no exception touches -/

@[simp] theorem takeException_cmd : (takeException ds e s).cmd = s.cmd :=
  invalidate_field s ds State.cmd fun d _ u => by cases d <;> simp [invalidateOne]
@[simp] theorem takeException_argLo : (takeException ds e s).argLo = s.argLo :=
  invalidate_field s ds State.argLo fun d _ u => by cases d <;> simp [invalidateOne]
@[simp] theorem takeException_argHi : (takeException ds e s).argHi = s.argHi :=
  invalidate_field s ds State.argHi fun d _ u => by cases d <;> simp [invalidateOne]
@[simp] theorem takeException_res : (takeException ds e s).res = s.res :=
  invalidate_field s ds State.res fun d _ u => by cases d <;> simp [invalidateOne]
@[simp] theorem takeException_capSeq : (takeException ds e s).capSeq = s.capSeq :=
  invalidate_field s ds State.capSeq fun d _ u => by cases d <;> simp [invalidateOne]
@[simp] theorem takeException_capBuf : (takeException ds e s).capBuf = s.capBuf :=
  invalidate_field s ds State.capBuf fun d _ u => by cases d <;> simp [invalidateOne]
@[simp] theorem takeException_schedule : (takeException ds e s).schedule = s.schedule :=
  invalidate_field s ds State.schedule fun d _ u => by cases d <;> simp [invalidateOne]
@[simp] theorem takeException_observed : (takeException ds e s).observed = s.observed :=
  invalidate_field s ds State.observed fun d _ u => by cases d <;> simp [invalidateOne]
@[simp] theorem takeException_draws : (takeException ds e s).draws = s.draws :=
  invalidate_field s ds State.draws fun d _ u => by cases d <;> simp [invalidateOne]

/-! ### What a group not among the destinations keeps -/

variable {ds}

theorem takeException_scratch (h : .scratch ∉ ds) :
    (takeException ds e s).dltLen = s.dltLen ∧ (takeException ds e s).dlt = s.dlt ∧ (takeException ds e s).wid = s.wid ∧
      (takeException ds e s).maxw = s.maxw ∧ (takeException ds e s).wfb = s.wfb := by
  refine ⟨?_, ?_, ?_, ?_, ?_⟩
  · exact invalidate_field s ds State.dltLen fun d hd u => by cases d <;> simp_all [invalidateOne]
  · exact invalidate_field s ds State.dlt fun d hd u => by cases d <;> simp_all [invalidateOne]
  · exact invalidate_field s ds State.wid fun d hd u => by cases d <;> simp_all [invalidateOne]
  · exact invalidate_field s ds State.maxw fun d hd u => by cases d <;> simp_all [invalidateOne]
  · exact invalidate_field s ds State.wfb fun d hd u => by cases d <;> simp_all [invalidateOne]

theorem takeException_buf (h : .buf ∉ ds) :
    (takeException ds e s).bufLen = s.bufLen ∧ (takeException ds e s).buf = s.buf := by
  refine ⟨?_, ?_⟩
  · exact invalidate_field s ds State.bufLen fun d hd u => by cases d <;> simp_all [invalidateOne]
  · exact invalidate_field s ds State.buf fun d hd u => by cases d <;> simp_all [invalidateOne]

theorem takeException_dims (h : .dims ∉ ds) :
    (takeException ds e s).rows = s.rows ∧ (takeException ds e s).cols = s.cols := by
  refine ⟨?_, ?_⟩
  · exact invalidate_field s ds State.rows fun d hd u => by cases d <;> simp_all [invalidateOne]
  · exact invalidate_field s ds State.cols fun d hd u => by cases d <;> simp_all [invalidateOne]

theorem takeException_bank (b : Bank) (h : .bank b ∉ ds) :
    (takeException ds e s).seqLen b = s.seqLen b ∧ (takeException ds e s).seq b = s.seq b := by
  refine ⟨?_, ?_⟩
  · exact invalidate_field s ds (fun u => u.seqLen b) fun d hd u => by
      cases d with
      | bank c => cases b <;> cases c <;> first | rfl | exact absurd hd h
      | _ => cases b <;> rfl
  · exact invalidate_field s ds (fun u => u.seq b) fun d hd u => by
      cases d with
      | bank c => cases b <;> cases c <;> first | rfl | exact absurd hd h
      | _ => cases b <;> rfl

end Sys2Proof.Laws
end

