-- ==== Sys2Proof/Laws/Commands.lean ====
section
/-! SUPPORT. What each command can do, once: it completes with the results its rule names, or it takes one of its exceptions;
and what running a command or serving an event can do. Later proofs cite these and unfold no meaning. -/

namespace Sys2Proof.Laws

open Sys2Proof Sys2Proof.Machine

variable (s : State) (b : Bank)

theorem bankOf_cases (f : BitVec 2) :
    (f = 0#2 ∧ bankOf f = some .b0) ∨ (f = 1#2 ∧ bankOf f = some .b1) ∨ (f = 2#2 ∧ bankOf f = some .b2) ∨
      (f = 3#2 ∧ bankOf f = none) := by
  revert f; decide

/-- A BANK field that names a bank is a legal one (R63, R64). -/
theorem bankOf_isSome {f : BitVec 2} {c : Bank} (h : bankOf f = some c) : bankFieldOk f = true ∧ f = BitVec.ofNat 2 (bankNumber c) := by
  rcases bankOf_cases f with ⟨rfl, h'⟩ | ⟨rfl, h'⟩ | ⟨rfl, h'⟩ | ⟨rfl, h'⟩ <;> rw [h'] at h <;> cases h <;> decide

/-! ### Dispatch -/

theorem exec_bwc : exec .bwc s =
    .next ((({ s with res := BitVec.ofNat 6 (bw s.argument.toInt).1 }).setOvf (bw s.argument.toInt).2).complete) := rfl

theorem exec_denc {f : BitVec 2} {c : Bank} (h : bankOf f = some c) : exec (.denc f) s = .next (dencBank c s) := by
  simp only [exec, execDenc, h]

theorem exec_venc {f : BitVec 2} {c : Bank} (h : bankOf f = some c) : exec (.venc f) s = .next (vencBank c s) := by
  simp only [exec, execVenc, h]

theorem exec_vdec {f : BitVec 2} {c : Bank} (h : bankOf f = some c) : exec (.vdec f) s = .next (vdecBank c s) := by
  simp only [exec, execVdec, h]

theorem exec_ddec {f : BitVec 2} {c : Bank} (h : bankOf f = some c) : exec (.ddec f) s = .next (ddecBank c s) := by
  simp only [exec, execDdec, h]

/-- A bank command whose field names no bank raises IllegalCommand (R64). -/
theorem exec_no_bank {f : BitVec 2} {i : Instr} (h : bankOf f = none) (hi : i = .denc f ∨ i = .venc f ∨ i = .vdec f ∨ i = .ddec f) :
    exec i s = .next (raiseIllegal s) := by
  rcases hi with rfl | rfl | rfl | rfl
  · simp only [exec, execDenc, h]
  · simp only [exec, execVenc, h]
  · simp only [exec, execVdec, h]
  · simp only [exec, execDdec, h]

/-! ### The two outcomes of each command -/

/-- DENC (R103). -/
theorem dencBank_cases :
    (s.capSeq.toNat < (s.seqLen b).toNat ∧ dencBank b s = takeException destsDenc ⟨.capSrcLen, 0, bankNumber b⟩ s) ∨
    ((s.seqLen b).toNat ≤ s.capSeq.toNat ∧ dencBank b s = (s.writeScan (s.source b)).complete) := by
  simp only [dencBank, overLong, decide_eq_true_eq]
  split_ifs with h
  · exact .inl ⟨h, rfl⟩
  · exact .inr ⟨not_lt.1 h, rfl⟩

/-- VENC (R118). -/
theorem vencBank_cases :
    (s.capSeq.toNat < (s.seqLen b).toNat ∧ vencBank b s = takeException destsVenc ⟨.capSrcLen, 0, bankNumber b⟩ s) ∨
    ((s.seqLen b).toNat ≤ s.capSeq.toNat ∧ scanOvf (scan (s.source b)) = true ∧
      vencBank b s = takeException destsVenc ⟨.rngEncDelta, firstOvf (scan (s.source b)), bankNumber b⟩ s) ∨
    ((s.seqLen b).toNat ≤ s.capSeq.toNat ∧ scanOvf (scan (s.source b)) = false ∧
      s.capBuf.toNat < streamLength (scan (s.source b)) ∧
      vencBank b s = takeException destsVenc ⟨.capBuf, 0, bankNumber b⟩ s) ∨
    ((s.seqLen b).toNat ≤ s.capSeq.toNat ∧ scanOvf (scan (s.source b)) = false ∧
      streamLength (scan (s.source b)) ≤ s.capBuf.toNat ∧
      vencBank b s = ((s.writeScan (s.source b)).writeBuf (vldStream (s.source b))).complete) := by
  simp only [vencBank, overLong, decide_eq_true_eq]
  split_ifs with h h1 h2
  · exact .inl ⟨h, rfl⟩
  · exact .inr (.inl ⟨not_lt.1 h, h1, rfl⟩)
  · exact .inr (.inr (.inl ⟨not_lt.1 h, by simpa using h1, h2, rfl⟩))
  · exact .inr (.inr (.inr ⟨not_lt.1 h, by simpa using h1, not_lt.1 h2, rfl⟩))

/-- VDEC (R136). -/
theorem vdecBank_cases :
    (s.capBuf.toNat < s.bufLen.toNat ∧ vdecBank b s = takeException (destsVdec b) ⟨.capSrcLen, 0, bankNumber b⟩ s) ∨
    (s.bufLen.toNat ≤ s.capBuf.toNat ∧ ∃ e, vldDecodeCap (some s.capSeq.toNat) s.bufSource = .error e ∧
      vdecBank b s = takeException (destsVdec b) (e.at (bankNumber b)) s) ∨
    (s.bufLen.toNat ≤ s.capBuf.toNat ∧ ∃ r, vldDecodeCap (some s.capSeq.toNat) s.bufSource = .ok r ∧
      vdecBank b s = ((s.writeBank b r.values).writeDecodedScratch r).complete) := by
  simp only [vdecBank, overLong, decide_eq_true_eq]
  split_ifs with h
  · exact .inl ⟨h, rfl⟩
  · cases hr : vldDecodeCap (some s.capSeq.toNat) s.bufSource with
    | error e => exact .inr (.inl ⟨not_lt.1 h, e, rfl, rfl⟩)
    | ok r => exact .inr (.inr ⟨not_lt.1 h, r, rfl, rfl⟩)

/-- DDEC (R142). -/
theorem ddecBank_cases :
    (s.capSeq.toNat < s.dltLen.toNat ∧ ddecBank b s = takeException (destsDdec b) ⟨.capSrcLen, 0, bankNumber b⟩ s) ∨
    (s.dltLen.toNat ≤ s.capSeq.toNat ∧ ∃ e, undelta s.deltaSource = .error e ∧
      ddecBank b s = takeException (destsDdec b) (e.at (bankNumber b)) s) ∨
    (s.dltLen.toNat ≤ s.capSeq.toNat ∧ ∃ xs, undelta s.deltaSource = .ok xs ∧ ddecBank b s = (s.writeBank b xs).complete) := by
  simp only [ddecBank, overLong, decide_eq_true_eq]
  split_ifs with h
  · exact .inl ⟨h, rfl⟩
  · cases hr : undelta s.deltaSource with
    | error e => exact .inr (.inl ⟨not_lt.1 h, e, rfl, rfl⟩)
    | ok xs => exact .inr (.inr ⟨not_lt.1 h, xs, rfl, rfl⟩)

/-- BASM (R152). -/
theorem execBasm_cases :
    (∃ c, basmOverLong s = some c ∧ exec .basm s = .next (takeException destsBasm ⟨.capSrcLen, 0, bankNumber c⟩ s)) ∨
    (basmOverLong s = none ∧ ∃ c, basmOutOfRange s = some c ∧
      exec .basm s = .next (takeException destsBasm ⟨.rngEncDelta, firstOvf (scan (s.source c)), bankNumber c⟩ s)) ∨
    (basmOverLong s = none ∧ basmOutOfRange s = none ∧ s.capBuf.toNat < basmLength s ∧
      exec .basm s = .next (takeException destsBasm ⟨.capBuf, 0, 0⟩ s)) ∨
    (basmOverLong s = none ∧ basmOutOfRange s = none ∧ basmLength s ≤ s.capBuf.toNat ∧
      exec .basm s = .next (((s.writeBuf (basmBlob s)).writeScan (s.source .b2)).complete)) := by
  simp only [exec, execBasm]
  cases h : basmOverLong s with
  | some c => exact .inl ⟨c, rfl, rfl⟩
  | none =>
    cases h1 : basmOutOfRange s with
    | some c => exact .inr (.inl ⟨rfl, c, rfl, rfl⟩)
    | none =>
      simp only
      split_ifs with h2
      · exact .inr (.inr (.inl ⟨trivial, trivial, h2, rfl⟩))
      · exact .inr (.inr (.inr ⟨trivial, trivial, not_lt.1 h2, rfl⟩))

/-- BPAR (R162). -/
theorem execBpar_cases :
    (s.capBuf.toNat < s.bufLen.toNat ∧ exec .bpar s = .next (takeException destsBpar ⟨.capSrcLen, 0, 0⟩ s)) ∨
    (s.bufLen.toNat ≤ s.capBuf.toNat ∧ ∃ e, blobParseCap (some s.capSeq.toNat) s.bufSource = .error e ∧
      exec .bpar s = .next (takeException destsBpar e s)) ∨
    (s.bufLen.toNat ≤ s.capBuf.toNat ∧ ∃ p, blobParseCap (some s.capSeq.toNat) s.bufSource = .ok p ∧
      exec .bpar s = .next ((s.writeParsed p).complete)) := by
  simp only [exec, execBpar, overLong, decide_eq_true_eq]
  split_ifs with h
  · exact .inl ⟨h, rfl⟩
  · cases hr : blobParseCap (some s.capSeq.toNat) s.bufSource with
    | error e => exact .inr (.inl ⟨not_lt.1 h, e, rfl, rfl⟩)
    | ok p => exact .inr (.inr ⟨not_lt.1 h, p, rfl, rfl⟩)

end Sys2Proof.Laws
end

