-- ==== Sys2Proof/Laws/Width.lean ====
section
/-! SUPPORT. What bit lengths, ceiling logarithms and largest widths are: the characterisations the calculator, the scan and the
encoder rest on (00_scope.md section 5, R5, R71, R102). -/

namespace Sys2Proof.Laws

open Sys2Proof Sys2Proof.Machine

/-- `bitlen(x)` is the least `k` with `x < 2^k`. -/
theorem bitlen_spec (x : Nat) : x < 2 ^ bitlen x ∧ ∀ m, m < bitlen x → 2 ^ m ≤ x := by
  unfold bitlen
  cases h : findLeast (fun k => decide (x < 2 ^ k)) (x + 1) 0 with
  | some b =>
    obtain ⟨h1, _, _, h4⟩ := findLeast_some h
    exact ⟨by simpa using h1, fun m hm => by simpa using h4 m (by omega) (by simpa using hm)⟩
  | none =>
    have h' := findLeast_none h x (by omega) (by omega)
    simp only [decide_eq_false_iff_not] at h'
    exact absurd Nat.lt_two_pow_self h'

theorem bitlen_unique {x k : Nat} (h1 : x < 2 ^ k) (h2 : ∀ m, m < k → 2 ^ m ≤ x) : bitlen x = k := by
  obtain ⟨a, b⟩ := bitlen_spec x
  rcases lt_trichotomy (bitlen x) k with h | h | h
  · exact absurd (h2 _ h) (by omega)
  · exact h
  · exact absurd (b _ h) (by omega)

/-- `clog2(m)` is the least `k` with `m ≤ 2^k` (R5). -/
theorem clog2_spec (x : Nat) : x ≤ 2 ^ clog2 x ∧ ∀ m, m < clog2 x → 2 ^ m < x := by
  unfold clog2
  cases h : findLeast (fun k => decide (x ≤ 2 ^ k)) (x + 1) 0 with
  | some b =>
    obtain ⟨h1, _, _, h4⟩ := findLeast_some h
    exact ⟨by simpa using h1, fun m hm => by simpa using h4 m (by omega) (by simpa using hm)⟩
  | none =>
    have h' := findLeast_none h x (by omega) (by omega)
    simp only [decide_eq_false_iff_not] at h'
    exact absurd Nat.lt_two_pow_self.le h'

/-- The two cases of `wfb_of` are one formula (R71). -/
theorem wfbOf_eq (m : Nat) : wfbOf m = clog2 m := by
  unfold wfbOf
  split_ifs with h
  · subst h; decide
  · rfl

theorem wfbOf_le {m : Nat} (h : m ≤ 32) : wfbOf m ≤ 5 := by
  rw [wfbOf_eq]
  by_contra hc
  exact absurd ((clog2_spec m).2 5 (by omega)) (by omega)

theorem foldl_max_spec (ws : List Nat) (a : Nat) :
    a ≤ ws.foldl max a ∧ (∀ w ∈ ws, w ≤ ws.foldl max a) ∧ (ws.foldl max a = a ∨ ws.foldl max a ∈ ws) := by
  induction ws generalizing a with
  | nil => simp
  | cons b t ih =>
    obtain ⟨h1, h2, h3⟩ := ih (max a b)
    rw [List.foldl_cons]
    refine ⟨(le_max_left _ _).trans h1, ?_, ?_⟩
    · intro w hw
      rcases List.mem_cons.1 hw with rfl | h
      · exact (le_max_right _ _).trans h1
      · exact h2 w h
    · rcases h3 with h3 | h3
      · rcases max_choice a b with h | h
        · exact .inl (h3.trans h)
        · exact .inr (List.mem_cons.2 (.inl (h3.trans h)))
      · exact .inr (List.mem_cons_of_mem _ h3)

/-- The largest width, at least 1 (R102, R136). -/
theorem maxWidthOf_spec (ws : List Nat) :
    1 ≤ maxWidthOf ws ∧ (∀ w ∈ ws, w ≤ maxWidthOf ws) ∧ (maxWidthOf ws = 1 ∨ maxWidthOf ws ∈ ws) := foldl_max_spec ws 1

/-- Every width of the calculator is in `1 .. 32` (R91). -/
theorem width_range (d : Int) : 1 ≤ width d ∧ width d ≤ 32 := by
  unfold width bw
  cases h : findLeast (fitsWidth d) 32 1 with
  | some b =>
    obtain ⟨_, h2, h3, _⟩ := findLeast_some h
    exact ⟨h2, by simp only; omega⟩
  | none => decide

/-! ### The scan -/

@[simp] theorem length_delta (x : List Int) : (delta x).length = x.length := by cases x <;> simp [delta]

theorem scan_deltas (x : List Int) : (scan x).deltas = delta x := rfl

theorem scan_widths (x : List Int) : (scan x).widths = (delta x).map width := rfl

theorem scan_wfb (x : List Int) : (scan x).wfb = wfbOf (maxWidthOf ((delta x).map width)) := rfl

theorem scan_maxWidth_le (x : List Int) : (scan x).maxWidth ≤ 32 := by
  rcases (maxWidthOf_spec (scan x).widths).2.2 with h | h
  · exact (h.trans_le (by omega))
  · obtain ⟨d, _, hd⟩ := List.mem_map.1 h
    exact (hd.symm.trans_le (width_range d).2 : maxWidthOf (scan x).widths ≤ 32)

theorem scan_wfb_le (x : List Int) : (scan x).wfb ≤ 5 := wfbOf_le (scan_maxWidth_le x)

/-- Every width of the scan has a code of `wfb` bits (R71, R115). -/
theorem width_le_two_pow_wfb (x : List Int) : ∀ d ∈ delta x, width d ≤ 2 ^ (scan x).wfb := by
  intro d hd
  rw [scan_wfb, wfbOf_eq]
  exact ((maxWidthOf_spec ((delta x).map width)).2.1 _ (List.mem_map_of_mem hd)).trans (clog2_spec _).1

/-! ### The running sum -/

/-- One step of the running sum that succeeds (R140). -/
theorem undeltaFrom_cons {i : Nat} {prev d : Int} {t xs : List Int} (h : undeltaFrom i prev (d :: t) = .ok xs) :
    ∃ v ys, v = (if i = 0 then d else prev + d) ∧ InInt32 v ∧ undeltaFrom (i + 1) v t = .ok ys ∧ xs = v :: ys := by
  simp only [undeltaFrom] at h
  generalize (if i = 0 then d else prev + d) = v at h
  split_ifs at h with hv
  cases hr : undeltaFrom (i + 1) v t with
  | error e => rw [hr] at h; cases h
  | ok ys => rw [hr] at h; cases h; exact ⟨v, ys, rfl, hv, hr, rfl⟩

/-- A running sum has as many elements as deltas (R140). -/
theorem undelta_length {d xs : List Int} (h : undelta d = .ok xs) : xs.length = d.length := by
  have gen : ∀ (d : List Int) {i : Nat} {p : Int} {xs : List Int}, undeltaFrom i p d = .ok xs → xs.length = d.length := by
    intro d
    induction d with
    | nil => intro i p xs h; cases h; rfl
    | cons a t ih =>
      intro i p xs h
      obtain ⟨v, ys, _, _, hr, rfl⟩ := undeltaFrom_cons h
      rw [List.length_cons, List.length_cons, ih hr]
  exact gen d h

/-- A running sum fails with RNG_DEC_ACC and nothing else (R141). -/
theorem undelta_error {d : List Int} {e : Failure} (h : undelta d = .error e) : e.cause = .rngDecAcc := by
  have gen : ∀ (d : List Int) {i : Nat} {p : Int} {e : Failure}, undeltaFrom i p d = .error e → e.cause = .rngDecAcc := by
    intro d
    induction d with
    | nil => intro i p e h; cases h
    | cons a t ih =>
      intro i p e h
      simp only [undeltaFrom] at h
      generalize (if i = 0 then a else p + a) = v at h
      split_ifs at h
      · cases hr : undeltaFrom (i + 1) v t with
        | ok ys => rw [hr] at h; cases h
        | error f => rw [hr] at h; cases h; exact ih hr
      · cases h; rfl
  exact gen d h

end Sys2Proof.Laws
end

