-- ==== Sys2Proof/Laws/Stream.lean ====
section
/-! SUPPORT. What the stream and blob functions can do: lengths of what the encoder emits, one decoded element, the header, one
field of a blob, and the causes they fail with (R65 to R75, R125 to R137, R154 to R161). -/

namespace Sys2Proof.Laws

open Sys2Proof Sys2Proof.Machine

/-! ### Encoding -/

theorem length_emitElement (wfb : Nat) (d : Int) (w : Nat) : (emitElement wfb d w).length = wfb + w := by
  unfold emitElement
  split_ifs with h
  · simp
  · simp; omega

theorem length_streamBits (x : List Int) :
    (streamBits x.length (scan x)).length = 40 + ((scan x).widths.map (fun w => (scan x).wfb + w)).sum := by
  have gen : ∀ (wfb : Nat) (ds : List Int),
      (List.zipWith (emitElement wfb) ds (ds.map width)).flatten.length = ((ds.map width).map (fun w => wfb + w)).sum := by
    intro wfb ds
    induction ds with
    | nil => rfl
    | cons d t ih =>
      rw [List.map_cons, List.zipWith_cons_cons, List.flatten_cons, List.length_append, length_emitElement, ih,
        List.map_cons, List.sum_cons]
  rw [streamBits, List.length_append, List.length_append, length_ubits, length_ubits, scan_deltas, scan_widths, gen]

/-- The stream has the length known after pass 1 (R70, R116). -/
theorem length_vldStream (x : List Int) : (vldStream x).length = streamLength (scan x) := by
  rw [vldStream, length_bytesOf_pad, length_streamBits]
  rfl

theorem bitsOf_vldStream (x : List Int) : bitsOf (vldStream x) = pad (streamBits x.length (scan x)) := bitsOf_bytesOf_pad _

/-! ### Decoding one element -/

theorem takeWidth_none {wfb : Nat} {bits : List Bool} : takeWidth wfb bits = none ↔ bits.length < wfb := by
  unfold takeWidth
  split_ifs with h
  · rw [Option.map_eq_none_iff, takeBits_none]
  · simp; omega

/-- The width of an element: `wfb` bits are used, it is in `1 .. 2^wfb`, and no other bit matters (R129). -/
theorem takeWidth_some {wfb : Nat} {bits : List Bool} {r : Nat × List Bool} (h : takeWidth wfb bits = some r) :
    wfb ≤ bits.length ∧ 1 ≤ r.1 ∧ r.1 ≤ 2 ^ wfb ∧ r.2 = bits.drop wfb ∧
      ∀ bits', wfb ≤ bits'.length → bits'.take wfb = bits.take wfb → takeWidth wfb bits' = some (r.1, bits'.drop wfb) := by
  unfold takeWidth at h
  split_ifs at h with h0
  · obtain ⟨q, hq, rfl⟩ := Option.map_eq_some_iff.1 h
    have hlt := takeBits_value_lt hq
    obtain ⟨h1, rfl⟩ := takeBits_some hq
    refine ⟨h1, by simp, by simpa using hlt, rfl, fun bits' hb ht => ?_⟩
    simp [takeWidth, h0, takeBits, not_lt.2 hb, ht]
  · obtain rfl : wfb = 0 := by omega
    cases h
    exact ⟨by omega, le_refl _, by simp, rfl, fun bits' _ _ => by simp [takeWidth]⟩

/-- One step of the decoder that succeeds: what it read and what it tested (R129 to R131, R137). -/
theorem decodeElems_succ {cap : Option Nat} {wfb n i : Nat} {prev : Int} {bits : List Bool} {es : List Elem}
    (h : decodeElems cap wfb (n + 1) i prev bits = .ok es) :
    ∃ w u v t, takeWidth wfb bits = some (w, bits.drop wfb) ∧ takeBits w (bits.drop wfb) = some (u, (bits.drop wfb).drop w) ∧
      v = (if i = 0 then sext w u else prev + sext w u) ∧ InInt32 v ∧ overCap cap i = false ∧
      decodeElems cap wfb n (i + 1) v ((bits.drop wfb).drop w) = .ok t ∧ es = ⟨v, sext w u, w⟩ :: t := by
  rw [decodeElems] at h
  cases hw : takeWidth wfb bits with
  | none => rw [hw] at h; cases h
  | some r =>
    obtain ⟨w, b1⟩ := r
    rw [hw] at h
    obtain rfl : b1 = bits.drop wfb := (takeWidth_some hw).2.2.2.1
    simp only at h
    cases hu : takeBits w (bits.drop wfb) with
    | none => rw [hu] at h; cases h
    | some r =>
      obtain ⟨u, b2⟩ := r
      rw [hu] at h
      obtain ⟨_, rfl⟩ : u = uval ((bits.drop wfb).take w) ∧ b2 = (bits.drop wfb).drop w := by
        simpa using (takeBits_some hu).2
      simp only at h
      generalize hv : (if i = 0 then sext w u else prev + sext w u) = v at h
      split_ifs at h with h1 h2
      cases hr : decodeElems cap wfb n (i + 1) v ((bits.drop wfb).drop w) with
      | error e => rw [hr] at h; cases h
      | ok t =>
        rw [hr] at h
        cases h
        exact ⟨w, u, v, t, rfl, hu, hv.symm, h1, by simpa using h2, hr, rfl⟩

/-- The loop decodes as many elements as it is told, within the capacity (R132, R137). -/
theorem decodeElems_length {cap : Option Nat} {wfb : Nat} (n : Nat) :
    ∀ {i : Nat} {prev : Int} {bits : List Bool} {es : List Elem}, decodeElems cap wfb n i prev bits = .ok es →
      es.length = n ∧ ∀ c, cap = some c → i ≤ c → i + n ≤ c := by
  induction n with
  | zero => intro i prev bits es h; cases h; exact ⟨rfl, fun c _ hi => hi⟩
  | succ n ih =>
    intro i prev bits es h
    obtain ⟨w, u, v, t, _, _, _, _, hc, hr, rfl⟩ := decodeElems_succ h
    obtain ⟨h1, h2⟩ := ih hr
    refine ⟨by rw [List.length_cons, h1], fun c hcap hi => ?_⟩
    subst hcap
    have : i < c := by simpa [overCap] using hc
    exact (by omega : i + (n + 1) = i + 1 + n) ▸ h2 c rfl this

/-- The loop fails with an element cause (R129 to R131, R137). -/
theorem decodeElems_error {cap : Option Nat} {wfb : Nat} (n : Nat) :
    ∀ {i : Nat} {prev : Int} {bits : List Bool} {f : Failure}, decodeElems cap wfb n i prev bits = .error f →
      f.cause ∈ [Cause.fmtElemCode, .fmtElemDelta, .rngDecAcc, .capSeq] := by
  induction n with
  | zero => intro i prev bits f h; cases h
  | succ n ih =>
    intro i prev bits f h
    rw [decodeElems] at h
    cases hw : takeWidth wfb bits with
    | none => rw [hw] at h; cases h; simp
    | some r =>
      rw [hw] at h
      simp only at h
      cases hu : takeBits r.1 r.2 with
      | none => rw [hu] at h; cases h; simp
      | some q =>
        rw [hu] at h
        simp only at h
        generalize (if i = 0 then sext r.1 q.1 else prev + sext r.1 q.1) = v at h
        split_ifs at h
        · cases h; simp
        · cases hr : decodeElems cap wfb n (i + 1) v q.2 with
          | error e => rw [hr] at h; cases h; exact ih hr
          | ok t => rw [hr] at h; cases h
        · cases h; simp

/-! ### Decoding a stream -/

/-- A stream that decodes: its header and its loop (R126 to R133). -/
theorem vldDecodeCap_ok {cap : Option Nat} {b : List Byte} {r : Decoded} (h : vldDecodeCap cap b = .ok r) :
    ∃ n, takeBits 32 (bitsOf b) = some (n, (bitsOf b).drop 32) ∧
      takeBits 8 ((bitsOf b).drop 32) = some (r.wfb, ((bitsOf b).drop 32).drop 8) ∧
      r.wfb ≤ 5 ∧ decodeElems cap r.wfb n 0 0 (((bitsOf b).drop 32).drop 8) = .ok r.elems := by
  unfold vldDecodeCap at h
  cases h1 : takeBits 32 (bitsOf b) with
  | none => rw [h1] at h; cases h
  | some q =>
    obtain ⟨n, b1⟩ := q
    obtain ⟨_, rfl⟩ : n = uval ((bitsOf b).take 32) ∧ b1 = (bitsOf b).drop 32 := by simpa using (takeBits_some h1).2
    rw [h1] at h
    simp only at h
    cases h2 : takeBits 8 ((bitsOf b).drop 32) with
    | none => rw [h2] at h; cases h
    | some q =>
      obtain ⟨wfb, b2⟩ := q
      obtain ⟨_, rfl⟩ : wfb = uval (((bitsOf b).drop 32).take 8) ∧ b2 = ((bitsOf b).drop 32).drop 8 := by
        simpa using (takeBits_some h2).2
      rw [h2] at h
      simp only at h
      split_ifs at h with h3
      cases hr : decodeElems cap wfb n 0 0 (((bitsOf b).drop 32).drop 8) with
      | error e => rw [hr] at h; cases h
      | ok es =>
        rw [hr] at h
        cases h
        exact ⟨n, rfl, rfl, not_lt.1 h3, hr⟩

/-- A decoded stream fits the capacity (R137). -/
theorem vldDecodeCap_length_le {cap : Nat} {b : List Byte} {r : Decoded} (h : vldDecodeCap (some cap) b = .ok r) :
    r.elems.length ≤ cap := by
  obtain ⟨n, _, _, _, h4⟩ := vldDecodeCap_ok h
  obtain ⟨h5, h6⟩ := decodeElems_length n h4
  have := h6 cap rfl (Nat.zero_le _)
  omega

/-- The causes of a failing decoder (R126 to R131, R137). -/
theorem vldDecodeCap_error {cap : Option Nat} {b : List Byte} {f : Failure} (h : vldDecodeCap cap b = .error f) :
    f.cause ∈ [Cause.fmtHdrCount, .fmtHdrWfb, .fmtWfbRange, .fmtElemCode, .fmtElemDelta, .rngDecAcc, .capSeq] := by
  unfold vldDecodeCap at h
  cases h1 : takeBits 32 (bitsOf b) with
  | none => rw [h1] at h; cases h; simp
  | some q =>
    rw [h1] at h
    simp only at h
    cases h2 : takeBits 8 q.2 with
    | none => rw [h2] at h; cases h; simp
    | some q' =>
      rw [h2] at h
      simp only at h
      split_ifs at h with h3
      · cases h; simp
      cases hr : decodeElems cap q'.1 q.1 0 0 q'.2 with
      | ok es => rw [hr] at h; cases h
      | error e =>
        rw [hr] at h
        cases h
        have := decodeElems_error _ hr
        simp only [List.mem_cons, List.not_mem_nil, or_false] at this ⊢
        tauto

/-! ### Blobs -/

theorem takeWord_none {b : List Byte} : takeWord b = none ↔ b.length < 4 := by simp [takeWord]

theorem takeWord_some {b : List Byte} {r : Nat × List Byte} (h : takeWord b = some r) :
    4 ≤ b.length ∧ r = (unbe32 b, b.drop 4) := by
  rw [takeWord] at h
  split_ifs at h with hl
  exact ⟨not_lt.1 hl, (Option.some.inj h).symm⟩

/-- Four bytes written read back (R8). -/
theorem takeWord_be32 {v : Nat} (h : v < 2 ^ 32) (rest : List Byte) : takeWord (be32 v ++ rest) = some (v, rest) := by
  have hv : unbe32 (be32 v ++ rest) = v := by
    simp only [be32, List.cons_append, unbe32, BitVec.toNat_ofNat]
    omega
  rw [takeWord, if_neg (by simp), hv]
  rfl

/-- A field that parses: the window it decoded and what follows (R156, R157). -/
theorem parseField_ok {cap : Option Nat} {k : Nat} {b rest : List Byte} {r : Decoded} (h : parseField cap k b = .ok (r, rest)) :
    ∃ len b1, takeWord b = some (len, b1) ∧ len ≤ b1.length ∧ vldDecodeCap cap (b1.take len) = .ok r ∧ rest = b1.drop len := by
  unfold parseField at h
  cases h1 : takeWord b with
  | none => rw [h1] at h; cases h
  | some q =>
    rw [h1] at h
    simp only at h
    split_ifs at h with hl
    cases h2 : vldDecodeCap cap (q.2.take q.1) with
    | error f => rw [h2] at h; cases h
    | ok r' => rw [h2] at h; cases h; exact ⟨q.1, q.2, rfl, not_lt.1 hl, h2, rfl⟩

/-- The three fields of a blob that parses (R154, R158, R161). -/
theorem parseFields_ok {cap : Option Nat} {rows cols : Nat} {b : List Byte} {p : Parsed} (h : parseFields cap rows cols b = .ok p) :
    ∃ a0 a1 a2 b1 b2 b3, parseField cap 0 b = .ok (a0, b1) ∧ a0.elems.length = rows + 1 ∧ parseField cap 1 b1 = .ok (a1, b2) ∧
      parseField cap 2 b2 = .ok (a2, b3) ∧ p = ⟨rows, cols, a0, a1, a2⟩ := by
  unfold parseFields at h
  cases h0 : parseField cap 0 b with
  | error f => rw [h0] at h; cases h
  | ok q =>
  rw [h0] at h
  simp only at h
  split_ifs at h with hl
  cases h1 : parseField cap 1 q.2 with
  | error f => rw [h1] at h; cases h
  | ok q1 =>
  rw [h1] at h
  simp only at h
  cases h2 : parseField cap 2 q1.2 with
  | error f => rw [h2] at h; cases h
  | ok q2 =>
  rw [h2] at h
  cases h
  exact ⟨q.1, q1.1, q2.1, q.2, q1.2, q2.2, rfl, not_not.1 hl, h1, h2, rfl⟩

/-- Three parsed fields make a parsed blob; stated over any bytes, so that a proof over an assembled blob cites it. -/
theorem parseFields_intro {cap : Option Nat} {rows cols : Nat} {b b1 b2 b3 : List Byte} {a0 a1 a2 : Decoded}
    (h0 : parseField cap 0 b = .ok (a0, b1)) (hl : a0.elems.length = rows + 1) (h1 : parseField cap 1 b1 = .ok (a1, b2))
    (h2 : parseField cap 2 b2 = .ok (a2, b3)) : parseFields cap rows cols b = .ok ⟨rows, cols, a0, a1, a2⟩ := by
  unfold parseFields
  rw [h0]
  simp only
  rw [if_neg (not_not.2 hl), h1]
  simp only
  rw [h2]

/-- A blob that parses: its dimensions and its fields (R154, R155). -/
theorem blobParseCap_ok {cap : Option Nat} {b : List Byte} {p : Parsed} (h : blobParseCap cap b = .ok p) :
    ∃ rows cols b1 b2, takeWord b = some (rows, b1) ∧ takeWord b1 = some (cols, b2) ∧ parseFields cap rows cols b2 = .ok p := by
  unfold blobParseCap at h
  cases h1 : takeWord b with
  | none => rw [h1] at h; cases h
  | some q =>
    rw [h1] at h
    simp only at h
    cases h2 : takeWord q.2 with
    | none => rw [h2] at h; cases h
    | some q' => rw [h2] at h; exact ⟨q.1, q'.1, q.2, q'.2, rfl, h2, h⟩

/-- The three streams of a parsed blob were decoded under the same capacity (R161). -/
theorem blobParseCap_decoded {cap : Option Nat} {b : List Byte} {p : Parsed} (h : blobParseCap cap b = .ok p) :
    (∃ w, vldDecodeCap cap w = .ok p.indptr) ∧ (∃ w, vldDecodeCap cap w = .ok p.indices) ∧
      ∃ w, vldDecodeCap cap w = .ok p.data := by
  obtain ⟨rows, cols, b1, b2, _, _, h⟩ := blobParseCap_ok h
  obtain ⟨a0, a1, a2, c1, c2, c3, h0, _, h1, h2, rfl⟩ := parseFields_ok h
  obtain ⟨_, _, _, _, d0, _⟩ := parseField_ok h0
  obtain ⟨_, _, _, _, d1, _⟩ := parseField_ok h1
  obtain ⟨_, _, _, _, d2, _⟩ := parseField_ok h2
  exact ⟨⟨_, d0⟩, ⟨_, d1⟩, ⟨_, d2⟩⟩

end Sys2Proof.Laws
end

