-- ==== Sys2Proof/Laws/Operands.lean ====
section
/-! SUPPORT. What the commands read: the lengths and ranges of their sources, and that a source written from index 0 reads back
as it was written (10_state.md R11 to R15, R17; 30_encoding.md R81). -/

namespace Sys2Proof.Laws

open Sys2Proof Sys2Proof.Machine

@[simp] theorem length_source (s : State) (b : Bank) : (s.source b).length = (s.seqLen b).toNat := by simp [State.source]

@[simp] theorem length_deltaSource (s : State) : s.deltaSource.length = s.dltLen.toNat := by simp [State.deltaSource]

@[simp] theorem length_bufSource (s : State) : s.bufSource.length = s.bufLen.toNat := by simp [State.bufSource]

/-- A bank holds values of INT32 (R11). -/
theorem source_inInt32 (s : State) (b : Bank) : ∀ v ∈ s.source b, InInt32 v := by
  intro v hv
  obtain ⟨i, _, rfl⟩ := List.mem_map.1 hv
  have h1 := BitVec.toInt_lt (x := s.seqElem b i)
  have h2 := BitVec.le_toInt (x := s.seqElem b i)
  exact ⟨by simpa using h2, by simpa using h1⟩

/-- The operand of BWC as a number (R17). -/
theorem argument_toInt (s : State) : s.argument.toInt = (s.argLo.toNat : Int) - 2 ^ 32 * s.argHi.toNat := by
  have h : s.argument.toNat = s.argHi.toNat * 2 ^ 32 + s.argLo.toNat := by
    rw [State.argument, BitVec.toNat_append, Nat.shiftLeft_eq, Nat.mul_comm, Nat.two_pow_add_eq_or_of_lt s.argLo.isLt]
  have h1 := s.argHi.isLt
  have h2 := s.argLo.isLt
  rw [BitVec.toInt_eq_toNat_cond, h]
  split_ifs <;> push_cast <;> omega

theorem toInt_ofInt_32 {v : Int} (h : InInt32 v) : (BitVec.ofInt 32 v).toInt = v := by
  unfold InInt32 at h
  rw [BitVec.toInt_ofInt]
  exact Int.bmod_eq_of_le (by omega) (by omega)

theorem toInt_ofInt_33 {v : Int} (h : -2 ^ 32 ≤ v ∧ v < 2 ^ 32) : (BitVec.ofInt 33 v).toInt = v := by
  rw [BitVec.toInt_ofInt]
  exact Int.bmod_eq_of_le (by omega) (by omega)

/-- A length that a length register holds, written from a list of that length. -/
theorem ofNat_eq_of_length {n : Nat} {v : Word} (h : n = v.toNat) : BitVec.ofNat 32 n = v := by
  subst h
  simp

/-- A length within a capacity is not cut by its register. -/
theorem toNat_ofNat_of_le {n : Nat} {cap : Word} (h : n ≤ cap.toNat) : (BitVec.ofNat 32 n).toNat = n := by
  have := cap.isLt
  rw [BitVec.toNat_ofNat, Nat.mod_eq_of_lt (by omega)]

theorem map_range_length {α : Type} (l : List α) (f : Nat → α) (h : ∀ i (hi : i < l.length), f i = l[i]) :
    (List.range l.length).map f = l := by
  apply List.ext_getElem (by simp)
  intro i h1 h2
  simpa using h i h2

/-- A sequence written to a bank from index 0 reads back. -/
theorem source_of_written {s : State} {b : Bank} {m : Memory 32} {xs : List Int} (hx : ∀ v ∈ xs, InInt32 v)
    (hl : (s.seqLen b).toNat = xs.length) (hs : s.seq b = m.setAll 0 (xs.map (BitVec.ofInt 32))) : s.source b = xs := by
  rw [State.source, hl]
  refine map_range_length xs _ fun i hi => ?_
  rw [State.seqElem, hs, get_setAll_of_lt _ _ (by simpa using hi), Option.getD_some, List.getElem_map]
  exact toInt_ofInt_32 (hx _ (List.getElem_mem hi))

/-- Deltas written to DLT from index 0 read back. -/
theorem deltaSource_of_written {s : State} {m : Memory 33} {ds : List Int} (hd : ∀ v ∈ ds, -2 ^ 32 ≤ v ∧ v < 2 ^ 32)
    (hl : s.dltLen.toNat = ds.length) (hs : s.dlt = m.setAll 0 (ds.map (BitVec.ofInt 33))) : s.deltaSource = ds := by
  rw [State.deltaSource, hl]
  refine map_range_length ds _ fun i hi => ?_
  rw [State.dltElem, hs, get_setAll_of_lt _ _ (by simpa using hi), Option.getD_some, List.getElem_map]
  exact toInt_ofInt_33 (hd _ (List.getElem_mem hi))

/-- Bytes written to BUF from index 0 read back. -/
theorem bufSource_of_written {s : State} {m : Memory 8} {bs : List Byte} (hl : s.bufLen.toNat = bs.length)
    (hs : s.buf = m.setAll 0 bs) : s.bufSource = bs := by
  rw [State.bufSource, hl]
  refine map_range_length bs _ fun i hi => ?_
  rw [State.bufElem, hs, get_setAll_of_lt _ _ hi]
  rfl

/-- The blob BASM writes has the length it tested against BUF_CAP (R76, R152). -/
theorem length_basmBlob (s : State) : (basmBlob s).length = basmLength s := by
  simp only [basmBlob, blobBytes, prefixed, List.length_append, length_be32, length_vldStream, basmLength]
  omega

end Sys2Proof.Laws
end

