-- ==== Sys2Proof/Laws/Step.lean ====
section
/-! SUPPORT. What a step can do: which event it serves, what each primitive of the host port does to the state, and that a command
leaves the model's own fields alone. Later proofs about steps cite these. -/

namespace Sys2Proof.Laws

open Sys2Proof Sys2Proof.Machine

variable (s : State)

/-- A step serves the next event on the state with that event taken off the schedule. -/
theorem step_eq {e : Event} (h : s.nextEvent = e) : step s = serve e s.tick := by rw [step, h]

theorem nextEvent_cons {e : Event} {es : List Event} (h : s.schedule = e :: es) : s.nextEvent = e := by rw [State.nextEvent, h]; rfl

theorem nextEvent_nil (h : s.schedule = []) : s.nextEvent = .engine := by rw [State.nextEvent, h]; rfl

/-- A host register read only records a value (R33, R41). -/
theorem hostRegRead_cases (r : Nat) :
    (s.busy = true ∧ r ≠ 0x01 ∧ hostRegRead r s = s.observe (.word (Config.freeBusyReg s.draws r))) ∨
    ((s.busy = false ∨ r = 0x01) ∧ hostRegRead r s = s.observe (.word (s.readReg r))) := by
  by_cases hb : s.busy = true
  · by_cases hr : r = 0x01
    · exact .inr ⟨.inr hr, by simp [hostRegRead, hr]⟩
    · exact .inl ⟨hb, hr, by simp [hostRegRead, hb, hr]⟩
  · exact .inr ⟨.inl (by simpa using hb), by simp [hostRegRead, hb]⟩

/-- A host memory read only records a value (R41, R47, R53). -/
theorem hostMemRead_cases (sp : Space) (i : Nat) :
    ((s.busy = true ∨ s.spaceSize sp ≤ i) ∧ hostMemRead sp i s = s.observe (s.freeValue sp i)) ∨
    (s.busy = false ∧ i < s.spaceSize sp ∧ hostMemRead sp i s = s.observe (s.elemValue sp i)) := by
  by_cases hb : s.busy = true
  · exact .inl ⟨.inl hb, by simp [hostMemRead, hb]⟩
  · by_cases hi : s.spaceSize sp ≤ i
    · exact .inl ⟨.inr hi, by simp [hostMemRead, hi]⟩
    · exact .inr ⟨by simpa using hb, not_le.1 hi, by simp [hostMemRead, hb, hi]⟩

/-- A host write while the engine is busy is ignored (R47). -/
theorem host_write_busy (h : s.busy = true) (r : Nat) (v : Word) (e : ElementWrite) :
    hostRegWrite r v s = s ∧ hostMemWrite e s = s := by
  simp [hostRegWrite, hostMemWrite, h]

/-- A host memory write: one element of one space, or nothing (R16, R41, R47, R53). -/
theorem hostMemWrite_cases (e : ElementWrite) :
    hostMemWrite e s = s ∨
    (s.busy = false ∧
      ((∃ b i v, e = .seq b i v ∧ i < s.capSeq.toNat ∧ hostMemWrite e s = s.setSeq b ((s.seq b).set i v)) ∨
       (∃ i v, e = .dlt i v ∧ i < s.capSeq.toNat ∧ hostMemWrite e s = s.setDlt (s.dlt.set i v)) ∨
       (∃ i v, e = .buf i v ∧ i < s.capBuf.toNat ∧ hostMemWrite e s = s.setBuf (Memory.set (w := 8) s.buf i v)))) := by
  by_cases hb : s.busy = true
  · exact .inl (by simp [hostMemWrite, hb])
  have hb' : s.busy = false := by simpa using hb
  cases e with
  | seq b i v =>
    by_cases hi : i < s.capSeq.toNat
    · exact .inr ⟨hb', .inl ⟨b, i, v, rfl, hi, by simp [hostMemWrite, hb, hi]⟩⟩
    · exact .inl (by simp [hostMemWrite, hi])
  | dlt i v =>
    by_cases hi : i < s.capSeq.toNat
    · exact .inr ⟨hb', .inr (.inl ⟨i, v, rfl, hi, by simp [hostMemWrite, hb, hi]⟩)⟩
    · exact .inl (by simp [hostMemWrite, hi])
  | wid i v => exact .inl (by simp [hostMemWrite])
  | buf i v =>
    by_cases hi : i < s.capBuf.toNat
    · exact .inr ⟨hb', .inr (.inr ⟨i, v, rfl, hi, by simp [hostMemWrite, hb, hi]⟩)⟩
    · exact .inl (by simp [hostMemWrite, hi])

/-- The engine's turn: nothing, the decoded command, or IllegalCommand (R9, R21, R64). -/
theorem engineTurn_cases :
    (s.busy = false ∧ engineTurn s = .next s) ∨
    (s.busy = true ∧ ∃ i, decode s.cmd = .ok i ∧ engineTurn s = exec i s) ∨
    (s.busy = true ∧ ∃ e, decode s.cmd = .error e ∧ engineTurn s = .next (raiseIllegal s)) := by
  by_cases hb : s.busy = true
  · cases hd : decode s.cmd with
    | ok i => exact .inr (.inl ⟨hb, i, rfl, by simp [engineTurn, hb, runCommand, hd]⟩)
    | error e => exact .inr (.inr ⟨hb, e, rfl, by simp [engineTurn, hb, runCommand, hd]⟩)
  · exact .inl ⟨by simpa using hb, by simp [engineTurn, hb]⟩

/-- No command touches the model's own fields. -/
theorem exec_own_fields {i : Instr} {s t : State} (h : exec i s = .next t) :
    t.schedule = s.schedule ∧ t.observed = s.observed ∧ t.draws = s.draws := by
  have hr : ∀ {f : BitVec 2} {i : Instr}, bankOf f = none → (i = .denc f ∨ i = .venc f ∨ i = .vdec f ∨ i = .ddec f) →
      exec i s = .next t → t.schedule = s.schedule ∧ t.observed = s.observed ∧ t.draws = s.draws := by
    intro f i hf hi h
    rw [exec_no_bank s hf hi] at h
    cases h
    simp [raiseIllegal]
  cases i with
  | bwc => rw [exec_bwc] at h; cases h; simp
  | denc f =>
    cases hf : bankOf f with
    | none => exact hr hf (by simp) h
    | some b =>
      rw [exec_denc s hf] at h
      cases h
      rcases dencBank_cases s b with ⟨_, e⟩ | ⟨_, e⟩ <;> rw [e] <;> simp
  | venc f =>
    cases hf : bankOf f with
    | none => exact hr hf (by simp) h
    | some b =>
      rw [exec_venc s hf] at h
      cases h
      rcases vencBank_cases s b with ⟨_, e⟩ | ⟨_, _, e⟩ | ⟨_, _, _, e⟩ | ⟨_, _, _, e⟩ <;> rw [e] <;> simp
  | vdec f =>
    cases hf : bankOf f with
    | none => exact hr hf (by simp) h
    | some b =>
      rw [exec_vdec s hf] at h
      cases h
      rcases vdecBank_cases s b with ⟨_, e⟩ | ⟨_, _, _, e⟩ | ⟨_, _, _, e⟩ <;> rw [e] <;> simp
  | ddec f =>
    cases hf : bankOf f with
    | none => exact hr hf (by simp) h
    | some b =>
      rw [exec_ddec s hf] at h
      cases h
      rcases ddecBank_cases s b with ⟨_, e⟩ | ⟨_, _, _, e⟩ | ⟨_, _, _, e⟩ <;> rw [e] <;> simp
  | basm =>
    rcases execBasm_cases s with ⟨_, _, e⟩ | ⟨_, _, _, e⟩ | ⟨_, _, _, e⟩ | ⟨_, _, _, e⟩ <;>
      (rw [e] at h; obtain rfl := Host.Outcome.next.inj h; simp)
  | bpar =>
    rcases execBpar_cases s with ⟨_, e⟩ | ⟨_, _, _, e⟩ | ⟨_, _, _, e⟩ <;>
      (rw [e] at h; obtain rfl := Host.Outcome.next.inj h; simp)

end Sys2Proof.Laws
end

