-- ==== Sys2Proof/Laws/Ownership.lean ====
section
/-! SUPPORT. The host's duty of R203 one event at a time, and what a step does to the schedule it is stated on. -/

namespace Sys2Proof.Laws

open Sys2Proof Sys2Proof.Machine

/-- The state after the next event is the state the step answers. -/
theorem afterServing_of_step {s t : State} (h : step s = .next t) : afterServing s.nextEvent s = t := by
  rw [step] at h
  rw [afterServing, h]

/-- A host that keeps the duty on the events to come: the first one is allowed, and it keeps the duty on the rest (R203). -/
theorem respectsOwnership_cons {waiting : Bool} {s : State} {e : Event} {es : List Event} :
    respectsOwnership waiting s (e :: es) = true ↔
      (waiting = true → allowedWhileWaiting e = true) ∧
        respectsOwnership (waitsAfter waiting e s) (afterServing e s) es = true := by
  cases waiting <;> simp [respectsOwnership]

@[simp] theorem writeReg_schedule (s : State) (r : Nat) (v : Word) : (s.writeReg r v).schedule = s.schedule := by
  unfold State.writeReg
  split
  · unfold State.writeCmd; split <;> rfl
  · unfold State.writeStatus; split <;> rfl
  all_goals rfl

/-- Serving an event does not touch the schedule. -/
theorem serve_schedule {e : Event} {s t : State} (h : serve e s = .next t) : t.schedule = s.schedule := by
  cases e with
  | engine =>
    rcases engineTurn_cases s with ⟨_, e⟩ | ⟨_, i, _, e⟩ | ⟨_, f, _, e⟩ <;> rw [serve, e] at h
    · cases h; rfl
    · exact (exec_own_fields h).1
    · cases h; simp [raiseIllegal]
  | reset => cases h; rfl
  | regRead r =>
    cases h
    rcases hostRegRead_cases s r with ⟨_, _, e⟩ | ⟨_, e⟩ <;> rw [e] <;> rfl
  | memRead sp i =>
    cases h
    rcases hostMemRead_cases s sp i with ⟨_, e⟩ | ⟨_, _, e⟩ <;> rw [e] <;> rfl
  | regWrite r v =>
    cases h
    unfold hostRegWrite
    split
    · rfl
    · exact writeReg_schedule s r v
  | memWrite w =>
    cases h
    rcases hostMemWrite_cases s w with e | ⟨_, ⟨b, i, v, _, _, e⟩ | ⟨i, v, _, _, e⟩ | ⟨i, v, _, _, e⟩⟩ <;> rw [e]
    · cases b <;> rfl
    all_goals rfl

/-- A step takes the next event off the schedule and leaves the rest. -/
theorem step_schedule {s t : State} (h : step s = .next t) : t.schedule = s.schedule.tail := serve_schedule h

end Sys2Proof.Laws
end

