-- ==== Sys2Proof/Laws/PerInstr.lean ====
section
/-! SUPPORT. Statements about every instruction as syntax, one lemma per constructor: the fields of its command word. -/

/-- The fields of a command word: ZERO is 0, BANK is the bank operand, OP is the operation code (30_encoding.md R61, R62). -/
def Sys2Proof.Laws.Encoding.Statement (i : Sys2Proof.Instr) : Prop :=
  Sys2Proof.zeroField (Sys2Proof.encode i) = 0#22 ∧ Sys2Proof.bankField (Sys2Proof.encode i) = Sys2Proof.bankOperand i ∧
    Sys2Proof.opField (Sys2Proof.encode i) = Sys2Proof.opcode i

theorem Sys2Proof.Laws.Encoding.bwc : Sys2Proof.Laws.Encoding.Statement .bwc := by
  unfold Sys2Proof.Laws.Encoding.Statement; decide

theorem Sys2Proof.Laws.Encoding.denc (s : BitVec 2) : Sys2Proof.Laws.Encoding.Statement (.denc s) := by
  unfold Sys2Proof.Laws.Encoding.Statement; revert s; decide

theorem Sys2Proof.Laws.Encoding.venc (s : BitVec 2) : Sys2Proof.Laws.Encoding.Statement (.venc s) := by
  unfold Sys2Proof.Laws.Encoding.Statement; revert s; decide

theorem Sys2Proof.Laws.Encoding.vdec (s : BitVec 2) : Sys2Proof.Laws.Encoding.Statement (.vdec s) := by
  unfold Sys2Proof.Laws.Encoding.Statement; revert s; decide

theorem Sys2Proof.Laws.Encoding.ddec (s : BitVec 2) : Sys2Proof.Laws.Encoding.Statement (.ddec s) := by
  unfold Sys2Proof.Laws.Encoding.Statement; revert s; decide

theorem Sys2Proof.Laws.Encoding.basm : Sys2Proof.Laws.Encoding.Statement .basm := by
  unfold Sys2Proof.Laws.Encoding.Statement; decide

theorem Sys2Proof.Laws.Encoding.bpar : Sys2Proof.Laws.Encoding.Statement .bpar := by
  unfold Sys2Proof.Laws.Encoding.Statement; decide
end

