-- ==== Sys2Proof/Machine/Script.lean ====
section
/-! DEFINITION. Host scripts as schedules: the lines of 30_encoding.md R79, the pseudo-instructions of R80, and the end of a
run (70_reset_and_hazards.md R211). -/

namespace Sys2Proof.Machine

/-- `bwc` to `bpar`: a write of the command word to CMD (R79). -/
def lineCommand (i : Instr) : List Event := [.regWrite 0x00 (encode i)]

/-- `wait` (R80): STATUS is read `k` times with BUSY set, the engine ends the command, STATUS is read once more; how
often the loop turns is timing and stands as `k` (U10). -/
def lineWait (k : Nat) : List Event := List.replicate k (.regRead 0x01) ++ [.engine, .regRead 0x01]

/-- `clrerr` (R80). -/
def lineClrerr : List Event := [.regWrite 0x01 0x4#32]

/-- The number of SEQ_LENs (R26). -/
def seqLenNumber : Bank → Nat
  | .b0 => 0x0B
  | .b1 => 0x0C
  | .b2 => 0x0D

/-- `ldseq s, [v0, ...]` (R80), each value as `word32(v)` (R79). DESIGN CHOICE (log entry 26): `word32` is
defined on INT32 only and the host's cast has no rule (N9); here a value outside INT32 is written modulo 2^32, and a count of 2^32
or more too. -/
def lineLdseq (b : Bank) (vs : List Int) : List Event :=
  .regWrite (seqLenNumber b) (BitVec.ofNat 32 vs.length)
    :: vs.mapIdx (fun i v => .memWrite (.seq b i (BitVec.ofInt 32 v)))

/-- `lddlt [d0, ...]` (R80), each value as its 33-bit entry (R79). DESIGN CHOICE (log entry 26): a value outside
-2^32 .. 2^32 - 1, which no entry holds (R41), is written modulo 2^33, and a count of 2^32 or more modulo 2^32. -/
def lineLddlt (ds : List Int) : List Event :=
  .regWrite 0x0E (BitVec.ofNat 32 ds.length) :: ds.mapIdx (fun i d => .memWrite (.dlt i (BitVec.ofInt 33 d)))

/-- `ldbuf [b0, ...]` (R80). DESIGN CHOICE (log entry 26): a count of 2^32 or more is written modulo 2^32. -/
def lineLdbuf (bs : List Byte) : List Event :=
  .regWrite 0x0F (BitVec.ofNat 32 bs.length) :: bs.mapIdx (fun i b => .memWrite (.buf i b))

/-- `ldarg d` (R80): the low 32 bits and bit 32 of `d mod 2^33`, for `d` in -2^32 .. 2^32 - 1. DESIGN CHOICE (log entry 26): the
line takes any other `d` by the same formula. -/
def lineLdarg (d : Int) : List Event :=
  [.regWrite 0x06 (BitVec.ofInt 32 d), .regWrite 0x07 (((BitVec.ofInt 33 d).extractLsb' 32 1).setWidth 32)]

/-- A run is over: every line of the script has been executed and the engine is idle (R211). -/
def State.runOver (s : State) : Bool := s.schedule.isEmpty && !s.busy

end Sys2Proof.Machine
end

