-- ==== Sys2Proof/Tests/Slice0.lean ====
section
/-! SUPPORT. The model's own tests: what the well-formedness check refuses, command words written out from the encoding, small
steps with the results spec/95_test_vectors.md gives, and for every statement with hypotheses a state and operands that meet them.
A name test_meets_X is about the hypotheses of the statement Obligations.X. -/

namespace Sys2Proof.Tests

open Sys2Proof Sys2Proof.Machine

/-! ### Well-formedness: an ill-formed term for each check (30_encoding.md R64) -/

theorem test_wellFormed_refuses_denc_bank_three : ¬WellFormed (.denc 3#2) := by decide
theorem test_wellFormed_refuses_venc_bank_three : ¬WellFormed (.venc 3#2) := by decide
theorem test_wellFormed_refuses_vdec_bank_three : ¬WellFormed (.vdec 3#2) := by decide
theorem test_wellFormed_refuses_ddec_bank_three : ¬WellFormed (.ddec 3#2) := by decide
theorem test_wellFormed_takes_bank_two : WellFormed (.denc 2#2) ∧ WellFormed .bwc := by decide

/-! ### Decoding: the words of R61 and R62 from the top bit down: ZERO (22 bits), BANK (2 bits), OP (8 bits) -/

theorem test_decode_bwc : decode (0b0000000000000000000000#22 ++ 0b00#2 ++ 0b00000001#8) = .ok .bwc := by decide
theorem test_decode_denc : decode (0b0000000000000000000000#22 ++ 0b01#2 ++ 0b00000010#8) = .ok (.denc 1#2) := by decide
theorem test_decode_venc : decode (0b0000000000000000000000#22 ++ 0b10#2 ++ 0b00000011#8) = .ok (.venc 2#2) := by decide
theorem test_decode_vdec : decode (0b0000000000000000000000#22 ++ 0b00#2 ++ 0b00000100#8) = .ok (.vdec 0#2) := by decide
theorem test_decode_ddec : decode (0b0000000000000000000000#22 ++ 0b10#2 ++ 0b00000101#8) = .ok (.ddec 2#2) := by decide
theorem test_decode_basm : decode (0b0000000000000000000000#22 ++ 0b00#2 ++ 0b00000110#8) = .ok .basm := by decide
theorem test_decode_bpar : decode (0b0000000000000000000000#22 ++ 0b00#2 ++ 0b00000111#8) = .ok .bpar := by decide

/-- Vectors I1 to I10 of 95_test_vectors.md section 2.8, each refused by name. -/
theorem test_decode_refuses :
    decode 0x00000000#32 = .error .opUndefined ∧ decode 0x00000008#32 = .error .opUndefined ∧
    decode 0x000000FF#32 = .error .opUndefined ∧ decode 0x00000101#32 = .error .bankNotTaken ∧
    decode 0x00000206#32 = .error .bankNotTaken ∧ decode 0x00000107#32 = .error .bankNotTaken ∧
    decode 0x00000302#32 = .error .bankThree ∧ decode 0x00000403#32 = .error .zeroFieldSet ∧
    decode 0x80000004#32 = .error .zeroFieldSet ∧ decode 0xFFFFFFFF#32 = .error .zeroFieldSet := by decide

theorem test_decodeTableWord :
    decodeTableWord 32 0x00000203 = some (.venc 2#2) ∧ decodeTableWord 32 0x00000303 = none ∧ decodeTableWord 8 0x07 = some .bpar := by
  decide

/-! ### Small states -/

/-- What a step or a command gave; every outcome of this machine is a next state (R209). -/
def after : Host.Outcome State Fault Refusal → State
  | .next t => t
  | .fault f => nomatch f
  | .refused _ => State.reset

/-- The machine after reset with `SEQ_CAP = 4` and `BUF_CAP = 40`, and `es` scheduled. -/
def tiny (es : List Event) : State := State.resetWith 4#32 40#32 es [] 0

/-- The matrix of vector B1: 2 rows, 2 columns, indptr [0, 1, 2], indices [0, 1], data [1, 1]. -/
def matrix : State := (((tiny []).writeDims 2 2).writeBank .b0 [0, 1, 2]).writeBank .b1 [0, 1] |>.writeBank .b2 [1, 1]

/-- The bytes of vector B1. -/
def blob : List Byte :=
  [0, 0, 0, 2, 0, 0, 0, 2] ++ [0, 0, 0, 6, 0, 0, 0, 3, 1, 0x2D] ++ [0, 0, 0, 6, 0, 0, 0, 2, 1, 0x28] ++
    [0, 0, 0, 6, 0, 0, 0, 2, 1, 0xA0]

/-- BUF holding `bs`, BUF_LEN its length. -/
def bytes (bs : List Byte) : State := (tiny []).writeBuf bs

/-- Bank 1 holding `xs`. -/
def bankOne (xs : List Int) : State := (tiny []).writeBank .b1 xs

/-- DLT holding `ds`. -/
def deltas (ds : List Int) : State := (tiny []).writeScratch ds [] 1 0

/-- The state in the error state after an illegal word (R180). -/
def failed (es : List Event) : State := raiseIllegal ((tiny es).accept 0x302#32)

theorem test_reset_memories_wf :
    (∀ b, (State.reset.seq b).wf) ∧ State.reset.dlt.wf ∧ State.reset.wid.wf ∧ Memory.wf (w := 8) State.reset.buf := by
  refine ⟨fun b => ?_, ?_, ?_, ?_⟩
  · cases b <;> exact List.Pairwise.nil
  all_goals exact List.Pairwise.nil

/-! ### Commands, with the results of 95_test_vectors.md -/

/-- W30: -2^31 - 1 is outside INT32: width 32, OVF 1. -/
theorem test_bwc_overflow :
    let t := after (exec .bwc { tiny [] with argLo := 0x7FFFFFFF#32, argHi := 1#1 })
    t.res = 32#6 ∧ t.flags = 1#1 ∧ t.status = 0b010#3 := by decide

/-- W8: -4 has width 3. -/
theorem test_bwc_negative :
    let t := after (exec .bwc { tiny [] with argLo := 0xFFFFFFFC#32, argHi := 1#1 })
    t.res = 3#6 ∧ t.flags = 0#1 := by decide

/-- T12: a delta of 2^32 - 1 is stored exactly and sets OVF; it is no exception. -/
theorem test_denc_wide_delta :
    let t := after (exec (.denc 1#2) (bankOne [-2147483648, 2147483647]))
    t.dlt.map (fun p => p.2.toInt) = [-2147483648, 4294967295] ∧ t.wid.map (fun p => p.2.toNat) = [32, 32] ∧
      t.wfb = .holds 5#8 ∧ t.flags = 1#1 ∧ t.status = 0b010#3 := by decide

/-- K4 with SEQ_CAP 4: a source length of 5 raises CAP_SRC_LEN with the bank in ERRFLD. -/
theorem test_denc_source_length :
    let t := after (exec (.denc 1#2) { tiny [] with seqLen1 := 5#32 })
    t.errcode = 0x30#8 ∧ t.errfld = 1#2 ∧ t.status = 0b110#3 ∧ t.maxw = .unspecified := by decide

/-- E9: [7, 7, 7] has a padded last byte. -/
theorem test_venc_padding :
    let t := after (exec (.venc 1#2) (bankOne [7, 7, 7]))
    Memory.get (w := 8) t.buf 4 = some 0x02#8 ∧ Memory.get (w := 8) t.buf 5 = some 0xDC#8 ∧
      Memory.get (w := 8) t.buf 6 = some 0x00#8 ∧ t.bufLen = 7#32 ∧ t.dltLen = 3#32 := by decide

/-- X3: [0, -2^31, 0] fails at index 2 and leaves BUF_LEN and DLT_LEN 0. -/
theorem test_venc_range :
    let t := after (exec (.venc 1#2) (bankOne [0, -2147483648, 0]))
    t.errcode = 0x20#8 ∧ t.erridx = 2#32 ∧ t.errfld = 1#2 ∧ t.flags = 1#1 ∧ t.bufLen = 0#32 ∧ t.dltLen = 0#32 := by decide

/-- V1: a width that is not minimal is accepted. -/
theorem test_vdec_wide_code :
    let t := after (exec (.vdec 2#2) (bytes [0, 0, 0, 1, 2, 0xC0]))
    t.seq2 = [(0, 0#32)] ∧ t.wid = [(0, 4#6)] ∧ t.maxw = .holds 4#6 ∧ t.wfb = .holds 2#8 ∧ t.seqLen2 = 1#32 := by decide

/-- K2: the fifth element does not fit a bank of 4. -/
theorem test_vdec_capacity :
    let t := after (exec (.vdec 2#2) (bytes [0, 0, 0, 5, 0, 0xF8]))
    t.errcode = 0x31#8 ∧ t.erridx = 4#32 ∧ t.errfld = 2#2 ∧ t.seqLen2 = 0#32 := by decide

/-- U4: a delta outside INT32 is summed exactly. -/
theorem test_ddec_wide_delta :
    (after (exec (.ddec 0#2) (deltas [-2147483648, 4294967295]))).seq0.map (fun p => p.2.toInt) = [-2147483648, 2147483647] := by
  decide

/-- U7: the sum leaves INT32 at index 1; DLT_LEN stays. -/
theorem test_ddec_range :
    let t := after (exec (.ddec 0#2) (deltas [1, 2147483647]))
    t.errcode = 0x21#8 ∧ t.erridx = 1#32 ∧ t.seqLen0 = 0#32 ∧ t.dltLen = 2#32 := by decide

/-- B1: the assembled bytes and the scratch of bank 2. -/
theorem test_basm_blob :
    let t := after (exec .basm matrix)
    t.buf.map (fun p => p.2) = blob ∧ t.bufLen = 38#32 ∧ t.dltLen = 2#32 ∧ t.status = 0b010#3 := by decide

/-- Q14: field 1 is the lowest with a bad delta, at index 2. -/
theorem test_basm_range :
    let t := after (exec .basm ((matrix.writeBank .b1 [0, -2147483648, 1]).writeBank .b2 [-2147483648, 2147483647]))
    t.errcode = 0x20#8 ∧ t.erridx = 2#32 ∧ t.errfld = 1#2 ∧ t.flags = 1#1 := by decide

/-- B1: the parsed matrix. -/
theorem test_bpar_matrix :
    let t := after (exec .bpar (bytes blob))
    t.rows = .holds 2#32 ∧ t.cols = .holds 2#32 ∧ t.seq0 = [(0, 0#32), (1, 1#32), (2, 2#32)] ∧ t.seq1 = [(0, 0#32), (1, 1#32)] ∧
      t.seq2 = [(0, 1#32), (1, 1#32)] ∧ t.seqLen0 = 3#32 := by decide

/-- Q8: three rows need four entries of indptr. -/
theorem test_bpar_indptr :
    let t := after (exec .bpar (bytes (blob.set 3 3)))
    t.errcode = 0x18#8 ∧ t.seqLen0 = 0#32 ∧ t.rows = .unspecified := by decide

/-- The command word of DENC 1, placed with `withFetchWord`, is the very next step. -/
theorem test_withFetchWord_runs :
    (after (step ((bankOne [5]).withFetchWord 32 0x102))).dlt = [(0, 5#33)] := by decide

/-! ### States and operands that meet the hypotheses of the statements -/

theorem test_meets_ResetAbandonsARunningCommand :
    (((tiny [.reset]).accept 0x001#32).nextEvent = .reset) ∧ ((tiny [.reset]).accept 0x001#32).busy = true := by decide

/-- A busy state, a stopped one in the error state, and an idle one meet the invariant. -/
theorem test_inv_of {s : State} (h1 : s.busy = true → s.done = false ∧ s.err = false) (h2 : s.err = true → s.done = true)
    (h3 : s.err = false → s.errcode = 0 ∧ s.erridx = 0 ∧ s.errfld = 0) (h4 : s.err = true → s.errcode = 0x40#8 ∧ s.flags = 0#1)
    (h5 : s = { State.resetWith 4#32 40#32 s.schedule [] s.draws with
      cmd := s.cmd, status := s.status, errcode := s.errcode, erridx := s.erridx, errfld := s.errfld, flags := s.flags }) : s.Inv := by
  have hseq : ∀ b, s.seq b = [] := by intro b; rw [h5]; cases b <;> rfl
  have hd : s.dlt = [] := by rw [h5]; rfl
  have hw : s.wid = [] := by rw [h5]; rfl
  have hb : s.buf = [] := by rw [h5]; rfl
  refine ⟨h1, h2, h3, fun h => ⟨.illegalCmd, (h4 h).1⟩, fun h => ?_, ?_, ?_, ?_, ?_, ?_, ?_, ?_, ?_, ?_, ?_, ?_, ?_, ?_, ?_⟩
  · rw [(h4 h).1, (h4 h).2]; decide
  · rw [h5]; show (0 : BitVec 6).toNat ≤ 32; decide
  · rw [h5]; rintro v ⟨⟩; decide
  · rw [h5]; rintro v ⟨⟩; decide
  · rw [h5]; show 1 ≤ (4#32).toNat; decide
  · rw [h5]; show 5 ≤ (40#32).toNat; decide
  · intro b; rw [hseq]; exact List.Pairwise.nil
  · rw [hd]; exact List.Pairwise.nil
  · rw [hw]; exact List.Pairwise.nil
  · rw [hb]; exact List.Pairwise.nil
  · intro b p hp; rw [hseq] at hp; cases hp
  · intro p hp; rw [hd] at hp; cases hp
  · intro p hp; rw [hw] at hp; cases hp
  · intro p hp; rw [hb] at hp; cases hp
  · intro p hp; rw [hw] at hp; cases hp

theorem test_meets_EveryStepKeepsTheInvariant :
    ((tiny [.engine]).accept 0x001#32).Inv ∧ ∃ t, step ((tiny [.engine]).accept 0x001#32) = .next t :=
  ⟨test_inv_of (by decide) (by decide) (by decide) (by decide) rfl, _, rfl⟩

theorem test_meets_EveryCommandEndsAndNothingStops :
    ((tiny []).accept 0x302#32).nextEvent = .engine ∧ ((tiny []).accept 0x302#32).busy = true := by decide

/-- Each field test at a boundary: ZERO 1, OP 0x00, 0x08, BANK 0, 2 and 3. -/
theorem test_meets_DecoderFollowsTheFieldTests :
    (0x401#32).toNat / 2 ^ 10 ≠ 0 ∧ (0x000#32).toNat % 2 ^ 8 < 0x01 ∧ 0x07 < (0x008#32).toNat % 2 ^ 8 ∧
    ((0x001#32).toNat / 2 ^ 10 = 0 ∧ (0x001#32).toNat % 2 ^ 8 = 0x01 ∧ (0x001#32).toNat / 2 ^ 8 % 4 = 0) ∧
    ((0x106#32).toNat / 2 ^ 10 = 0 ∧ (0x106#32).toNat % 2 ^ 8 = 0x06 ∧ (0x106#32).toNat / 2 ^ 8 % 4 = 1) ∧
    ((0x307#32).toNat / 2 ^ 10 = 0 ∧ (0x307#32).toNat % 2 ^ 8 = 0x07 ∧ (0x307#32).toNat / 2 ^ 8 % 4 = 3) ∧
    ((0x202#32).toNat / 2 ^ 10 = 0 ∧ (0x202#32).toNat % 2 ^ 8 = 0x02 ∧ (0x202#32).toNat / 2 ^ 8 % 4 = 2) ∧
    ((0x303#32).toNat / 2 ^ 10 = 0 ∧ (0x303#32).toNat % 2 ^ 8 = 0x03 ∧ (0x303#32).toNat / 2 ^ 8 % 4 = 3) ∧
    ((0x204#32).toNat / 2 ^ 10 = 0 ∧ (0x204#32).toNat % 2 ^ 8 = 0x04 ∧ (0x204#32).toNat / 2 ^ 8 % 4 = 2) ∧
    ((0x005#32).toNat / 2 ^ 10 = 0 ∧ (0x005#32).toNat % 2 ^ 8 = 0x05 ∧ (0x005#32).toNat / 2 ^ 8 % 4 = 0) ∧
    (decode 0x400#32 = .error .zeroFieldSet ∧ ((tiny []).accept 0x400#32).cmd = 0x400#32 ∧
      ((tiny []).accept 0x400#32).busy = true ∧ ((tiny []).accept 0x400#32).nextEvent = .engine) := by decide

theorem test_meets_StepRunsTheDecodedCommand :
    ((tiny []).accept 0x204#32).nextEvent = .engine ∧ ((tiny []).accept 0x204#32).busy = true ∧
      decode ((tiny []).accept 0x204#32).cmd = .ok (.vdec 2#2) := by decide

theorem test_meets_IllegalWordRaisesIllegalCommand :
    (tiny [.regWrite 0x00 0x302#32, .engine]).busy = false ∧ (tiny [.regWrite 0x00 0x302#32, .engine]).err = false ∧
      decode 0x302#32 = .error .bankThree ∧
      (tiny [.regWrite 0x00 0x302#32, .engine]).schedule = .regWrite 0x00 0x302#32 :: .engine :: [] := by decide

/-- A CMD write with the engine idle, busy, and in the error state. -/
theorem test_meets_CmdWriteIsAcceptedOrIgnored :
    ((tiny [.regWrite 0x00 0x001#32]).nextEvent = .regWrite 0x00 0x001#32 ∧ (tiny [.regWrite 0x00 0x001#32]).busy = false ∧
      (tiny [.regWrite 0x00 0x001#32]).err = false) ∧
    (((tiny [.regWrite 0x00 0x001#32]).accept 0x006#32).nextEvent = .regWrite 0x00 0x001#32 ∧
      ((tiny [.regWrite 0x00 0x001#32]).accept 0x006#32).busy = true) ∧
    ((failed [.regWrite 0x00 0x001#32]).nextEvent = .regWrite 0x00 0x001#32 ∧ (failed [.regWrite 0x00 0x001#32]).err = true) := by
  decide

theorem test_meets_ClearingErrEndsTheErrorState :
    ((failed [.regWrite 0x01 0x4#32]).nextEvent = .regWrite 0x01 0x4#32 ∧ (failed [.regWrite 0x01 0x4#32]).busy = false ∧
      (0x4#32).getLsbD 2 = true ∧ (failed [.regWrite 0x01 0x4#32]).err = true) ∧
    ((failed [.regWrite 0x01 0xFFFFFFFB#32]).nextEvent = .regWrite 0x01 0xFFFFFFFB#32 ∧
      (failed [.regWrite 0x01 0xFFFFFFFB#32]).busy = false ∧ (0xFFFFFFFB#32).getLsbD 2 = false) ∧
    ((failed [.reset]).nextEvent = .reset ∧ (failed [.reset]).err = true) := by decide

theorem test_meets_ErrorStateIsSticky :
    (failed [.regWrite 0x00 0x001#32]).Inv ∧ (failed [.regWrite 0x00 0x001#32]).err = true ∧
      (failed [.regWrite 0x00 0x001#32]).nextEvent ≠ .reset ∧
      (∀ v : Word, v.getLsbD 2 = true → (failed [.regWrite 0x00 0x001#32]).nextEvent ≠ .regWrite 0x01 v) ∧
      ∃ t, step (failed [.regWrite 0x00 0x001#32]) = .next t :=
  ⟨test_inv_of (by decide) (by decide) (by decide) (by decide) rfl, by decide, by decide, fun v _ h => (by cases h), _, rfl⟩

/-- Each host primitive while a command runs. -/
theorem test_meets_BusyHostAccessesDisturbNothing :
    ((tiny [.regRead 0x01]).accept 0x001#32).busy = true ∧
    ((tiny [.regRead 0x01]).accept 0x001#32).nextEvent = .regRead 0x01 ∧
    ((tiny [.regRead 0x08]).accept 0x001#32).nextEvent = .regRead 0x08 ∧
    ((tiny [.regWrite 0x06 7#32]).accept 0x001#32).nextEvent = .regWrite 0x06 7#32 ∧
    ((tiny [.memRead .dlt 0]).accept 0x001#32).nextEvent = .memRead .dlt 0 ∧
    ((tiny [.memWrite (.buf 0 1#8)]).accept 0x001#32).nextEvent = .memWrite (.buf 0 1#8) := by decide

/-- The first and last register numbers of the table, the four that may be unspecified, and the first reserved number. -/
theorem test_meets_RegisterReadsFollowTheTable :
    (∀ r, (tiny [.regRead r]).busy = false ∧ (tiny [.regRead r]).nextEvent = .regRead r) ∧
    (tiny [.regRead 0x00]).cmd.toNat = 0 ∧ (tiny [.regRead 0x13]).capBuf.toNat = 40 ∧ (tiny [.regRead 0x09]).rows = .holds 0 ∧
    (tiny [.regRead 0x0A]).cols = .holds 0 ∧ (tiny [.regRead 0x10]).maxw = .holds 0 ∧ (tiny [.regRead 0x11]).wfb = .holds 0 ∧
    0x14 ≤ 0x14 :=
  ⟨fun r => ⟨by simp [tiny, State.resetWith, State.busy], rfl⟩, rfl, rfl, rfl, rfl, rfl, rfl, le_refl _⟩

/-- The two lists, register 0x07 and the first reserved number share no register number. -/
theorem test_meets_RegisterWritesFollowTheTable :
    (∀ r v, (tiny [.regWrite r v]).busy = false ∧ (tiny [.regWrite r v]).nextEvent = .regWrite r v) ∧
    (∀ r ∈ [0x02, 0x03, 0x04, 0x05, 0x08, 0x10, 0x11, 0x12, 0x13], r ∉ [0x06, 0x09, 0x0A, 0x0B, 0x0C, 0x0D, 0x0E, 0x0F] ∧ r ≠ 0x07) ∧
    (∀ r ∈ [0x06, 0x09, 0x0A, 0x0B, 0x0C, 0x0D, 0x0E, 0x0F], r < 0x14 ∧ r ≠ 0x07) :=
  ⟨fun r v => ⟨by simp [tiny, State.resetWith, State.busy], rfl⟩, by decide, by decide⟩

/-- The last element of each space, and elements that a command's results left. -/
theorem test_meets_ElementWriteThenReadReturnsIt :
    (tiny []).busy = false ∧ 3 < (tiny []).capSeq.toNat ∧ 39 < (tiny []).capBuf.toNat ∧
    (tiny [.memWrite (.seq .b2 3 7#32), .memRead (.seq .b2) 3]).schedule = [.memWrite (.seq .b2 3 7#32), .memRead (.seq .b2) 3] ∧
    (tiny [.memWrite (.dlt 3 7#33), .memRead .dlt 3]).schedule = [.memWrite (.dlt 3 7#33), .memRead .dlt 3] ∧
    (tiny [.memWrite (.buf 39 7#8), .memRead .buf 39]).schedule = [.memWrite (.buf 39 7#8), .memRead .buf 39] ∧
    (let left := fun es => { (tiny es).writeScratch [7] [4] 4 2 with seq2 := [(3, 7#32)], buf := [(39, 7#8)] }
     (left []).busy = false ∧
     ((left [.memRead (.seq .b2) 3]).nextEvent = .memRead (.seq .b2) 3 ∧ (left []).seq2.get 3 = some 7#32) ∧
     ((left [.memRead .dlt 0]).nextEvent = .memRead .dlt 0 ∧ (left []).dlt.get 0 = some 7#33) ∧
     ((left [.memRead .wid 0]).nextEvent = .memRead .wid 0 ∧ (left []).wid.get 0 = some 4#6) ∧
     ((left [.memRead .buf 39]).nextEvent = .memRead .buf 39 ∧ Memory.get (w := 8) (left []).buf 39 = some 7#8)) := by decide

/-- The first index out of range of each space. -/
theorem test_meets_OutOfRangeAccessesDoNothing :
    ((tiny [.memWrite (.seq .b0 4 7#32)]).nextEvent = .memWrite (.seq .b0 4 7#32) ∧ (tiny []).capSeq.toNat ≤ 4) ∧
    (tiny [.memWrite (.dlt 4 7#33)]).nextEvent = .memWrite (.dlt 4 7#33) ∧
    ((tiny [.memWrite (.buf 40 7#8)]).nextEvent = .memWrite (.buf 40 7#8) ∧ (tiny []).capBuf.toNat ≤ 40) ∧
    (tiny [.memWrite (.wid 0 7#6)]).nextEvent = .memWrite (.wid 0 7#6) ∧
    ((tiny [.memRead .wid 4]).nextEvent = .memRead .wid 4 ∧ (tiny [.memRead .wid 4]).spaceSize .wid ≤ 4) := by decide

/-- The lines of R80 keep the duty: a BWC with its wait, then a read of RES. -/
theorem test_meets_OwnershipMakesReadsExact :
    respectsOwnership false (tiny [.regWrite 0x00 0x001#32, .regRead 0x01, .engine, .regRead 0x01, .regRead 0x08])
        (tiny [.regWrite 0x00 0x001#32, .regRead 0x01, .engine, .regRead 0x01, .regRead 0x08]).schedule = true ∧
      (tiny []).busy = false ∧
      ∃ t, step (tiny [.regWrite 0x00 0x001#32, .regRead 0x01, .engine, .regRead 0x01, .regRead 0x08]) = .next t :=
  ⟨by decide, by decide, _, rfl⟩

/-- R203 ends the wait at a STATUS read with BUSY = 0, not at the engine's turn; a CMD write ignored under ERR = 1 begins none. -/
theorem test_ownership_waits_for_status :
    respectsOwnership false (tiny []) [.regWrite 0x00 0x001#32, .engine, .regRead 0x08] = false ∧
    respectsOwnership false (tiny []) [.regWrite 0x00 0x001#32, .regRead 0x01, .regRead 0x08] = false ∧
    respectsOwnership false (failed []) [.regWrite 0x00 0x001#32, .regRead 0x08] = true := by decide

theorem test_meets_BitAndByteOrder :
    ([true, false, false, false, false, false, false, true] : List Bool).length % 8 = 0 ∧ 2 ^ 32 - 1 < 2 ^ 32 := by decide

/-- The largest value of INT32 has a width, the next one has none. -/
theorem test_meets_CalculatorGivesTheLeastWidth :
    (∃ b, 1 ≤ b ∧ b ≤ 32 ∧ -2 ^ (b - 1) ≤ (2147483647 : Int) ∧ (2147483647 : Int) < 2 ^ (b - 1)) ∧
    ¬∃ b, 1 ≤ b ∧ b ≤ 32 ∧ -2 ^ (b - 1) ≤ (2147483648 : Int) ∧ (2147483648 : Int) < 2 ^ (b - 1) := by
  refine ⟨⟨32, by decide⟩, ?_⟩
  rintro ⟨b, h1, h2, _, h4⟩
  interval_cases b <;> omega

/-- Both clauses on the clamp have an operand: 2^31 - 1 and 2^31. -/
theorem test_meets_CalculatorPortAgrees :
    (bw (0x07FFFFFFF#33).toInt).2 = false ∧ (bw (0x080000000#33).toInt).2 = true := by decide

theorem test_meets_CalculatorLaws :
    InInt32 (-2147483648) ∧ 2 ≤ width (-2147483648) ∧ ((0 : Int) ≤ 3 ∧ (3 : Int) ≤ 4) ∧ ((-4 : Int) ≤ -3 ∧ (-3 : Int) < 0) := by decide

theorem test_meets_DeltaIsTheFirstDifference :
    (∀ v ∈ ([3, 1] : List Int), InInt32 v) ∧ 1 < ([3, 1] : List Int).length := by decide

/-- T12, at its last index, where the delta is outside INT32. -/
theorem test_meets_DeltasFitThirtyThreeBits :
    (∀ v ∈ ([-2147483648, 2147483647] : List Int), InInt32 v) ∧ (delta [-2147483648, 2147483647])[0]? = some (-2147483648) ∧
      (delta [-2147483648, 2147483647])[1]? = some 4294967295 ∧ ¬InInt32 4294967295 := by decide

theorem test_meets_RunningSumInvertsDelta :
    (∀ v ∈ ([5, -2147483648] : List Int), InInt32 v) ∧ undelta [5, 7] = .ok [5, 12] ∧
      (∀ i, i < ([5, 7] : List Int).length → InInt32 (([5, 7] : List Int).take (i + 1)).sum) := by
  refine ⟨by decide, by decide, ?_⟩
  intro i hi
  simp only [List.length_cons, List.length_nil] at hi
  interval_cases i <;> decide

/-- T4 has every delta in INT32; T14 fails first at index 2. -/
theorem test_meets_EncoderFailsExactlyOnRange :
    ((∀ v ∈ ([0, 1, 2] : List Int), InInt32 v) ∧ ([0, 1, 2] : List Int).length < 2 ^ 32 ∧ ∀ d ∈ delta [0, 1, 2], InInt32 d) ∧
      (∀ v ∈ ([0, -2147483648, 0] : List Int), InInt32 v) ∧ ([0, -2147483648, 0] : List Int).length < 2 ^ 32 ∧
      2 < ([0, -2147483648, 0] : List Int).length ∧
      ¬InInt32 (deltaAt [0, -2147483648, 0] 2) ∧ ∀ i, i < 2 → InInt32 (deltaAt [0, -2147483648, 0] i) := by decide

/-- E2. -/
theorem test_meets_EncodedStreamHasTheStatedShape :
    (∀ v ∈ ([5] : List Int), InInt32 v) ∧ ([5] : List Int).length < 2 ^ 32 ∧ vldEncode [5] = .ok [0, 0, 0, 1, 2, 0xD4] := by decide

/-- E4. -/
theorem test_meets_DecodeInvertsVldEncode :
    (∀ v ∈ ([0, 1, 2] : List Int), InInt32 v) ∧ ([0, 1, 2] : List Int).length < 2 ^ 32 ∧
      vldEncode [0, 1, 2] = .ok [0, 0, 0, 3, 1, 0x2D] := by decide

/-- E4 cut to 3, 4 and 5 bytes. -/
theorem test_meets_EveryTruncatedStreamFails :
    (∀ v ∈ ([0, 1, 2] : List Int), InInt32 v) ∧ ([0, 1, 2] : List Int).length < 2 ^ 32 ∧
      vldEncode [0, 1, 2] = .ok [0, 0, 0, 3, 1, 0x2D] ∧ 3 < 4 ∧ 4 = 4 ∧ 5 ≤ 5 ∧ 5 < ([0, 0, 0, 3, 1, 0x2D] : List Byte).length := by
  decide

/-- V3 and V4: bytes after the stream, and padding of ones. -/
theorem test_meets_DecoderIgnoresWhatFollows :
    vldDecode [0, 0, 0, 1, 0, 0x80] = .ok ⟨[⟨-1, -1, 1⟩], 0⟩ ∧
      (bitsOf [0, 0, 0, 1, 0, 0xFF]).take (40 + ((Decoded.mk [⟨-1, -1, 1⟩] 0).widths.map (fun w => 0 + w)).sum) =
        (bitsOf [0, 0, 0, 1, 0, 0x80]).take (40 + ((Decoded.mk [⟨-1, -1, 1⟩] 0).widths.map (fun w => 0 + w)).sum) := by decide

/-- F2, F3, F10, and a stream of one element of width 4. -/
theorem test_meets_MalformedHeadersFail :
    ([0, 0, 0] : List Byte).length < 4 ∧ ([0, 0, 0, 1] : List Byte).length = 4 ∧ 5 ≤ ([0, 0, 0, 0, 6] : List Byte).length ∧
      5 < (([0, 0, 0, 0, 6] : List Byte).getD 4 0).toNat ∧
      vldDecodeCap (some 1) [0, 0, 0, 1, 2, 0xC0] = .ok ⟨[⟨0, 0, 4⟩], 2⟩ := by decide

/-- V1, with a capacity that it fills. -/
theorem test_meets_DecodedStreamIsWellTyped : vldDecodeCap (some 1) [0, 0, 0, 1, 2, 0xC0] = .ok ⟨[⟨0, 0, 4⟩], 2⟩ := by decide

/-- Streams of one more element than decodes: its code cut short, its delta cut short, its sum out of range, it does not fit, and it
is good (fields at code width 2, 2, 5, 2 and 2). -/
theorem test_meets_DecoderFailsAtTheFirstBadElement :
    5 ≤ ([0, 0, 0, 1, 2] : List Byte).length ∧ (([0, 0, 0, 1, 2] : List Byte).getD 4 0).toNat ≤ 5 ∧
    (0 < unbe32 [0, 0, 0, 1, 2] ∧ vldDecodeCap none (be32 0 ++ [2]) = .ok ⟨[], 2⟩ ∧ (bitsOf [0, 0, 0, 1, 2]).length < 40 + 2) ∧
    (let rest := (bitsOf [0, 0, 0, 2, 2, 0xD7]).drop (40 + 6)
     1 < unbe32 [0, 0, 0, 2, 2, 0xD7] ∧ vldDecodeCap none (be32 1 ++ [2, 0xD7]) = .ok ⟨[⟨5, 5, 4⟩], 2⟩ ∧
       2 ≤ rest.length ∧ rest.length < 2 + (uval (rest.take 2) + 1)) ∧
    (let bs : List Byte := [0, 0, 0, 2, 5, 0xFB, 0xFF, 0xFF, 0xFF, 0xF8, 0x50]
     let rest := (bitsOf bs).drop (40 + 37)
     1 < unbe32 bs ∧ vldDecodeCap none (be32 1 ++ bs.drop 4) = .ok ⟨[⟨2147483647, 2147483647, 32⟩], 5⟩ ∧
       5 + (uval (rest.take 5) + 1) ≤ rest.length ∧
       ¬InInt32 (2147483647 + sext (uval (rest.take 5) + 1) (uval ((rest.drop 5).take (uval (rest.take 5) + 1))))) ∧
    (let rest := (bitsOf [0, 0, 0, 2, 2, 0xD4, 0x80]).drop (40 + 6)
     1 < unbe32 [0, 0, 0, 2, 2, 0xD4, 0x80] ∧ vldDecodeCap (some 1) (be32 1 ++ [2, 0xD4, 0x80]) = .ok ⟨[⟨5, 5, 4⟩], 2⟩ ∧
       vldDecodeCap none (be32 1 ++ [2, 0xD4, 0x80]) = .ok ⟨[⟨5, 5, 4⟩], 2⟩ ∧ 2 + (uval (rest.take 2) + 1) ≤ rest.length ∧
       InInt32 (5 + sext (uval (rest.take 2) + 1) (uval ((rest.drop 2).take (uval (rest.take 2) + 1))))) := by decide

/-- V5 has two elements: it fits a capacity of 2 and not one of 1; with its count raised to 3 it lacks element 2, which a
capacity of 2 leaves the first defect and a capacity of 1 does not. -/
theorem test_meets_CapacityStopsTheDecoderAtItsElement :
    vldDecode [0, 0, 0, 2, 3, 0] = .ok ⟨[⟨0, 0, 1⟩, ⟨0, 0, 1⟩], 3⟩ ∧
      (Decoded.mk [⟨0, 0, 1⟩, ⟨0, 0, 1⟩] 3).elems.length ≤ 2 ∧ 1 < (Decoded.mk [⟨0, 0, 1⟩, ⟨0, 0, 1⟩] 3).elems.length ∧
      vldDecode [0, 0, 0, 3, 3, 0] = .error ⟨.fmtElemCode, 2⟩ ∧ (Failure.mk .fmtElemCode 2).idx ≤ 2 ∧
      1 < (Failure.mk .fmtElemCode 2).idx := by decide

/-- B1. -/
theorem test_meets_ParseInvertsAssemble :
    (Machine.Matrix.mk 2 2 [0, 1, 2] [0, 1] [1, 1]).indptr.length = 2 + 1 ∧
      (∀ a ∈ [([0, 1, 2] : List Int), [0, 1], [1, 1]],
        (∀ v ∈ a, InInt32 v) ∧ a.length < 2 ^ 32 ∧ streamLength (scan a) < 2 ^ 32) ∧
      blobAssemble ⟨2, 2, [0, 1, 2], [0, 1], [1, 1]⟩ = .ok blob ∧ 2 < 2 ^ 32 := by decide

/-- B1 cut to 37 bytes. -/
theorem test_meets_EveryTruncatedBlobFails :
    (∀ a ∈ [([0, 1, 2] : List Int), [0, 1], [1, 1]],
      (∀ v ∈ a, InInt32 v) ∧ a.length < 2 ^ 32 ∧ streamLength (scan a) < 2 ^ 32) ∧
      blobAssemble ⟨2, 2, [0, 1, 2], [0, 1], [1, 1]⟩ = .ok blob ∧ 37 < blob.length := by decide

/-- B4: three empty arrays. -/
theorem test_meets_BlobLayout :
    (Machine.Matrix.mk 0 0 [] [] []).rows < 2 ^ 32 ∧
      (∀ a ∈ [([] : List Int), [], []], (∀ v ∈ a, InInt32 v) ∧ a.length < 2 ^ 32) ∧
      (∀ e ∈ [([0, 0, 0, 0, 0] : List Byte), [0, 0, 0, 0, 0], [0, 0, 0, 0, 0]], e.length < 2 ^ 32) ∧
      vldEncode (Machine.Matrix.mk 0 0 [] [] []).indptr = .ok [0, 0, 0, 0, 0] := by decide

/-- Q1 at 7 bytes and Q8; field 0 of B1 without its prefix (8 and 11 bytes), without its body (12) and with a window that fails;
each of the fields whole; and B1 itself. -/
theorem test_meets_ParserChecksAndIgnores :
    (blob.take 7).length < 8 ∧
    (8 ≤ (blob.take 8).length ∧ ((blob.take 11).drop 8).length < 4) ∧
    (4 ≤ ((blob.take 12).drop 8).length ∧ ((blob.take 12).drop 8).length - 4 < unbe32 ((blob.take 12).drop 8)) ∧
    (4 ≤ (blob.drop 8).length ∧ unbe32 (blob.drop 8) ≤ (blob.drop 8).length - 4) ∧
    vldDecodeCap none ((((blob.set 16 6).drop 8).drop 4).take (unbe32 ((blob.set 16 6).drop 8))) = .error ⟨.fmtWfbRange, 0⟩ ∧
    vldDecodeCap none (((blob.drop 8).drop 4).take (unbe32 (blob.drop 8))) = .ok ⟨[⟨0, 0, 1⟩, ⟨1, 1, 2⟩, ⟨2, 1, 2⟩], 1⟩ ∧
    (Decoded.mk [⟨0, 0, 1⟩, ⟨1, 1, 2⟩, ⟨2, 1, 2⟩] 1).elems.length ≠ unbe32 (blob.set 3 3) + 1 ∧
    (Decoded.mk [⟨0, 0, 1⟩, ⟨1, 1, 2⟩, ⟨2, 1, 2⟩] 1).elems.length = unbe32 blob + 1 :=
  ⟨by decide, by decide, by decide, by decide, by decide, by decide +kernel, by decide, by decide⟩

/-- The same for fields 1 (10 bytes on) and 2 (20 bytes on), at the prefix, the body and a window that fails. -/
theorem test_meets_ParserChecksAndIgnores_later_fields :
    (blob.drop 8).drop (4 + unbe32 (blob.drop 8)) = blob.drop 18 ∧ (blob.drop 18).drop (4 + unbe32 (blob.drop 18)) = blob.drop 28 ∧
    (((blob.take 21).drop 18).length < 4 ∧ ((blob.take 31).drop 28).length < 4) ∧
    ((4 ≤ ((blob.take 22).drop 18).length ∧ ((blob.take 22).drop 18).length - 4 < unbe32 ((blob.take 22).drop 18)) ∧
      (4 ≤ ((blob.take 32).drop 28).length ∧ ((blob.take 32).drop 28).length - 4 < unbe32 ((blob.take 32).drop 28))) ∧
    ((4 ≤ (blob.drop 18).length ∧ unbe32 (blob.drop 18) ≤ (blob.drop 18).length - 4) ∧
      (4 ≤ (blob.drop 28).length ∧ unbe32 (blob.drop 28) ≤ (blob.drop 28).length - 4)) ∧
    (vldDecodeCap none ((((blob.set 26 6).drop 18).drop 4).take (unbe32 ((blob.set 26 6).drop 18))) = .error ⟨.fmtWfbRange, 0⟩ ∧
      vldDecodeCap none ((((blob.set 36 6).drop 28).drop 4).take (unbe32 ((blob.set 36 6).drop 28))) = .error ⟨.fmtWfbRange, 0⟩) ∧
    (vldDecodeCap none (((blob.drop 18).drop 4).take (unbe32 (blob.drop 18))) = .ok ⟨[⟨0, 0, 1⟩, ⟨1, 1, 2⟩], 1⟩ ∧
      vldDecodeCap none (((blob.drop 28).drop 4).take (unbe32 (blob.drop 28))) = .ok ⟨[⟨1, 1, 2⟩, ⟨1, 0, 1⟩], 1⟩) :=
  ⟨by decide, by decide, ⟨by decide, by decide⟩, ⟨by decide, by decide⟩, by decide, ⟨by decide +kernel, by decide +kernel⟩,
    by decide +kernel, by decide +kernel⟩

/-- The operand 2^31 - 1 and the operand 2^31. -/
theorem test_meets_BwcWritesWidthAndClamp :
    InInt32 (((0x7FFFFFFF#32).toNat : Int) - 2 ^ 32 * (0#1).toNat) ∧
      ¬InInt32 (((0x80000000#32).toNat : Int) - 2 ^ 32 * (0#1).toNat) := by decide

/-- A bank filled to its capacity of 4, with a delta outside INT32. -/
theorem test_meets_DencWritesTheScan :
    bankOf 1#2 = some .b1 ∧
      ((bankOne [3, 1, -2147483648, 2147483647]).seqLen .b1).toNat ≤ (bankOne [3, 1, -2147483648, 2147483647]).capSeq.toNat := by
  decide

theorem test_meets_DencTrapsOnLength :
    bankOf 1#2 = some .b1 ∧
      ({ tiny [] with seqLen1 := 5#32 } : State).capSeq.toNat < (({ tiny [] with seqLen1 := 5#32 } : State).seqLen .b1).toNat := by
  decide

theorem test_meets_VencWritesTheStream :
    bankOf 1#2 = some .b1 ∧ ((bankOne [7, 7, 7]).seqLen .b1).toNat ≤ (bankOne [7, 7, 7]).capSeq.toNat ∧
      (∀ d ∈ delta ((bankOne [7, 7, 7]).source .b1), InInt32 d) ∧
      streamLength (scan ((bankOne [7, 7, 7]).source .b1)) ≤ (bankOne [7, 7, 7]).capBuf.toNat := by decide

/-- The three clauses: a length of 5; X3 at index 2; E11 with a BUF of 9 bytes. -/
theorem test_meets_VencTraps :
    (({ tiny [] with seqLen1 := 5#32 } : State).capSeq.toNat < (({ tiny [] with seqLen1 := 5#32 } : State).seqLen .b1).toNat) ∧
    (((bankOne [0, -2147483648, 0]).seqLen .b1).toNat ≤ (bankOne [0, -2147483648, 0]).capSeq.toNat ∧
      2 < ((bankOne [0, -2147483648, 0]).seqLen .b1).toNat ∧ ¬InInt32 (deltaAt ((bankOne [0, -2147483648, 0]).source .b1) 2) ∧
      ∀ i, i < 2 → InInt32 (deltaAt ((bankOne [0, -2147483648, 0]).source .b1) i)) ∧
    ((∀ d ∈ delta ((State.writeBank { tiny [] with capBuf := 9#32 } .b1 [2147483647]).source .b1), InInt32 d) ∧
      (State.writeBank { tiny [] with capBuf := 9#32 } .b1 [2147483647]).capBuf.toNat <
        streamLength (scan ((State.writeBank { tiny [] with capBuf := 9#32 } .b1 [2147483647]).source .b1))) := by decide

theorem test_meets_VdecWritesTheSequence :
    bankOf 2#2 = some .b2 ∧ (bytes [0, 0, 0, 1, 2, 0xC0]).bufLen.toNat ≤ (bytes [0, 0, 0, 1, 2, 0xC0]).capBuf.toNat ∧
      vldDecodeCap (some (bytes [0, 0, 0, 1, 2, 0xC0]).capSeq.toNat) (bytes [0, 0, 0, 1, 2, 0xC0]).bufSource =
        .ok ⟨[⟨0, 0, 4⟩], 2⟩ := by decide

theorem test_meets_VdecTraps :
    (({ tiny [] with bufLen := 41#32 } : State).capBuf.toNat < ({ tiny [] with bufLen := 41#32 } : State).bufLen.toNat) ∧
    ((bytes [0, 0, 0, 5, 0, 0xF8]).bufLen.toNat ≤ (bytes [0, 0, 0, 5, 0, 0xF8]).capBuf.toNat ∧
      vldDecodeCap (some (bytes [0, 0, 0, 5, 0, 0xF8]).capSeq.toNat) (bytes [0, 0, 0, 5, 0, 0xF8]).bufSource =
        .error ⟨.capSeq, 4⟩) := by decide

/-- U4. -/
theorem test_meets_DdecWritesTheRunningSum :
    (deltas [-2147483648, 4294967295]).dltLen.toNat ≤ (deltas [-2147483648, 4294967295]).capSeq.toNat ∧
      ∀ i, i < 2 → InInt32 ((deltas [-2147483648, 4294967295]).deltaSource.take (i + 1)).sum := by decide

/-- A length of 5; U7 at index 1. -/
theorem test_meets_DdecTraps :
    (({ tiny [] with dltLen := 5#32 } : State).capSeq.toNat < ({ tiny [] with dltLen := 5#32 } : State).dltLen.toNat) ∧
    ((deltas [1, 2147483647]).dltLen.toNat ≤ (deltas [1, 2147483647]).capSeq.toNat ∧ 1 < (deltas [1, 2147483647]).dltLen.toNat ∧
      ¬InInt32 ((deltas [1, 2147483647]).deltaSource.take 2).sum ∧
      ∀ i, i < 1 → InInt32 ((deltas [1, 2147483647]).deltaSource.take (i + 1)).sum) := by decide

/-- B1; the state also meets the hypotheses of BasmThenBparRestoresTheMatrix. -/
theorem test_meets_BasmWritesTheBlob :
    (∀ b, (matrix.seqLen b).toNat ≤ matrix.capSeq.toNat) ∧ (∀ b, ∀ d ∈ delta (matrix.source b), InInt32 d) ∧
      20 + streamLength (scan (matrix.source .b0)) + streamLength (scan (matrix.source .b1)) +
        streamLength (scan (matrix.source .b2)) ≤ matrix.capBuf.toNat ∧ matrix.seqLen0.toNat = matrix.rowsVal.toNat + 1 :=
  ⟨fun b => by cases b <;> decide, fun b => by cases b <;> decide, by decide, by decide⟩

/-- K6 (bank 1 and bank 2 both too long, bank 1 is named); Q14; a BUF of 37 bytes. -/
theorem test_meets_BasmTraps :
    (({ matrix with seqLen1 := 7#32, seqLen2 := 5#32 } : State).capSeq.toNat <
        (({ matrix with seqLen1 := 7#32, seqLen2 := 5#32 } : State).seqLen .b1).toNat ∧
      ∀ c, bankNumber c < bankNumber .b1 →
        (({ matrix with seqLen1 := 7#32, seqLen2 := 5#32 } : State).seqLen c).toNat ≤
          ({ matrix with seqLen1 := 7#32, seqLen2 := 5#32 } : State).capSeq.toNat) ∧
    ((∀ b, ((matrix.writeBank .b1 [0, -2147483648, 1]).seqLen b).toNat ≤ 4) ∧
      2 < ((matrix.writeBank .b1 [0, -2147483648, 1]).seqLen .b1).toNat ∧
      ¬InInt32 (deltaAt ((matrix.writeBank .b1 [0, -2147483648, 1]).source .b1) 2) ∧
      (∀ i, i < 2 → InInt32 (deltaAt ((matrix.writeBank .b1 [0, -2147483648, 1]).source .b1) i)) ∧
      ∀ c, bankNumber c < bankNumber .b1 → ∀ d ∈ delta ((matrix.writeBank .b1 [0, -2147483648, 1]).source c), InInt32 d) ∧
    ({ matrix with capBuf := 37#32 } : State).capBuf.toNat <
      20 + streamLength (scan (({ matrix with capBuf := 37#32 } : State).source .b0)) +
        streamLength (scan (({ matrix with capBuf := 37#32 } : State).source .b1)) +
        streamLength (scan (({ matrix with capBuf := 37#32 } : State).source .b2)) := by
  refine ⟨⟨by decide, fun c => ?_⟩, ⟨fun b => ?_, by decide, by decide, by decide, fun c => ?_⟩, by decide⟩
  · cases c <;> decide
  · cases b <;> decide
  · cases c <;> decide

theorem test_meets_BparWritesTheMatrix :
    (bytes blob).bufLen.toNat ≤ (bytes blob).capBuf.toNat ∧
      blobParseCap (some (bytes blob).capSeq.toNat) (bytes blob).bufSource =
        .ok ⟨2, 2, ⟨[⟨0, 0, 1⟩, ⟨1, 1, 2⟩, ⟨2, 1, 2⟩], 1⟩, ⟨[⟨0, 0, 1⟩, ⟨1, 1, 2⟩], 1⟩, ⟨[⟨1, 1, 2⟩, ⟨1, 0, 1⟩], 1⟩⟩ := by decide

theorem test_meets_BparTraps :
    (({ tiny [] with bufLen := 41#32 } : State).capBuf.toNat < ({ tiny [] with bufLen := 41#32 } : State).bufLen.toNat) ∧
      blobParseCap (some (bytes (blob.set 3 3)).capSeq.toNat) (bytes (blob.set 3 3)).bufSource = .error ⟨.fmtBlobIndptr, 0, 0⟩ := by
  decide

theorem test_meets_VencThenVdecRestoresTheSequence :
    bankOf 1#2 = some .b1 ∧ bankOf 2#2 = some .b2 ∧ ((bankOne [7, 7, 7]).seqLen .b1).toNat ≤ (bankOne [7, 7, 7]).capSeq.toNat ∧
      (∀ d ∈ delta ((bankOne [7, 7, 7]).source .b1), InInt32 d) ∧
      streamLength (scan ((bankOne [7, 7, 7]).source .b1)) ≤ (bankOne [7, 7, 7]).capBuf.toNat := by decide

theorem test_meets_DencThenDdecRestoresTheSequence :
    bankOf 1#2 = some .b1 ∧ bankOf 0#2 = some .b0 ∧
      ((bankOne [-2147483648, 2147483647]).seqLen .b1).toNat ≤ (bankOne [-2147483648, 2147483647]).capSeq.toNat := by decide

theorem test_meets_CommandsWriteOnlyTheirRow :
    (∃ t, exec .bwc (tiny []) = .next t) ∧ (∃ t, exec (.ddec 1#2) (tiny []) = .next t) ∧
      ∀ f, bankOf f = some .b0 → Instr.vdec 1#2 ≠ .vdec f ∧ Instr.vdec 1#2 ≠ .ddec f := by
  refine ⟨⟨_, rfl⟩, ⟨_, rfl⟩, by decide⟩

theorem test_meets_ExceptionsFollowTheTables :
    (tiny []).err = false ∧ (∃ t, exec (.vdec 0#2) (tiny []) = .next t ∧ t.err = true) ∧
      ∃ t, exec (.vdec 3#2) (tiny []) = .next t ∧ t.err = true :=
  ⟨rfl, ⟨_, rfl, by decide⟩, ⟨_, rfl, by decide⟩⟩

theorem test_meets_SpecifiedSourcesFixTheResult :
    sourcesSpecified .basm matrix ∧ ∃ t, exec .basm matrix = .next t := by
  refine ⟨⟨fun b => ?_, by decide, by decide⟩, ?_⟩
  · cases b <;> (unfold bankSpecified; decide)
  · rcases Laws.execBasm_cases matrix with ⟨_, _, e⟩ | ⟨_, _, _, e⟩ | ⟨_, _, _, e⟩ | ⟨_, _, _, e⟩ <;> exact ⟨_, e⟩

end Sys2Proof.Tests
end

section
/-! Bit and byte order (R3, R8): where a bit of a byte string sits, the two layouts as inverses, and the 32-bit field as
the bytes of `be32`. -/

namespace Sys2Proof.Proofs

open Sys2Proof Sys2Proof.Machine Sys2Proof.Laws

/-- A bit string of a number starts with its most significant bit. -/
theorem getD_ubits {i k : Nat} (v : Nat) (h : i < k) : (ubits k v).getD i false = v.testBit (k - 1 - i) := by
  induction k generalizing i with
  | zero => omega
  | succ k ih =>
    cases i with
    | zero => rfl
    | succ i => rw [ubits, List.getD_cons_succ, ih (by omega), show k + 1 - 1 - (i + 1) = k - 1 - i by omega]

theorem ubits_add (j k v : Nat) : ubits (j + k) v = ubits j (v / 2 ^ k) ++ ubits k v := by
  induction j with
  | zero => rw [Nat.zero_add]; rfl
  | succ j ih => rw [Nat.succ_add, ubits, ubits, ih, Nat.testBit_div_two_pow, List.cons_append]

theorem ubits_mod_two_pow (k v : Nat) : ubits k (v % 2 ^ k) = ubits k v := by
  rw [← ubits_add_mul (v / 2 ^ k) (Nat.mod_lt v (Nat.two_pow_pos k)), Nat.mul_comm, Nat.div_add_mod]

/-- R3: where bit `k` of a byte string sits. Past the end both sides read as 0. -/
theorem getD_bitsOf (bs : List Byte) (k : Nat) :
    (bitsOf bs).getD k false = (bs.getD (k / 8) 0).getLsbD (7 - k % 8) := by
  induction bs generalizing k with
  | nil => simp
  | cons b bs ih =>
    rw [bitsOf_cons]
    by_cases hk : k < 8
    · rw [List.getD_append _ _ _ _ (by simpa using hk), getD_ubits _ hk, Nat.div_eq_of_lt hk, Nat.mod_eq_of_lt hk]
      rfl
    · have hdiv : k / 8 = (k - 8) / 8 + 1 := by omega
      have hmod : k % 8 = (k - 8) % 8 := by omega
      rw [List.getD_append_right _ _ _ _ (by simpa using hk), length_ubits, ih, hdiv, hmod, List.getD_cons_succ]

theorem bytesOf_bitsOf (bs : List Byte) : bytesOf (bitsOf bs) = bs := by
  induction bs with
  | nil => rfl
  | cons b bs ih =>
    rw [bitsOf_cons, bytesOf_eight (length_ubits 8 _), uval_ubits b.isLt, BitVec.ofNat_toNat, BitVec.setWidth_eq, ih]

/-- R8: `be32` lays a number as the 32-bit field is laid. -/
theorem bitsOf_be32 (v : Nat) : bitsOf (be32 v) = ubits 32 v := by
  have hsplit : ubits 32 v = ubits 8 (v / 2 ^ 24) ++ (ubits 8 (v / 2 ^ 16) ++ (ubits 8 (v / 2 ^ 8) ++ ubits 8 v)) := by
    rw [ubits_add 8 24, ubits_add 8 16, ubits_add 8 8]
  rw [hsplit]
  simp only [be32, bitsOf_cons, bitsOf_nil, List.append_nil, BitVec.toNat_ofNat, ubits_mod_two_pow]

theorem unbe32_be32_append {v : Nat} (h : v < 2 ^ 32) (rest : List Byte) : unbe32 (be32 v ++ rest) = v :=
  (congrArg Prod.fst (takeWord_some (takeWord_be32 h rest)).2).symm

theorem map_toNat_be32 {v : Nat} (h : v < 2 ^ 32) :
    (be32 v).map BitVec.toNat = [v / 2 ^ 24, v / 2 ^ 16 % 2 ^ 8, v / 2 ^ 8 % 2 ^ 8, v % 2 ^ 8] := by
  have htop : v / 2 ^ 24 % 2 ^ 8 = v / 2 ^ 24 := Nat.mod_eq_of_lt (by omega)
  simp only [be32, List.map_cons, List.map_nil, BitVec.toNat_ofNat, htop]

/-- Settles O21: each bit is located through `bitsOf`, which inverts `bytesOf` on whole bytes; `be32` is the byte form of
the 32-bit field. -/
theorem bitAndByteOrder : Obligations.BitAndByteOrder := by
  refine ⟨fun s hs => ?_, fun bs => ⟨bytesOf_bitsOf bs, length_bitsOf bs⟩, fun _ _ _ _ _ => rfl,
    fun v hv => ⟨map_toNat_be32 hv, unbe32_be32_append hv, ?_⟩⟩
  · have hlen : s.length = 8 * (s.length / 8) := by omega
    have hinv : bitsOf (bytesOf s) = s := bitsOf_bytesOf _ s hlen
    exact ⟨fun k _ => by rw [← getD_bitsOf, hinv], by rw [← length_bitsOf, hinv], hinv⟩
  · rw [← bitsOf_be32, bytesOf_bitsOf]

end Sys2Proof.Proofs
end

section
/-! The state right after reset (R32), field group by field group, for every capacity and every value of the model's own
fields. -/

namespace Sys2Proof.Proofs

open Sys2Proof Sys2Proof.Machine Sys2Proof.Laws

variable (capSeq capBuf : Word) (es : List Event) (vs : List PortValue) (n : Nat)

/-- R26, R32: the registers below the capacities. None of them draws a free value, since ROWS, COLS, MAXW and WFB hold 0. -/
theorem readReg_resetWith_of_lt {r : Nat} (h : r < 0x12) : (State.resetWith capSeq capBuf es vs n).readReg r = 0 := by
  interval_cases r <;> rfl

@[simp] theorem readReg_resetWith_capSeq : (State.resetWith capSeq capBuf es vs n).readReg 0x12 = capSeq := rfl

@[simp] theorem readReg_resetWith_capBuf : (State.resetWith capSeq capBuf es vs n).readReg 0x13 = capBuf := rfl

@[simp] theorem seq_resetWith (b : Bank) : (State.resetWith capSeq capBuf es vs n).seq b = [] := by
  cases b <;> rfl

@[simp] theorem dlt_resetWith : (State.resetWith capSeq capBuf es vs n).dlt = [] := rfl

@[simp] theorem wid_resetWith : (State.resetWith capSeq capBuf es vs n).wid = [] := rfl

@[simp] theorem buf_resetWith : (State.resetWith capSeq capBuf es vs n).buf = [] := rfl

@[simp] theorem busy_resetWith : (State.resetWith capSeq capBuf es vs n).busy = false := BitVec.getLsbD_zero

/-- R31, R32: every memory is empty after reset, so no element of it has a value. -/
theorem get_seq_resetWith (b : Bank) (i : Nat) : ((State.resetWith capSeq capBuf es vs n).seq b).get i = none := by
  rw [seq_resetWith, get_nil]

theorem get_dlt_wid_buf_resetWith (i : Nat) :
    (State.resetWith capSeq capBuf es vs n).dlt.get i = none ∧ (State.resetWith capSeq capBuf es vs n).wid.get i = none ∧
      Memory.get (w := 8) (State.resetWith capSeq capBuf es vs n).buf i = none := by
  rw [dlt_resetWith, wid_resetWith, buf_resetWith]
  exact ⟨get_nil i, get_nil i, get_nil i⟩

/-- Settles O1: `State.reset` is `State.resetWith` at the capacities of `Config`; the rest is one lemma per register group
and per memory. -/
theorem resetGivesTheStatedValues : Obligations.ResetGivesTheStatedValues :=
  ⟨⟨Config.seqCap, Config.bufCap, [], [], 0, rfl⟩, fun capSeq capBuf es vs n =>
    ⟨fun _ => readReg_resetWith_of_lt capSeq capBuf es vs n, readReg_resetWith_capSeq capSeq capBuf es vs n,
      readReg_resetWith_capBuf capSeq capBuf es vs n, get_seq_resetWith capSeq capBuf es vs n,
      get_dlt_wid_buf_resetWith capSeq capBuf es vs n, busy_resetWith capSeq capBuf es vs n⟩⟩

end Sys2Proof.Proofs
end

section
/-! Host accesses that leave the machine as it is: every read, every write while the engine is busy (R47), and a write that
reaches no element, out of range or to WID (R16, R53). Each is served as the tick of the state, a read with the value it
returned recorded. -/

namespace Sys2Proof.Proofs

open Sys2Proof Sys2Proof.Machine Sys2Proof.Laws

variable {s : State}

/-- A read of STATUS returns it whatever the engine does; any register read only records a word. -/
theorem step_regRead {r : Nat} (he : s.nextEvent = .regRead r) :
    ∃ v, step s = .next (s.tick.observe (.word v)) ∧ (r = 0x01 → v = s.status.setWidth 32) := by
  rw [step_eq s he, serve]
  rcases hostRegRead_cases s.tick r with ⟨_, hr, h⟩ | ⟨_, h⟩
  · exact ⟨_, congrArg _ h, fun h1 => absurd h1 hr⟩
  · exact ⟨_, congrArg _ h, by rintro rfl; rfl⟩

/-- In range or not, busy or idle. -/
theorem step_memRead {sp : Space} {i : Nat} (he : s.nextEvent = .memRead sp i) :
    ∃ v, step s = .next (s.tick.observe v) := by
  rw [step_eq s he, serve]
  rcases hostMemRead_cases s.tick sp i with ⟨_, h⟩ | ⟨_, _, h⟩ <;> exact ⟨_, congrArg _ h⟩

theorem step_regWrite_busy (hb : s.busy = true) {r : Nat} {v : Word} (he : s.nextEvent = .regWrite r v) :
    step s = .next s.tick := by
  rw [step_eq s he, serve, (host_write_busy s.tick hb r v (.wid 0 0)).1]

theorem step_memWrite_busy (hb : s.busy = true) {e : ElementWrite} (he : s.nextEvent = .memWrite e) :
    step s = .next s.tick := by
  rw [step_eq s he, serve, (host_write_busy s.tick hb 0 0 e).2]

/-- The host may write the element: its index is in the range of its space, and the space is not WID (R16, R53). -/
def reachesElement (s : State) : ElementWrite → Prop
  | .seq _ i _ => i < s.capSeq.toNat
  | .dlt i _ => i < s.capSeq.toNat
  | .wid _ _ => False
  | .buf i _ => i < s.capBuf.toNat

theorem hostMemWrite_of_not_reachesElement {e : ElementWrite} (h : ¬ reachesElement s e) : hostMemWrite e s = s := by
  rcases hostMemWrite_cases s e with hs | ⟨_, ⟨b, i, v, rfl, hi, _⟩ | ⟨i, v, rfl, hi, _⟩ | ⟨i, v, rfl, hi, _⟩⟩
  · exact hs
  all_goals exact absurd hi h

theorem step_memWrite_of_not_reachesElement {e : ElementWrite} (he : s.nextEvent = .memWrite e) (h : ¬ reachesElement s e) :
    step s = .next s.tick := by
  have hkept : hostMemWrite e s.tick = s.tick := hostMemWrite_of_not_reachesElement (by cases e <;> exact h)
  rw [step_eq s he, serve, hkept]

/-- Settles O15: by the event. A read is the tick of the state with a value recorded, a write is the tick alone. -/
theorem busyHostAccessesDisturbNothing : Obligations.BusyHostAccessesDisturbNothing := by
  intro s hb hreset hengine
  cases he : s.nextEvent with
  | regRead r =>
    obtain ⟨v, hstep, hstatus⟩ := step_regRead he
    refine ⟨_, hstep, rfl, ?_, fun _ _ => ⟨v, rfl⟩, nofun, nofun, nofun⟩
    rintro ⟨⟩
    rw [observe_observed, hstatus rfl, tick_observed]
  | memRead sp i =>
    obtain ⟨v, hstep⟩ := step_memRead he
    exact ⟨_, hstep, rfl, nofun, nofun, fun _ _ _ => ⟨v, rfl⟩, nofun, nofun⟩
  | regWrite r v => exact ⟨_, step_regWrite_busy hb he, rfl, nofun, nofun, nofun, fun _ _ _ => rfl, nofun⟩
  | memWrite e => exact ⟨_, step_memWrite_busy hb he, rfl, nofun, nofun, nofun, nofun, fun _ _ => rfl⟩
  | reset => exact absurd he hreset
  | engine => exact absurd he hengine

/-- Settles O19: none of the four writes reaches an element, and a memory read at any index only records a value. -/
theorem outOfRangeAccessesDoNothing : Obligations.OutOfRangeAccessesDoNothing := fun _ _ =>
  ⟨fun _ _ he hi => step_memWrite_of_not_reachesElement he (not_lt.2 hi),
    fun _ he hi => step_memWrite_of_not_reachesElement he (not_lt.2 hi),
    fun _ he hi => step_memWrite_of_not_reachesElement he (not_lt.2 hi),
    fun _ he => step_memWrite_of_not_reachesElement he not_false, fun _ he _ => step_memRead he⟩

end Sys2Proof.Proofs
end

section
/-! The decoder of command words over the fields as numbers (R82), and the engine's turn on an illegal word (R180). -/

namespace Sys2Proof.Proofs

open Sys2Proof Sys2Proof.Machine Sys2Proof.Laws

theorem toNat_opField (w : Word) : (opField w).toNat = w.toNat % 2 ^ 8 := by
  simp [opField]

theorem toNat_bankField (w : Word) : (bankField w).toNat = w.toNat / 2 ^ 8 % 4 := by
  simp [bankField, Nat.shiftRight_eq_div_pow]

theorem toNat_zeroField (w : Word) : (zeroField w).toNat = w.toNat / 2 ^ 10 := by
  have hlt : w.toNat / 2 ^ 10 < 2 ^ 22 := by omega
  simpa [zeroField, Nat.shiftRight_eq_div_pow] using hlt

theorem zeroField_eq_zero (w : Word) : zeroField w = 0#22 ↔ w.toNat / 2 ^ 10 = 0 := by
  rw [BitVec.toNat_eq, toNat_zeroField, BitVec.toNat_ofNat, Nat.zero_mod]

/-- The table of R62: the command with operation code `op`, its BANK field tested. -/
def decodeOp (w : Word) (op : Nat) : Except Illegal Instr :=
  match op with
  | 0x01 => withoutBank w .bwc
  | 0x02 => withBank w .denc
  | 0x03 => withBank w .venc
  | 0x04 => withBank w .vdec
  | 0x05 => withBank w .ddec
  | 0x06 => withoutBank w .basm
  | 0x07 => withoutBank w .bpar
  | _ => .error .opUndefined

theorem decodeOp_undefined (w : Word) {op : Nat} (h : op < 0x01 ∨ 0x07 < op) : decodeOp w op = .error .opUndefined := by
  rcases h with h | h
  · rw [Nat.lt_one_iff.1 h]; rfl
  · obtain ⟨k, rfl⟩ := Nat.exists_eq_add_of_le' h; rfl

theorem decode_of_top_ne_zero {w : Word} (h : w.toNat / 2 ^ 10 ≠ 0) : decode w = .error .zeroFieldSet :=
  if_pos ((zeroField_eq_zero w).not.2 h)

/-- With bits 31:10 clear the seven tests on OP are a look-up in the table. -/
theorem decode_of_top_eq_zero {w : Word} (h : w.toNat / 2 ^ 10 = 0) : decode w = decodeOp w (w.toNat % 2 ^ 8) := by
  rw [decode, if_neg (not_not.2 ((zeroField_eq_zero w).2 h)), ← toNat_opField]
  split_ifs with h1 h2 h3 h4 h5 h6 h7
  case neg => exact (decodeOp_undefined w (by bv_omega)).symm
  all_goals simp only [*]; rfl

theorem bankFieldOk_iff (b : BitVec 2) : bankFieldOk b = true ↔ b.toNat ≤ 2 := by
  revert b
  decide

theorem withoutBank_spec (w : Word) (i : Instr) :
    if w.toNat / 2 ^ 8 % 4 = 0 then withoutBank w i = .ok i else ∃ e, withoutBank w i = .error e := by
  rw [← toNat_bankField]
  split_ifs with h
  · exact if_pos (BitVec.eq_of_toNat_eq h)
  · exact ⟨_, if_neg fun hb => h (congrArg BitVec.toNat hb)⟩

theorem withBank_spec (w : Word) (f : BitVec 2 → Instr) :
    if w.toNat / 2 ^ 8 % 4 ≤ 2 then withBank w f = .ok (f (BitVec.ofNat 2 (w.toNat / 2 ^ 8 % 4)))
    else ∃ e, withBank w f = .error e := by
  rw [← toNat_bankField, BitVec.ofNat_toNat, BitVec.setWidth_eq]
  split_ifs with h
  · exact if_pos ((bankFieldOk_iff _).2 h)
  · exact ⟨_, if_neg ((bankFieldOk_iff _).not.2 h)⟩

theorem raiseIllegal_eq (s : State) :
    raiseIllegal s = { s with status := 0b110#3, errcode := 0x40#8, erridx := 0, errfld := 0, flags := 0 } := rfl

theorem step_of_illegal {s : State} {e : Illegal} (he : s.nextEvent = .engine) (hb : s.busy = true)
    (hd : decode s.cmd = .error e) : step s = .next (raiseIllegal s.tick) := by
  have hrun : engineTurn s.tick = runCommand s.tick := if_pos hb
  rw [step_eq s he, serve, hrun, runCommand, tick_cmd, hd]

/-- Settles O7: with bits 31:10 clear the decoder is the table of operation codes, each row with its test of BANK; an illegal
word's turn is exception entry with no destination. -/
theorem decoderFollowsTheFieldTests : Obligations.DecoderFollowsTheFieldTests := by
  intro w top bank op
  have row {k : Nat} (htop : top = 0) (hop : op = k) : decode w = decodeOp w k := hop ▸ decode_of_top_eq_zero htop
  refine ⟨fun h => ⟨_, decode_of_top_ne_zero h⟩, fun h => ?_,
    fun ht ho => row ht ho ▸ withoutBank_spec w _, fun ht ho => row ht ho ▸ withoutBank_spec w _,
    fun ht ho => row ht ho ▸ withoutBank_spec w _, fun ht ho => row ht ho ▸ withBank_spec w _,
    fun ht ho => row ht ho ▸ withBank_spec w _, fun ht ho => row ht ho ▸ withBank_spec w _,
    fun ht ho => row ht ho ▸ withBank_spec w _, ?_⟩
  · by_cases ht : top = 0
    · exact ⟨_, (row ht rfl).trans (decodeOp_undefined w h)⟩
    · exact ⟨_, decode_of_top_ne_zero ht⟩
  · rintro e s hd rfl hb he
    rw [step_of_illegal he hb hd, raiseIllegal_eq, State.tick]

end Sys2Proof.Proofs
end

section
/-! The layout of an assembled blob (R75, R76): the fields of `blobBytes` in order, each located by the bytes before it. -/

namespace Sys2Proof.Proofs

open Sys2Proof Sys2Proof.Machine Sys2Proof.Laws

theorem vldEncode_ok {x : List Int} {e : List Byte} (h : vldEncode x = .ok e) : e = vldStream x := by
  unfold vldEncode at h
  split at h
  · cases h
  · cases h; rfl

/-- R65: a stream has at least its header. -/
theorem five_le_length_of_vldEncode {x : List Int} {e : List Byte} (h : vldEncode x = .ok e) : 5 ≤ e.length := by
  rw [vldEncode_ok h, length_vldStream, streamLength, bytesFor]
  omega

theorem encodeField_of_ok (k : Nat) {a : List Int} {e : List Byte} (h : vldEncode a = .ok e) : encodeField k a = .ok e := by
  rw [encodeField, h]

theorem blobAssemble_of_ok {m : Matrix} {e0 e1 e2 : List Byte} (h0 : vldEncode m.indptr = .ok e0)
    (h1 : vldEncode m.indices = .ok e1) (h2 : vldEncode m.data = .ok e2) :
    blobAssemble m = .ok (blobBytes m.rows m.cols e0 e1 e2) := by
  simp only [blobAssemble, encodeField_of_ok _ h0, encodeField_of_ok _ h1, encodeField_of_ok _ h2]

theorem length_blobBytes (rows cols : Nat) (e0 e1 e2 : List Byte) :
    (blobBytes rows cols e0 e1 e2).length = 20 + e0.length + e1.length + e2.length := by
  simp only [blobBytes, prefixed, List.length_append, length_be32]
  omega

/-- The piece of a byte string at offset `n`, and what follows it. -/
theorem take_drop_of_drop_eq {l x rest : List Byte} {n k : Nat} (h : l.drop n = x ++ rest) (hk : x.length = k) :
    (l.drop n).take k = x ∧ l.drop (n + k) = rest := by
  rw [← List.drop_drop, h]
  exact ⟨List.take_left' hk, List.drop_left' hk⟩

/-- Settles O39: the offsets are walked from the front, each field leaving the bytes after it for the next. -/
theorem blobLayout : Obligations.BlobLayout := by
  intro m e0 e1 e2 _ _ _ _ h0 h1 h2
  have hlen := length_blobBytes m.rows m.cols e0 e1 e2
  have hsplit : (blobBytes m.rows m.cols e0 e1 e2).drop 0 =
      be32 m.rows ++ (be32 m.cols ++ (be32 e0.length ++ (e0 ++ (be32 e1.length ++ (e1 ++ (be32 e2.length ++ e2)))))) := by
    simp only [blobBytes, prefixed, List.drop_zero, List.append_assoc]
  refine ⟨_, blobAssemble_of_ok h0 h1 h2, ?_, hlen, ?_⟩
  · have hmin0 := five_le_length_of_vldEncode h0
    have hmin1 := five_le_length_of_vldEncode h1
    have hmin2 := five_le_length_of_vldEncode h2
    omega
  · obtain ⟨rowsAt, hrest⟩ := take_drop_of_drop_eq hsplit (length_be32 _)
    obtain ⟨colsAt, hrest⟩ := take_drop_of_drop_eq hrest (length_be32 _)
    obtain ⟨len0At, hrest⟩ := take_drop_of_drop_eq hrest (length_be32 _)
    obtain ⟨e0At, hrest⟩ := take_drop_of_drop_eq hrest rfl
    obtain ⟨len1At, hrest⟩ := take_drop_of_drop_eq hrest (length_be32 _)
    rw [show 0 + 4 + 4 + 4 + e0.length + 4 = 16 + e0.length by omega] at hrest
    obtain ⟨e1At, hrest⟩ := take_drop_of_drop_eq hrest rfl
    obtain ⟨len2At, hrest⟩ := take_drop_of_drop_eq hrest (length_be32 _)
    rw [show 16 + e0.length + e1.length + 4 = 20 + e0.length + e1.length by omega] at hrest
    exact ⟨rowsAt, colsAt, len0At, e0At, len1At, e1At, len2At, hrest⟩

end Sys2Proof.Proofs
end

section
/-! The calculator (R90 to R96): an operand has width `b` iff its magnitude, the operand itself or its complement where it is
negative, is below `2^(b-1)`. So the width is a bit length, in INT32 and as the port computes it. -/

namespace Sys2Proof.Proofs

open Sys2Proof Sys2Proof.Machine Sys2Proof.Laws

/-- The number below the sign: the operand, or its complement `-d - 1` where it is negative. -/
def magnitude (d : Int) : Nat := (max d (-d - 1)).toNat

@[simp] theorem magnitude_natCast (n : Nat) : magnitude n = n := by
  rw [magnitude, max_eq_left (by omega), Int.toNat_natCast]

@[simp] theorem magnitude_negSucc (n : Nat) : magnitude (.negSucc n) = n := by
  rw [magnitude, max_eq_right (by omega)]
  omega

theorem magnitude_complement (d : Int) : magnitude (-d - 1) = magnitude d := by
  rw [magnitude, magnitude, max_comm]
  congr 2
  omega

theorem magnitude_eq_zero {d : Int} : magnitude d = 0 ↔ d = -1 ∨ d = 0 := by
  unfold magnitude
  omega

theorem magnitude_le_of_nonneg {d e : Int} (hd : 0 ≤ d) (h : d ≤ e) : magnitude d ≤ magnitude e := by
  unfold magnitude
  omega

theorem magnitude_le_of_neg {d e : Int} (h : e ≤ d) (hd : d < 0) : magnitude d ≤ magnitude e := by
  unfold magnitude
  omega

theorem fits_iff_magnitude_lt (d : Int) (k : Nat) : (-2 ^ k ≤ d ∧ d < 2 ^ k) ↔ magnitude d < 2 ^ k := by
  rw [magnitude, Int.toNat_lt_of_ne_zero (by positivity), Nat.cast_pow, Nat.cast_ofNat]
  omega

theorem bitlen_eq_size (x : Nat) : bitlen x = x.size :=
  bitlen_unique x.lt_size_self fun _ => Nat.lt_size.1

theorem bitlen_le {x k : Nat} : bitlen x ≤ k ↔ x < 2 ^ k := by
  rw [bitlen_eq_size, Nat.size_le]

theorem fits_iff_bitlen_le (d : Int) (k : Nat) : (-2 ^ k ≤ d ∧ d < 2 ^ k) ↔ bitlen (magnitude d) ≤ k := by
  rw [fits_iff_magnitude_lt, bitlen_le]

theorem fitsWidth_succ (d : Int) (k : Nat) : fitsWidth d (k + 1) = decide (bitlen (magnitude d) ≤ k) :=
  decide_eq_decide.2 (fits_iff_bitlen_le d k)

theorem bw_of_inInt32 {d : Int} (h : InInt32 d) : bw d = (bitlen (magnitude d) + 1, false) := by
  have hlen : bitlen (magnitude d) ≤ 31 := (fits_iff_bitlen_le d 31).1 h
  unfold bw
  cases hfind : findLeast (fitsWidth d) 32 1 with
  | some b =>
    obtain ⟨hfit, hpos, -, hleast⟩ := findLeast_some hfind
    obtain ⟨k, rfl⟩ := Nat.exists_eq_add_of_le' hpos
    rw [fitsWidth_succ, decide_eq_true_eq] at hfit
    have hge : ¬ bitlen (magnitude d) < k := fun hlt => by
      simpa [fitsWidth_succ] using hleast (bitlen (magnitude d) + 1) (by omega) (by omega)
    rw [le_antisymm hfit (not_lt.1 hge)]
  | none => simpa [fitsWidth_succ, hlen] using findLeast_none hfind 32 (by omega) (by omega)

theorem bw_of_not_inInt32 {d : Int} (h : ¬ InInt32 d) : bw d = (32, true) := by
  have hlen : ¬ bitlen (magnitude d) ≤ 31 := (fits_iff_bitlen_le d 31).not.1 h
  unfold bw
  cases hfind : findLeast (fitsWidth d) 32 1 with
  | some b =>
    obtain ⟨hfit, hpos, hlt, -⟩ := findLeast_some hfind
    obtain ⟨k, rfl⟩ := Nat.exists_eq_add_of_le' hpos
    rw [fitsWidth_succ, decide_eq_true_eq] at hfit
    omega
  | none => rfl

/-- R96 (f). -/
theorem bw_ovf_iff {d : Int} : (bw d).2 = true ↔ ¬ InInt32 d := by
  by_cases h : InInt32 d
  · rw [bw_of_inInt32 h]
    exact iff_of_false Bool.false_ne_true (not_not.2 h)
  · rw [bw_of_not_inInt32 h]
    exact iff_of_true rfl h

theorem width_of_inInt32 {d : Int} (h : InInt32 d) : width d = bitlen (magnitude d) + 1 :=
  congrArg Prod.fst (bw_of_inInt32 h)

theorem width_of_not_inInt32 {d : Int} (h : ¬ InInt32 d) : width d = 32 :=
  congrArg Prod.fst (bw_of_not_inInt32 h)

theorem width_eq_min (d : Int) : width d = min 32 (bitlen (magnitude d) + 1) := by
  have hlen := fits_iff_bitlen_le d 31
  by_cases h : InInt32 d
  · rw [width_of_inInt32 h, min_eq_right (by omega)]
  · rw [width_of_not_inInt32 h, min_eq_left (by omega)]

theorem width_le_of_magnitude_le {d e : Int} (h : magnitude d ≤ magnitude e) : width d ≤ width e := by
  have hlen : bitlen (magnitude d) ≤ bitlen (magnitude e) := bitlen_le.2 (h.trans_lt (bitlen_spec _).1)
  rw [width_eq_min, width_eq_min]
  omega

/-- R96 (b). -/
theorem width_eq_one_iff {d : Int} : width d = 1 ↔ d = -1 ∨ d = 0 := by
  have hzero : bitlen (magnitude d) = 0 ↔ magnitude d = 0 := by rw [bitlen_eq_size, Nat.size_eq_zero]
  rw [width_eq_min, ← magnitude_eq_zero, ← hzero]
  omega

/-- An operand has a width iff it is in INT32. -/
theorem exists_width_iff {d : Int} :
    (∃ b, 1 ≤ b ∧ b ≤ 32 ∧ -2 ^ (b - 1) ≤ d ∧ d < 2 ^ (b - 1)) ↔ InInt32 d := by
  constructor
  · rintro ⟨b, -, hb, hfit⟩
    exact (fits_iff_bitlen_le d 31).2 (((fits_iff_bitlen_le d _).1 hfit).trans (by omega))
  · exact fun h => ⟨32, by omega, le_rfl, h⟩

/-- R90: in INT32 the width holds the operand, and no smaller one does. -/
theorem width_least {d : Int} (h : InInt32 d) :
    1 ≤ width d ∧ width d ≤ 32 ∧ -2 ^ (width d - 1) ≤ d ∧ d < 2 ^ (width d - 1) ∧
      ∀ b, 1 ≤ b → b < width d → ¬(-2 ^ (b - 1) ≤ d ∧ d < 2 ^ (b - 1)) := by
  obtain ⟨hpos, hle⟩ := width_range d
  have hwidth := width_of_inInt32 h
  obtain ⟨hlo, hhi⟩ := (fits_iff_bitlen_le d (width d - 1)).2 (by omega)
  refine ⟨hpos, hle, hlo, hhi, fun b _ hb hfit => ?_⟩
  have hlen := (fits_iff_bitlen_le d (b - 1)).1 hfit
  omega

/-- Settles O23: a width exists iff the operand is in INT32, and there the calculator finds the least. -/
theorem calculatorGivesTheLeastWidth : Obligations.CalculatorGivesTheLeastWidth := fun _ =>
  ⟨fun h => ⟨congrArg Prod.snd (bw_of_inInt32 (exists_width_iff.1 h)), width_least (exists_width_iff.1 h)⟩,
    fun h => bw_of_not_inInt32 (exists_width_iff.not.1 h)⟩

/-! ### The port -/

/-- R93's `x`: the low word of the operand, xored with bit 32. -/
def portWord (d : Delta) : Word := d.setWidth 32 ^^^ (if d.getLsbD 32 then BitVec.allOnes 32 else 0#32)

theorem toNat_portWord (d : Delta) : (portWord d).toNat = magnitude d.toInt := by
  have hd := d.isLt
  have hbit : d.getLsbD 32 = decide (2 ^ 32 ≤ d.toNat) := BitVec.msb_eq_decide d
  rw [portWord, hbit, BitVec.toInt_eq_toNat_cond]
  by_cases h : 2 ^ 32 ≤ d.toNat
  · have hneg : (d.toNat : Int) - (2 ^ 33 : Nat) = .negSucc (2 ^ 33 - 1 - d.toNat) := by omega
    rw [if_pos (decide_eq_true h), BitVec.xor_allOnes, if_neg (by omega), hneg, magnitude_negSucc, BitVec.toNat_not,
      BitVec.toNat_setWidth]
    omega
  · rw [if_neg (by simpa using h), BitVec.xor_zero, if_pos (by omega), BitVec.toNat_setWidth,
      Nat.mod_eq_of_lt (by omega), magnitude_natCast]

theorem getLsbD_portWord (d : Delta) : (portWord d).getLsbD 31 = xor (d.getLsbD 32) (d.getLsbD 31) := by
  rw [portWord, BitVec.getLsbD_xor, BitVec.getLsbD_setWidth, Bool.xor_comm]
  cases d.getLsbD 32 <;> rfl

/-- The port's clamp: bit 31 of `x` is set iff the operand is outside INT32. -/
theorem portWord_top_iff (d : Delta) : (portWord d).getLsbD 31 = true ↔ ¬ InInt32 d.toInt := by
  have hbit : (portWord d).getLsbD 31 = decide (2 ^ 31 ≤ (portWord d).toNat) :=
    BitVec.msb_eq_decide (portWord d)
  rw [hbit, decide_eq_true_eq, toNat_portWord, InInt32, fits_iff_magnitude_lt, not_lt]

theorem bw_ovf_eq_portWord_top (d : Delta) : (bw d.toInt).2 = (portWord d).getLsbD 31 :=
  Bool.eq_iff_iff.2 (bw_ovf_iff.trans (portWord_top_iff d).symm)

theorem bwPort_eq (d : Delta) :
    bwPort d = (if (portWord d).getLsbD 31 then 32 else bitlen (portWord d).toNat + 1, (portWord d).getLsbD 31) := by
  rw [getLsbD_portWord, portWord, BitVec.setWidth_eq_extractLsb' (by omega)]
  rfl

theorem bwPort_eq_bw (d : Delta) : bwPort d = bw d.toInt := by
  rw [bwPort_eq, ← bw_ovf_eq_portWord_top]
  by_cases h : InInt32 d.toInt
  · rw [bw_of_inInt32 h, toNat_portWord]; rfl
  · rw [bw_of_not_inInt32 h]; rfl

/-- Settles O24: the port's word is the magnitude of the operand, and its bit 31 the clamp. -/
theorem calculatorPortAgrees : Obligations.CalculatorPortAgrees := by
  intro d x
  have hclamp := bw_ovf_eq_portWord_top d
  refine ⟨hclamp.trans (getLsbD_portWord d), fun h => ?_, fun h => ?_, bwPort_eq_bw d⟩
  · have hin : InInt32 d.toInt := not_not.1 fun hout => Bool.false_ne_true (h.symm.trans (bw_ovf_iff.2 hout))
    have hlen : bitlen x.toNat = bitlen (magnitude d.toInt) := congrArg bitlen (toNat_portWord d)
    exact ⟨(width_of_inInt32 hin).trans (congrArg (· + 1) hlen.symm), hclamp.symm.trans h, (width_range d.toInt).2⟩
  · exact width_of_not_inInt32 (bw_ovf_iff.1 h)

/-! ### The laws -/

/-- A two's-complement bit is the bit of the magnitude, complemented where the operand is negative. -/
theorem testBit_emod_two_pow {d : Int} {i k : Nat} (hi : i < k) :
    (d % 2 ^ k).toNat.testBit i = xor (decide (d < 0)) ((magnitude d).testBit i) := by
  cases d with
  | ofNat n =>
    have hmod : Int.ofNat n % 2 ^ k = ((n % 2 ^ k : Nat) : Int) := by push_cast; rfl
    rw [hmod, Int.toNat_natCast, Nat.testBit_mod_two_pow]
    simp [hi, (Int.natCast_nonneg n).not_gt]
  | negSucc n =>
    have hlt : n % 2 ^ k < 2 ^ k := Nat.mod_lt _ (Nat.two_pow_pos k)
    have hmod : Int.negSucc n % 2 ^ k = ((2 ^ k - (n % 2 ^ k + 1) : Nat) : Int) := by
      rw [Int.negSucc_emod _ (by positivity), Nat.cast_sub hlt]
      push_cast
      ring
    rw [hmod, Int.toNat_natCast, Nat.testBit_two_pow_sub_succ hlt, Nat.testBit_mod_two_pow]
    simp [hi, Int.negSucc_lt_zero]

/-- R96 (e): the top bit of the magnitude is set, the bit above it is not, and the sign complements both or neither. -/
theorem tc_leading_bits_ne {d : Int} (h : InInt32 d) (h2 : 2 ≤ width d) :
    (tc (width d) d)[0]? ≠ (tc (width d) d)[1]? := by
  have hwidth := width_of_inInt32 h
  obtain ⟨j, hj⟩ := Nat.exists_eq_add_of_le' h2
  obtain ⟨hlt, hleast⟩ := bitlen_spec (magnitude d)
  rw [show bitlen (magnitude d) = j + 1 by omega] at hlt hleast
  have hhigh : (magnitude d).testBit (j + 1) = false := Nat.testBit_lt_two_pow hlt
  have hlow : (magnitude d).testBit j = true :=
    Nat.testBit_of_two_pow_le_and_two_pow_add_one_gt (hleast j (Nat.lt_succ_self j)) hlt
  rw [hj]
  simp [tc, ubits, testBit_emod_two_pow, hhigh, hlow]

/-- Settles O25: each law is one of bit lengths and of the magnitude. -/
theorem calculatorLaws : Obligations.CalculatorLaws := by
  intro d e
  refine ⟨width_range d, width_eq_one_iff, ?_, fun h => ?_, tc_leading_bits_ne, bw_ovf_iff,
    fun hd hde => width_le_of_magnitude_le (magnitude_le_of_nonneg hd hde),
    fun hed hd => width_le_of_magnitude_le (magnitude_le_of_neg hed hd)⟩
  · rw [width_eq_min, width_eq_min, magnitude_complement]
  · obtain ⟨hpos, -, hlo, hhi, -⟩ := width_least h
    exact ⟨hlo, hhi, sext_uval_tc hpos hlo hhi⟩

/-! ### The command -/

/-- RES holds every width (R94). -/
theorem toNat_ofNat_width (d : Int) : (BitVec.ofNat 6 (width d)).toNat = width d := by
  have hle := (width_range d).2
  rw [BitVec.toNat_ofNat, Nat.mod_eq_of_lt (by omega)]

theorem flagsOf_ovf_of_inInt32 {d : Int} (h : InInt32 d) : flagsOf (bw d).2 = 0#1 := by
  rw [bw_of_inInt32 h]; rfl

theorem flagsOf_ovf_of_not_inInt32 {d : Int} (h : ¬ InInt32 d) : flagsOf (bw d).2 = 1#1 := by
  rw [bw_of_not_inInt32 h]; rfl

/-- Settles O41: BWC completes with the two components of `bw` of the argument, and RES holds the width uncut. -/
theorem bwcWritesWidthAndClamp : Obligations.BwcWritesWidthAndClamp := by
  refine ⟨by decide, ?_⟩
  intro s d
  refine ⟨_, exec_bwc s, complete_busy _, complete_done _, complete_err _, rfl, ?_⟩
  have harg : s.argument.toInt = d := argument_toInt s
  have hres : (BitVec.ofNat 6 (bw d).1).toNat = width d := toNat_ofNat_width d
  simp only [complete_flags, complete_res, setOvf_flags, setOvf_res, harg, hres]
  exact ⟨fun h => ⟨flagsOf_ovf_of_inInt32 h, width_least h⟩,
    fun h => ⟨flagsOf_ovf_of_not_inInt32 h, width_of_not_inInt32 h⟩⟩

end Sys2Proof.Proofs
end

section
/-! The delta transform (R100, R101): element `i` of `delta x` is `deltaAt x i`, so its range is that of a difference of two
values in INT32. -/

namespace Sys2Proof.Proofs

open Sys2Proof Sys2Proof.Machine Sys2Proof.Laws

theorem deltaAt_succ (x : List Int) (i : Nat) : deltaAt x (i + 1) = x.getD (i + 1) 0 - x.getD i 0 := rfl

theorem getElem?_delta {x : List Int} {i : Nat} (hi : i < x.length) : (delta x)[i]? = some (deltaAt x i) := by
  cases x with
  | nil => exact absurd hi (Nat.not_lt_zero i)
  | cons a t =>
    cases i with
    | zero => rfl
    | succ j =>
      have hj : j < t.length := Nat.lt_of_succ_lt_succ hi
      have hprev : j < (a :: t).length := Nat.lt_of_succ_lt hi
      simp [delta, deltaAt_succ, List.getElem?_zipWith, List.getElem?_eq_getElem hj, List.getElem?_eq_getElem hprev]

/-- Where the transform has an element, the sequence has one and the element is the difference there. -/
theorem getElem?_delta_eq_some {x : List Int} {i : Nat} {d : Int} (h : (delta x)[i]? = some d) :
    i < x.length ∧ d = deltaAt x i := by
  obtain ⟨hi, -⟩ := List.getElem?_eq_some_iff.1 h
  rw [length_delta] at hi
  rw [getElem?_delta hi, Option.some.injEq] at h
  exact ⟨hi, h.symm⟩

theorem inInt32_getD {x : List Int} (hx : ∀ v ∈ x, InInt32 v) {i : Nat} (hi : i < x.length) : InInt32 (x.getD i 0) := by
  rw [List.getD_eq_getElem x 0 hi]
  exact hx _ (List.getElem_mem hi)

theorem sub_range_of_inInt32 {a b : Int} (ha : InInt32 a) (hb : InInt32 b) :
    -(2 ^ 32 - 1) ≤ a - b ∧ a - b ≤ 2 ^ 32 - 1 := by
  omega

/-- The difference of two values of one sign does not leave INT32. -/
theorem opposite_signs_of_not_inInt32_sub {a b : Int} (ha : InInt32 a) (hb : InInt32 b) (h : ¬ InInt32 (a - b)) :
    (a < 0 ∧ 0 ≤ b) ∨ (0 ≤ a ∧ b < 0) := by
  omega

theorem deltaAt_range {x : List Int} (hx : ∀ v ∈ x, InInt32 v) {i : Nat} (hi : i < x.length) :
    -(2 ^ 32 - 1) ≤ deltaAt x i ∧ deltaAt x i ≤ 2 ^ 32 - 1 := by
  cases i with
  | zero =>
    have hfirst : InInt32 (deltaAt x 0) := inInt32_getD hx hi
    omega
  | succ j => exact sub_range_of_inInt32 (inInt32_getD hx hi) (inInt32_getD hx (Nat.lt_of_succ_lt hi))

/-- Settles O26: the indexed form of the transform is R100's own definition of its elements. -/
theorem deltaIsTheFirstDifference : Obligations.DeltaIsTheFirstDifference := by
  intro x _
  exact ⟨length_delta x, fun _ hi => getElem?_delta hi⟩

/-- Settles O27: element 0 is a value of the sequence, every later one a difference of two. -/
theorem deltasFitThirtyThreeBits : Obligations.DeltasFitThirtyThreeBits := by
  intro x hx i d hd
  obtain ⟨hi, rfl⟩ := getElem?_delta_eq_some hd
  have hrange := deltaAt_range hx hi
  have hentry : (BitVec.ofInt 33 (deltaAt x i)).toInt = deltaAt x i := toInt_ofInt_33 (by omega)
  cases i with
  | zero =>
    have hfirst : InInt32 (deltaAt x 0) := inInt32_getD hx hi
    exact ⟨fun _ => hfirst, hrange, hentry, fun hout => absurd hfirst hout⟩
  | succ j =>
    have hsigns := opposite_signs_of_not_inInt32_sub (inInt32_getD hx hi) (inInt32_getD hx (Nat.lt_of_succ_lt hi))
    exact ⟨fun h0 => absurd h0 j.succ_ne_zero, hrange, hentry, fun hout => ⟨j.succ_pos, hsigns hout⟩⟩

end Sys2Proof.Proofs
end

section
/-! The encoder's range check (R112): the clamp bits of the scan tell which deltas are outside INT32, and `vldEncode` fails
exactly where there is one, at the first. -/

namespace Sys2Proof.Proofs

open Sys2Proof Sys2Proof.Machine Sys2Proof.Laws

theorem scan_ovfs (x : List Int) : (scan x).ovfs = (delta x).map (fun d => (bw d).2) := rfl

theorem scanOvf_iff {x : List Int} : scanOvf (scan x) = true ↔ ∃ d ∈ delta x, ¬ InInt32 d := by
  simp only [scanOvf, scan_ovfs, List.any_map, List.any_eq_true, Function.comp_apply, id_eq, bw_ovf_iff]

theorem scanOvf_eq_false_iff {x : List Int} : scanOvf (scan x) = false ↔ ∀ d ∈ delta x, InInt32 d := by
  simp only [Bool.eq_false_iff, ne_eq, scanOvf_iff, not_exists, not_and_not_right]

theorem getElem_delta {x : List Int} {i : Nat} (hi : i < (delta x).length) : (delta x)[i] = deltaAt x i :=
  (getElem?_delta_eq_some (List.getElem?_eq_getElem hi)).2

theorem deltaAt_mem_delta {x : List Int} {i : Nat} (hi : i < x.length) : deltaAt x i ∈ delta x :=
  List.mem_of_getElem? (getElem?_delta hi)

/-- R102: the least index with a clamp bit, where there is one. -/
theorem firstOvf_eq {x : List Int} {k : Nat} (hk : k < x.length) (hout : ¬ InInt32 (deltaAt x k))
    (hin : ∀ i, i < k → InInt32 (deltaAt x i)) : firstOvf (scan x) = k := by
  have hlen : k < (scan x).ovfs.length := by rwa [scan_ovfs, List.length_map, length_delta]
  rw [firstOvf, List.findIdx_eq hlen]
  simp only [scan_ovfs, List.getElem_map, getElem_delta, id_eq, Bool.eq_false_iff, ne_eq, bw_ovf_iff, not_not]
  exact ⟨hout, hin⟩

theorem vldEncode_of_inInt32 {x : List Int} (h : ∀ d ∈ delta x, InInt32 d) : vldEncode x = .ok (vldStream x) := by
  rw [vldEncode, scanOvf_eq_false_iff.2 h]
  rfl

theorem vldEncode_of_first_out {x : List Int} {k : Nat} (hk : k < x.length) (hout : ¬ InInt32 (deltaAt x k))
    (hin : ∀ i, i < k → InInt32 (deltaAt x i)) : vldEncode x = .error ⟨.rngEncDelta, k⟩ := by
  rw [vldEncode, if_pos (scanOvf_iff.2 ⟨_, deltaAt_mem_delta hk, hout⟩), firstOvf_eq hk hout hin]

/-- Settles O29: the range check is the encoder's only failure, and the scan's first clamp bit is the first delta outside
INT32. -/
theorem encoderFailsExactlyOnRange : Obligations.EncoderFailsExactlyOnRange :=
  ⟨by decide, fun _ _ _ => ⟨fun h => ⟨_, vldEncode_of_inInt32 h⟩, fun _ => vldEncode_of_first_out⟩⟩

end Sys2Proof.Proofs
end

section
/-! The shape of an encoded stream (R113 to R116): the size of the width code, and the header, the elements and the padding as
bits and as bytes. -/

namespace Sys2Proof.Proofs

open Sys2Proof Sys2Proof.Machine Sys2Proof.Laws

/-! ### The size of the width code -/

/-- R113: no smaller code holds the largest width. -/
theorem exists_width_gt_of_wfb_ne_zero {x : List Int} (h : (scan x).wfb ≠ 0) :
    ∃ d ∈ delta x, 2 ^ ((scan x).wfb - 1) < width d := by
  have hmax : 2 ^ ((scan x).wfb - 1) < maxWidthOf ((delta x).map width) := by
    refine (clog2_spec _).2 _ ?_
    rw [← wfbOf_eq, ← scan_wfb]
    omega
  rcases (maxWidthOf_spec ((delta x).map width)).2.2 with hone | hmem
  · exact absurd (hone ▸ hmax) Nat.one_le_two_pow.not_gt
  · obtain ⟨d, hd, hwidth⟩ := List.mem_map.1 hmem
    exact ⟨d, hd, hwidth ▸ hmax⟩

/-- R122 (b). -/
theorem wfb_eq_zero_iff {x : List Int} : (scan x).wfb = 0 ↔ ∀ d ∈ delta x, d = -1 ∨ d = 0 := by
  constructor
  · intro h d hd
    have hle := width_le_two_pow_wfb x d hd
    rw [h] at hle
    exact width_eq_one_iff.1 (le_antisymm hle (width_range d).1)
  · intro h
    by_contra hne
    obtain ⟨d, hd, hlt⟩ := exists_width_gt_of_wfb_ne_zero hne
    rw [width_eq_one_iff.2 (h d hd)] at hlt
    exact Nat.one_le_two_pow.not_gt hlt

/-! ### The bits -/

/-- R114, R115: the header and, for each delta in order, its element. -/
theorem streamBits_scan (x : List Int) : streamBits x.length (scan x) =
    ubits 32 x.length ++ ubits 8 (scan x).wfb ++
      ((delta x).map (fun d => emitElement (scan x).wfb d (width d))).flatten := by
  rw [streamBits, scan_deltas, scan_widths, List.zipWith_map_right, List.zipWith_self]

/-- R114: the five bytes of the header. -/
def headerBytes (n wfb : Nat) : List Byte := be32 n ++ [BitVec.ofNat 8 wfb]

@[simp] theorem length_headerBytes (n wfb : Nat) : (headerBytes n wfb).length = 5 := rfl

theorem bitsOf_headerBytes (n wfb : Nat) : bitsOf (headerBytes n wfb) = ubits 32 n ++ ubits 8 wfb := by
  rw [headerBytes, bitsOf_append, bitsOf_be32, bitsOf_cons, bitsOf_nil, List.append_nil, BitVec.toNat_ofNat, ubits_mod_two_pow]

theorem bytesOf_bitsOf_append (bs : List Byte) (s : List Bool) : bytesOf (bitsOf bs ++ s) = bs ++ bytesOf s := by
  induction bs with
  | nil => rfl
  | cons b bs ih =>
    rw [bitsOf_cons, List.append_assoc, bytesOf_eight (length_ubits 8 _), uval_ubits b.isLt, BitVec.ofNat_toNat,
      BitVec.setWidth_eq, ih, List.cons_append]

/-- R114, R122 (d). -/
theorem take_five_vldStream (x : List Int) : (vldStream x).take 5 = headerBytes x.length (scan x).wfb := by
  rw [vldStream, pad, streamBits_scan, ← bitsOf_headerBytes, List.append_assoc, bytesOf_bitsOf_append]
  exact List.take_left' (length_headerBytes _ _)

/-- R116, R122 (c). -/
theorem length_vldStream_eq (x : List Int) :
    (vldStream x).length = bytesFor (40 + ((delta x).map (fun d => (scan x).wfb + width d)).sum) := by
  rw [length_vldStream, streamLength, scan_widths, List.map_map]
  rfl

/-- R116, R122 (e): what follows the elements is fewer than 8 zero bits. -/
theorem pad_eq_append (s : List Bool) :
    ∃ padding, (∀ b ∈ padding, b = false) ∧ padding.length < 8 ∧ pad s = s ++ padding := by
  refine ⟨_, fun _ => List.eq_of_mem_replicate, ?_, rfl⟩
  rw [List.length_replicate]
  exact Nat.mod_lt _ (by omega)

/-- Settles O30: the encoder's bits are the header, the elements and the padding, and the header is whole bytes. -/
theorem encodedStreamHasTheStatedShape : Obligations.EncodedStreamHasTheStatedShape := by
  intro x e _ _ h
  obtain rfl := vldEncode_ok h
  obtain ⟨padding, hzero, hshort, hpad⟩ := pad_eq_append (streamBits x.length (scan x))
  have hbits := (bitsOf_vldStream x).trans hpad
  rw [streamBits_scan] at hbits
  exact ⟨(scan x).wfb, scan_wfb_le x, width_le_two_pow_wfb x, exists_width_gt_of_wfb_ne_zero, take_five_vldStream x,
    length_vldStream_eq x, wfb_eq_zero_iff, padding, hzero, hshort, hbits⟩

end Sys2Proof.Proofs
end

section
/-! The VLD decoder one element and one header at a time (R126 to R131): what a step of the loop does for every capacity, and
what a stream of a five-byte header and a rest decodes to. -/

namespace Sys2Proof.Proofs

open Sys2Proof Sys2Proof.Machine Sys2Proof.Laws

/-! ### One element -/

/-- R129 to R131, R137: an element that is read whole and in range is kept where it fits, and the loop goes on after it. -/
theorem decodeElems_succ_of_read {cap : Option Nat} {wfb n i w u : Nat} {prev v : Int} {bits b1 b2 : List Bool}
    (hw : takeWidth wfb bits = some (w, b1)) (hu : takeBits w b1 = some (u, b2))
    (hv : v = if i = 0 then sext w u else prev + sext w u) (hrange : InInt32 v) :
    decodeElems cap wfb (n + 1) i prev bits =
      if overCap cap i then .error ⟨.capSeq, i⟩
      else (decodeElems cap wfb n (i + 1) v b2).map (⟨v, sext w u, w⟩ :: ·) := by
  simp only [decodeElems, hw, hu, ← hv, if_pos hrange]
  congr 1
  cases decodeElems cap wfb n (i + 1) v b2 <;> rfl

/-- R133, R137: whether an element is defective, and what it is where it is not, depends neither on the capacity nor on the
count. -/
theorem decodeElems_succ_cases (wfb i : Nat) (prev : Int) (bits : List Bool) :
    (∃ f : Failure, f.idx = i ∧ ∀ cap n, decodeElems cap wfb (n + 1) i prev bits = .error f) ∨
    ∃ x rest, ∀ cap n, decodeElems cap wfb (n + 1) i prev bits =
      if overCap cap i then .error ⟨.capSeq, i⟩ else (decodeElems cap wfb n (i + 1) x.value rest).map (x :: ·) := by
  cases hw : takeWidth wfb bits with
  | none => exact .inl ⟨⟨.fmtElemCode, i⟩, rfl, fun _ _ => by rw [decodeElems, hw]⟩
  | some q =>
    cases hu : takeBits q.1 q.2 with
    | none => exact .inl ⟨⟨.fmtElemDelta, i⟩, rfl, fun _ _ => by simp only [decodeElems, hw, hu]⟩
    | some p =>
      by_cases hv : InInt32 (if i = 0 then sext q.1 p.1 else prev + sext q.1 p.1)
      · exact .inr ⟨⟨_, _, _⟩, p.2, fun _ _ => decodeElems_succ_of_read hw hu rfl hv⟩
      · exact .inl ⟨⟨.rngDecAcc, i⟩, rfl, fun _ _ => by simp only [decodeElems, hw, hu, if_neg hv]⟩

/-- R129: the width of every decoded element. -/
theorem decodeElems_width {cap : Option Nat} {wfb n i : Nat} {prev : Int} {bits : List Bool} {es : List Elem}
    (h : decodeElems cap wfb n i prev bits = .ok es) : ∀ x ∈ es, 1 ≤ x.width ∧ x.width ≤ 2 ^ wfb := by
  induction n generalizing i prev bits es with
  | zero => cases h; exact List.forall_mem_nil _
  | succ n ih =>
    obtain ⟨w, u, v, t, hw, -, -, -, -, ht, rfl⟩ := decodeElems_succ h
    obtain ⟨-, hpos, hle, -⟩ := takeWidth_some hw
    exact List.forall_mem_cons.2 ⟨⟨hpos, hle⟩, ih ht⟩

/-! ### The header -/

theorem vldDecodeCap_of_length_lt_four (cap : Option Nat) {b : List Byte} (h : b.length < 4) :
    vldDecodeCap cap b = .error ⟨.fmtHdrCount, 0⟩ := by
  have hcount : takeBits 32 (bitsOf b) = none := takeBits_none.2 (by rw [length_bitsOf]; omega)
  rw [vldDecodeCap, hcount]

theorem vldDecodeCap_of_length_eq_four (cap : Option Nat) {b : List Byte} (h : b.length = 4) :
    vldDecodeCap cap b = .error ⟨.fmtHdrWfb, 0⟩ := by
  have hbits : (bitsOf b).length = 32 := by rw [length_bitsOf, h]
  have hcount : takeBits 32 (bitsOf b) = some (uval (bitsOf b), []) := by
    simpa using takeBits_append (bitsOf b) [] hbits
  have hwfb : takeBits 8 [] = none := rfl
  simp only [vldDecodeCap, hcount, hwfb]

/-- R126 to R128: a stream with a whole header. -/
theorem vldDecodeCap_headerBytes_append (cap : Option Nat) {n wfb : Nat} (hn : n < 2 ^ 32) (hwfb : wfb < 2 ^ 8)
    (rest : List Byte) :
    vldDecodeCap cap (headerBytes n wfb ++ rest) =
      if 5 < wfb then .error ⟨.fmtWfbRange, 0⟩ else (decodeElems cap wfb n 0 0 (bitsOf rest)).map (⟨·, wfb⟩) := by
  have hbits : bitsOf (headerBytes n wfb ++ rest) = ubits 32 n ++ (ubits 8 wfb ++ bitsOf rest) := by
    rw [bitsOf_append, bitsOf_headerBytes, List.append_assoc]
  simp only [vldDecodeCap, hbits, takeBits_append _ _ (length_ubits _ _), uval_ubits hn, uval_ubits hwfb]
  congr 1
  cases decodeElems cap wfb n 0 0 (bitsOf rest) <;> rfl

/-- R8: `be32` lays out again the four bytes that `unbe32` reads. -/
theorem be32_unbe32 (b0 b1 b2 b3 : Byte) (rest : List Byte) :
    be32 (unbe32 (b0 :: b1 :: b2 :: b3 :: rest)) = [b0, b1, b2, b3] := by
  have h0 := b0.isLt
  have h1 := b1.isLt
  have h2 := b2.isLt
  have h3 := b3.isLt
  simp only [be32, unbe32, List.cons.injEq, and_true, BitVec.toNat_eq, BitVec.toNat_ofNat]
  omega

theorem unbe32_lt (b : List Byte) : unbe32 b < 2 ^ 32 := by
  unfold unbe32
  split
  next b0 b1 b2 b3 _ =>
    have h0 := b0.isLt
    have h1 := b1.isLt
    have h2 := b2.isLt
    have h3 := b3.isLt
    omega
  · omega

/-- Any five bytes are a header. -/
theorem headerBytes_append_drop {b : List Byte} (h : 5 ≤ b.length) :
    headerBytes (unbe32 b) (b.getD 4 0).toNat ++ b.drop 5 = b := by
  match b, h with
  | b0 :: b1 :: b2 :: b3 :: b4 :: rest, _ => simp [headerBytes, be32_unbe32]

/-- R126 to R128: every stream of five bytes or more, by its count and its byte 4. -/
theorem vldDecodeCap_of_five_le (cap : Option Nat) {b : List Byte} (h : 5 ≤ b.length) :
    vldDecodeCap cap b = if 5 < (b.getD 4 0).toNat then .error ⟨.fmtWfbRange, 0⟩
      else (decodeElems cap (b.getD 4 0).toNat (unbe32 b) 0 0 (bitsOf (b.drop 5))).map (⟨·, (b.getD 4 0).toNat⟩) := by
  have hb := vldDecodeCap_headerBytes_append cap (unbe32_lt b) (b.getD 4 0).isLt (b.drop 5)
  rwa [headerBytes_append_drop h] at hb

/-- R126 to R128: a stream that decodes has a whole header, with a `wfb` of at most 5, and its elements are those of the loop
on the bits after it. -/
theorem vldDecodeCap_ok_bytes {cap : Option Nat} {b : List Byte} {r : Decoded} (h : vldDecodeCap cap b = .ok r) :
    5 ≤ b.length ∧ r.wfb = (b.getD 4 0).toNat ∧ r.wfb ≤ 5 ∧
      decodeElems cap r.wfb (unbe32 b) 0 0 (bitsOf (b.drop 5)) = .ok r.elems := by
  have hlen : 5 ≤ b.length := by
    obtain ⟨n, -, hwfb, -⟩ := vldDecodeCap_ok h
    have hbits := (takeBits_some hwfb).1
    rw [List.length_drop, length_bitsOf] at hbits
    omega
  rw [vldDecodeCap_of_five_le cap hlen] at h
  split_ifs at h with hwfb
  cases hd : decodeElems cap (b.getD 4 0).toNat (unbe32 b) 0 0 (bitsOf (b.drop 5)) with
  | error f => rw [hd] at h; cases h
  | ok es => rw [hd] at h; cases h; exact ⟨hlen, rfl, not_lt.1 hwfb, hd⟩

/-- R126 to R128, R137: a bad header fails with index 0 and any other leaves the result to the loop, for every capacity. -/
theorem vldDecodeCap_cases (b : List Byte) :
    (∃ f : Failure, f.idx = 0 ∧ ∀ cap, vldDecodeCap cap b = .error f) ∨
    ∃ wfb n bits, ∀ cap, vldDecodeCap cap b = (decodeElems cap wfb n 0 0 bits).map (⟨·, wfb⟩) := by
  rcases lt_trichotomy b.length 4 with hlt | heq | hgt
  · exact .inl ⟨_, rfl, fun cap => vldDecodeCap_of_length_lt_four cap hlt⟩
  · exact .inl ⟨_, rfl, fun cap => vldDecodeCap_of_length_eq_four cap heq⟩
  · by_cases hwfb : 5 < (b.getD 4 0).toNat
    · exact .inl ⟨_, rfl, fun cap => (vldDecodeCap_of_five_le cap hgt).trans (if_pos hwfb)⟩
    · exact .inr ⟨_, _, _, fun cap => (vldDecodeCap_of_five_le cap hgt).trans (if_neg hwfb)⟩

/-- Settles O34: the header's failures are one lemma each; the widths are bounded by `2 ^ wfb` with `wfb` at most 5. -/
theorem malformedHeadersFail : Obligations.MalformedHeadersFail := by
  intro cap b
  refine ⟨vldDecodeCap_of_length_lt_four cap, vldDecodeCap_of_length_eq_four cap,
    fun hlen hwfb => (vldDecodeCap_of_five_le cap hlen).trans (if_pos hwfb), fun r h => ?_⟩
  obtain ⟨-, hbyte, hwfb, hd⟩ := vldDecodeCap_ok_bytes h
  refine ⟨hbyte, List.forall_mem_map.2 fun x hx => ?_⟩
  obtain ⟨hpos, hle⟩ := decodeElems_width hd x hx
  exact ⟨hpos, hle.trans (Nat.pow_le_pow_right two_pos hwfb)⟩

end Sys2Proof.Proofs
end

section
/-! The decoder looks at nothing after its last element (R134): the bits it reads, as a list of their own, followed by anything
decode to the same result. -/

namespace Sys2Proof.Proofs

open Sys2Proof Sys2Proof.Machine Sys2Proof.Laws

/-- The bits the decoder reads after the header (R70). -/
def bitsRead (wfb : Nat) (es : List Elem) : Nat := (es.map (fun x => wfb + x.width)).sum

theorem sum_widths_eq_bitsRead (r : Decoded) : (r.widths.map (fun w => r.wfb + w)).sum = bitsRead r.wfb r.elems := by
  rw [Decoded.widths, List.map_map]
  rfl

/-- R134, for the loop. -/
theorem decodeElems_ok_append {cap : Option Nat} {wfb n i : Nat} {prev : Int} {bits : List Bool} {es : List Elem}
    (h : decodeElems cap wfb n i prev bits = .ok es) :
    ∃ s t, bits = s ++ t ∧ s.length = bitsRead wfb es ∧ ∀ t', decodeElems cap wfb n i prev (s ++ t') = .ok es := by
  induction n generalizing i prev bits es with
  | zero => cases h; exact ⟨[], bits, rfl, rfl, fun _ => rfl⟩
  | succ n ih =>
    obtain ⟨w, u, v, es, hw, hu, hv, hrange, hcap, hes, rfl⟩ := decodeElems_succ h
    obtain ⟨s, t, hst, hs, hagree⟩ := ih hes
    obtain ⟨hcode, -, -, -, hcodes⟩ := takeWidth_some hw
    obtain ⟨hdelta, huval⟩ := takeBits_some hu
    have hcodeLen : (bits.take wfb).length = wfb := List.length_take_of_le hcode
    have hdeltaLen : ((bits.drop wfb).take w).length = w := List.length_take_of_le hdelta
    refine ⟨bits.take wfb ++ ((bits.drop wfb).take w ++ s), t, ?_, ?_, fun t' => ?_⟩
    · rw [List.append_assoc, List.append_assoc, ← hst, List.take_append_drop, List.take_append_drop]
    · simp only [bitsRead, List.length_append, hcodeLen, hdeltaLen, hs, List.map_cons, List.sum_cons, Nat.add_assoc]
    · have hw' : takeWidth wfb (bits.take wfb ++ ((bits.drop wfb).take w ++ (s ++ t'))) =
          some (w, (bits.drop wfb).take w ++ (s ++ t')) := by
        rw [hcodes _ (by simp [hcodeLen]) (List.take_left' hcodeLen), List.drop_left' hcodeLen]
      have hu' : takeBits w ((bits.drop wfb).take w ++ (s ++ t')) = some (u, s ++ t') := by
        rw [takeBits_append _ _ hdeltaLen, (Prod.mk.inj huval).1]
      rw [List.append_assoc, List.append_assoc, decodeElems_succ_of_read hw' hu' hv hrange, hcap, hagree]
      rfl

/-- A byte string whose bits start with those of `a` starts with `a` (R3). -/
theorem eq_append_of_bitsOf_eq_append {a b : List Byte} {s : List Bool} (h : bitsOf b = bitsOf a ++ s) :
    ∃ c, b = a ++ c ∧ bitsOf c = s := by
  have hb : b = a ++ bytesOf s := by rw [← bytesOf_bitsOf b, h, bytesOf_bitsOf_append]
  refine ⟨bytesOf s, hb, List.append_cancel_left (as := bitsOf a) ?_⟩
  rw [← h, ← bitsOf_append, ← hb]

/-- Settles O33: a string that agrees on the bits read has the same header bytes, and after them the loop's bits. -/
theorem decoderIgnoresWhatFollows : Obligations.DecoderIgnoresWhatFollows := by
  intro a b r h
  rw [sum_widths_eq_bitsRead]
  obtain ⟨hlen, hbyte, hwfb, hd⟩ := vldDecodeCap_ok_bytes h
  obtain ⟨s, t, hst, hs, hagree⟩ := decodeElems_ok_append hd
  have ha := headerBytes_append_drop hlen
  rw [← hbyte] at ha
  have hheader : (bitsOf (headerBytes (unbe32 a) r.wfb)).length = 40 := length_bitsOf _
  have hread : (bitsOf (headerBytes (unbe32 a) r.wfb) ++ s).length = 40 + bitsRead r.wfb r.elems := by
    rw [List.length_append, hheader, hs]
  have hbits : bitsOf a = bitsOf (headerBytes (unbe32 a) r.wfb) ++ s ++ t := by
    rw [List.append_assoc, ← hst, ← bitsOf_append, ha]
  refine ⟨?_, fun heq => ?_⟩
  · rw [← length_bitsOf, hbits, ← hread, List.length_append]
    exact Nat.le_add_right _ _
  · rw [hbits, List.take_left' hread] at heq
    have hb : bitsOf b = bitsOf (headerBytes (unbe32 a) r.wfb) ++ (s ++ (bitsOf b).drop (40 + bitsRead r.wfb r.elems)) := by
      rw [← List.append_assoc, ← heq, List.take_append_drop]
    obtain ⟨c, hc, hcbits⟩ := eq_append_of_bitsOf_eq_append hb
    have hlt : r.wfb < 2 ^ 8 := hwfb.trans_lt (by decide)
    rw [vldDecode, hc, vldDecodeCap_headerBytes_append none (unbe32_lt a) hlt, if_neg (not_lt.2 hwfb), hcbits, hagree]
    rfl

end Sys2Proof.Proofs
end

section
/-! The capacity of the decoder (R137): the result under a capacity as a function of the result without one. -/

namespace Sys2Proof.Proofs

open Sys2Proof Sys2Proof.Machine Sys2Proof.Laws

/-- R137: what a capacity makes of the result `r` of decoding from element `i` on: CAP_SEQ at element `cap` where the stream gets
that far. -/
def underCap (cap i : Nat) (r : Except Failure (List Elem)) : Except Failure (List Elem) :=
  match r with
  | .ok es => if i + es.length ≤ cap then .ok es else .error ⟨.capSeq, cap⟩
  | .error f => if f.idx ≤ cap then .error f else .error ⟨.capSeq, cap⟩

theorem underCap_map_cons (cap i : Nat) (x : Elem) (r : Except Failure (List Elem)) :
    underCap cap i (r.map (x :: ·)) = (underCap cap (i + 1) r).map (x :: ·) := by
  cases r with
  | ok es =>
    simp only [Except.map, underCap, List.length_cons, Nat.add_right_comm i 1, ← Nat.add_assoc]
    split_ifs <;> rfl
  | error f =>
    simp only [Except.map, underCap]
    split_ifs <;> rfl

/-- R133: a defect is at an element that was not yet decoded. -/
theorem decodeElems_error_idx {cap : Option Nat} {wfb n i : Nat} {prev : Int} {bits : List Bool} {f : Failure}
    (h : decodeElems cap wfb n i prev bits = .error f) : i ≤ f.idx := by
  induction n generalizing i prev bits with
  | zero => cases h
  | succ n ih =>
    rcases decodeElems_succ_cases wfb i prev bits with ⟨g, hg, hstep⟩ | ⟨x, rest, hstep⟩
    · rw [hstep] at h; cases h; exact hg.ge
    · rw [hstep] at h
      split_ifs at h
      · cases h; exact le_refl _
      · cases hd : decodeElems cap wfb n (i + 1) x.value rest with
        | ok es => rw [hd] at h; cases h
        | error g => rw [hd] at h; cases h; exact (Nat.le_succ i).trans (ih hd)

/-- R137: a stream that goes on where the bank is full is stopped there, whatever comes after. -/
theorem underCap_map_cons_of_full {wfb n cap : Nat} {prev : Int} {bits : List Bool} (x : Elem) :
    underCap cap cap ((decodeElems none wfb n (cap + 1) prev bits).map (x :: ·)) = .error ⟨.capSeq, cap⟩ := by
  rw [underCap_map_cons]
  cases hd : decodeElems none wfb n (cap + 1) prev bits with
  | ok es => exact congrArg (Except.map _) (if_neg (by omega))
  | error f => exact congrArg (Except.map _) (if_neg (Nat.not_le.2 (decodeElems_error_idx hd)))

/-- R137, for the loop: it decodes up to element `cap` as without a capacity. -/
theorem decodeElems_some {cap wfb n i : Nat} {prev : Int} {bits : List Bool} (hi : i ≤ cap) :
    decodeElems (some cap) wfb n i prev bits = underCap cap i (decodeElems none wfb n i prev bits) := by
  induction n generalizing i prev bits with
  | zero => exact (if_pos hi).symm
  | succ n ih =>
    rcases decodeElems_succ_cases wfb i prev bits with ⟨f, hf, hstep⟩ | ⟨x, rest, hstep⟩
    · rw [hstep, hstep]
      exact (if_pos (hf.trans_le hi)).symm
    · have hnone : decodeElems none wfb (n + 1) i prev bits = (decodeElems none wfb n (i + 1) x.value rest).map (x :: ·) :=
        hstep none n
      rw [hstep, hnone]
      rcases hi.eq_or_lt with rfl | hlt
      · rw [underCap_map_cons_of_full]
        exact if_pos (decide_eq_true (le_refl i))
      · rw [underCap_map_cons, ← ih hlt]
        exact if_neg (by simpa [overCap] using hlt)

/-- Settles O36: a bad header is at index 0 whatever the capacity, and the loop's result is `underCap` of the one without it. -/
theorem capacityStopsTheDecoderAtItsElement : Obligations.CapacityStopsTheDecoderAtItsElement := by
  intro cap b
  rcases vldDecodeCap_cases b with ⟨g, hg, hdec⟩ | ⟨wfb, n, bits, hdec⟩
  · rw [vldDecode, hdec, hdec]
    refine ⟨fun _ h => (nomatch h), fun _ h => (nomatch h), fun f h _ => h, fun f h hlt => ?_⟩
    cases h
    omega
  · rw [vldDecode, hdec, hdec, decodeElems_some (Nat.zero_le cap)]
    cases decodeElems none wfb n 0 0 bits with
    | ok es =>
      refine ⟨fun r h hle => ?_, fun r h hlt => ?_, fun _ h => (nomatch h), fun _ h => (nomatch h)⟩
      · cases h
        exact congrArg (Except.map _) (if_pos (by simpa using hle))
      · cases h
        exact congrArg (Except.map _) (if_neg (by simpa using hlt))
    | error f =>
      refine ⟨fun _ h => (nomatch h), fun _ h => (nomatch h), fun g h hle => ?_, fun g h hlt => ?_⟩
      · cases h
        exact congrArg (Except.map _) (if_pos hle)
      · cases h
        exact congrArg (Except.map _) (if_neg hlt.not_ge)

end Sys2Proof.Proofs
end

section
/-! The inverse laws of the delta decoder (R143): the running sum after a value `p` is the inverse of the differences after `p`, and
element `k` of it is `p` plus the sum of the first `k + 1` deltas. -/

namespace Sys2Proof.Proofs

open Sys2Proof Sys2Proof.Machine Sys2Proof.Laws

/-- The differences of `x` where `p` is the value before its first element (R100): what `undeltaFrom` inverts from any element on. -/
def deltaFrom (p : Int) (x : List Int) : List Int := List.zipWith (fun y q => y - q) x (p :: x)

@[simp] theorem deltaFrom_nil (p : Int) : deltaFrom p [] = [] := rfl

@[simp] theorem deltaFrom_cons (p a : Int) (t : List Int) : deltaFrom p (a :: t) = (a - p) :: deltaFrom a t := rfl

theorem delta_eq_deltaFrom (x : List Int) : delta x = deltaFrom 0 x := by
  cases x with
  | nil => rfl
  | cons a t => rw [deltaFrom_cons, sub_zero]; rfl

section
variable {i : Nat} {p : Int}

theorem undeltaFrom_nil_eq_ok_iff {x : List Int} : undeltaFrom i p [] = .ok x ↔ x = [] := by
  rw [undeltaFrom, Except.ok.injEq, eq_comm]

/-- R140: one step of the running sum; element 0 has the value 0 before it, so every element adds its delta to the value before. -/
theorem undeltaFrom_cons_eq_ok_iff (hp : i = 0 → p = 0) {d : Int} {t x : List Int} :
    undeltaFrom i p (d :: t) = .ok x ↔
      InInt32 (p + d) ∧ ∃ y, undeltaFrom (i + 1) (p + d) t = .ok y ∧ x = (p + d) :: y := by
  have hsum : (if i = 0 then d else p + d) = p + d := by
    split_ifs with hi
    · rw [hp hi, zero_add]
    · rfl
  constructor
  · intro h
    obtain ⟨v, y, hv, hin, hy, rfl⟩ := undeltaFrom_cons h
    rw [hsum] at hv
    subst hv
    exact ⟨hin, y, hy, rfl⟩
  · rintro ⟨hin, y, hy, rfl⟩
    simp only [undeltaFrom, hsum, if_pos hin, hy]

/-- R143 (a) and (b), from any element on: the running sum gives the one sequence in INT32 that has these differences. -/
theorem undeltaFrom_eq_ok_iff (hp : i = 0 → p = 0) {d x : List Int} :
    undeltaFrom i p d = .ok x ↔ deltaFrom p x = d ∧ ∀ v ∈ x, InInt32 v := by
  induction d generalizing i p x with
  | nil =>
    rw [undeltaFrom_nil_eq_ok_iff]
    cases x <;> simp
  | cons a t ih =>
    rw [undeltaFrom_cons_eq_ok_iff hp]
    constructor
    · rintro ⟨hin, y, hy, rfl⟩
      obtain ⟨hd, hall⟩ := (ih (by omega)).1 hy
      exact ⟨by rw [deltaFrom_cons, hd, add_sub_cancel_left], List.forall_mem_cons.2 ⟨hin, hall⟩⟩
    · rintro ⟨hd, hall⟩
      cases x with
      | nil => cases hd
      | cons v y =>
        obtain ⟨rfl, rfl⟩ := List.cons.inj hd
        obtain ⟨hin, hall⟩ := List.forall_mem_cons.1 hall
        rw [add_sub_cancel]
        exact ⟨hin, y, (ih (by omega)).2 ⟨rfl, hall⟩, rfl⟩

/-- R143 (c), from any element on. -/
theorem exists_undeltaFrom_ok_iff (hp : i = 0 → p = 0) {d : List Int} :
    (∃ x, undeltaFrom i p d = .ok x) ↔ ∀ k, k < d.length → InInt32 (p + (d.take (k + 1)).sum) := by
  induction d generalizing i p with
  | nil => exact ⟨fun _ k hk => absurd hk (Nat.not_lt_zero k), fun _ => ⟨[], rfl⟩⟩
  | cons a t ih =>
    have hstep : (∃ x, undeltaFrom i p (a :: t) = .ok x) ↔
        InInt32 (p + a) ∧ ∃ y, undeltaFrom (i + 1) (p + a) t = .ok y := by
      simp only [undeltaFrom_cons_eq_ok_iff hp]
      exact ⟨fun ⟨_, hin, y, hy, _⟩ => ⟨hin, y, hy⟩, fun ⟨hin, y, hy⟩ => ⟨_, hin, y, hy, rfl⟩⟩
    rw [hstep, ih (by omega)]
    simp only [List.take_succ_cons, List.sum_cons, ← add_assoc, List.length_cons]
    constructor
    · rintro ⟨hin, hall⟩ (_ | k) hk
      · simpa using hin
      · exact hall k (Nat.lt_of_succ_lt_succ hk)
    · intro hall
      exact ⟨by simpa using hall 0 (Nat.succ_pos _), fun k hk => hall (k + 1) (Nat.succ_lt_succ hk)⟩

end

/-- R143 (a) and (b): `undelta` is the inverse of `delta` on the sequences in INT32. -/
theorem undelta_eq_ok_iff {d x : List Int} : undelta d = .ok x ↔ delta x = d ∧ ∀ v ∈ x, InInt32 v := by
  rw [delta_eq_deltaFrom]
  exact undeltaFrom_eq_ok_iff (fun _ => rfl)

/-- R143 (c): `undelta` succeeds exactly where no partial sum leaves INT32. -/
theorem exists_undelta_ok_iff {d : List Int} :
    (∃ x, undelta d = .ok x) ↔ ∀ i, i < d.length → InInt32 (d.take (i + 1)).sum := by
  simpa only [zero_add, undelta] using exists_undeltaFrom_ok_iff (i := 0) (p := 0) (fun _ => rfl) (d := d)

/-- Settles O28: `undelta` as the inverse of `delta` gives both round trips, and a running sum after 0 is a partial sum. -/
theorem runningSumInvertsDelta : Obligations.RunningSumInvertsDelta :=
  ⟨fun _ hx => undelta_eq_ok_iff.2 ⟨rfl, hx⟩, fun _ _ h => (undelta_eq_ok_iff.1 h).1, fun _ => exists_undelta_ok_iff⟩

end Sys2Proof.Proofs
end

section
/-! The parser test by test (R154 to R158, R160, R161): what each field answers by the bytes it stands on, how its answer reaches the
result of the parse, and that a parse reads nothing behind the third field. -/

namespace Sys2Proof.Proofs

open Sys2Proof Sys2Proof.Machine Sys2Proof.Laws

section
variable {cap : Option Nat} {k : Nat} {c : List Byte}

theorem takeWord_of_four_le (h : 4 ≤ c.length) : takeWord c = some (unbe32 c, c.drop 4) := if_neg (not_lt.2 h)

theorem parseField_of_lt_four (h : c.length < 4) : parseField cap k c = .error ⟨.fmtBlobLen, 0, k⟩ := by
  rw [parseField, takeWord_none.2 h]

theorem parseField_of_overrun (h4 : 4 ≤ c.length) (h : c.length - 4 < unbe32 c) :
    parseField cap k c = .error ⟨.fmtBlobBody, 0, k⟩ := by
  simp only [parseField, takeWord_of_four_le h4, List.length_drop, if_pos h]

/-- R157: a field whose bytes are all there is what its window decodes to, and the next field begins right after the window. -/
theorem parseField_of_whole (h4 : 4 ≤ c.length) (h : unbe32 c ≤ c.length - 4) :
    parseField cap k c =
      ((vldDecodeCap cap ((c.drop 4).take (unbe32 c))).map (·, c.drop (4 + unbe32 c))).mapError (·.at k) := by
  simp only [parseField, takeWord_of_four_le h4, List.length_drop, if_neg (not_lt.2 h), List.drop_drop]
  cases vldDecodeCap cap ((c.drop 4).take (unbe32 c)) <;> rfl

theorem parseField_of_decoded {r : Decoded} (hc : 4 ≤ c.length ∧ unbe32 c ≤ c.length - 4)
    (h : vldDecodeCap cap ((c.drop 4).take (unbe32 c)) = .ok r) : parseField cap k c = .ok (r, c.drop (4 + unbe32 c)) := by
  rw [parseField_of_whole hc.1 hc.2, h]
  rfl

/-- R156, R157: the three failures of a field, for any result `x` that its errors reach. -/
theorem fieldFailures {x : Except Exc Parsed} (hx : ∀ e, parseField cap k c = .error e → x = .error e) :
    (c.length < 4 → x = .error ⟨.fmtBlobLen, 0, k⟩) ∧
    (4 ≤ c.length → c.length - 4 < unbe32 c → x = .error ⟨.fmtBlobBody, 0, k⟩) ∧
    (∀ f, 4 ≤ c.length ∧ unbe32 c ≤ c.length - 4 → vldDecodeCap cap ((c.drop 4).take (unbe32 c)) = .error f →
      x = .error ⟨f.cause, f.idx, k⟩) :=
  ⟨fun h => hx _ (parseField_of_lt_four h), fun h4 h => hx _ (parseField_of_overrun h4 h),
    fun f hc hf => hx _ (by rw [parseField_of_whole hc.1 hc.2, hf]; rfl)⟩

end

section
variable {cap : Option Nat} {rows cols : Nat} {b b1 b2 : List Byte} {a0 a1 : Decoded}

theorem parseFields_of_error_zero (e : Exc) (h0 : parseField cap 0 b = .error e) : parseFields cap rows cols b = .error e := by
  rw [parseFields, h0]

/-- R158: the indptr check does not look at fields 1 and 2. -/
theorem parseFields_of_indptr_length_ne (h0 : parseField cap 0 b = .ok (a0, b1)) (hl : a0.elems.length ≠ rows + 1) :
    parseFields cap rows cols b = .error ⟨.fmtBlobIndptr, 0, 0⟩ := by
  simp only [parseFields, h0, if_pos hl]

theorem parseFields_of_error_one (h0 : parseField cap 0 b = .ok (a0, b1)) (hl : a0.elems.length = rows + 1) (e : Exc)
    (h1 : parseField cap 1 b1 = .error e) : parseFields cap rows cols b = .error e := by
  simp only [parseFields, h0, if_neg (not_not.2 hl), h1]

theorem parseFields_of_error_two (h0 : parseField cap 0 b = .ok (a0, b1)) (hl : a0.elems.length = rows + 1)
    (h1 : parseField cap 1 b1 = .ok (a1, b2)) (e : Exc) (h2 : parseField cap 2 b2 = .error e) :
    parseFields cap rows cols b = .error e := by
  simp only [parseFields, h0, if_neg (not_not.2 hl), h1, h2]

/-- R155: the dimensions need 8 bytes. -/
theorem blobParseCap_of_lt_eight (h : b.length < 8) : blobParseCap cap b = .error ⟨.fmtBlobDim, 0, 0⟩ := by
  unfold blobParseCap
  rcases lt_or_ge b.length 4 with h4 | h4
  · rw [takeWord_none.2 h4]
  · have hcols : takeWord (b.drop 4) = none := takeWord_none.2 (by rw [List.length_drop]; omega)
    simp only [takeWord_of_four_le h4, hcols]

theorem blobParseCap_of_eight_le (h : 8 ≤ b.length) :
    blobParseCap cap b = parseFields cap (unbe32 b) (unbe32 (b.drop 4)) (b.drop 8) := by
  have h4 : 4 ≤ b.length := by omega
  have hcols : 4 ≤ (b.drop 4).length := by rw [List.length_drop]; omega
  simp only [blobParseCap, takeWord_of_four_le h4, takeWord_of_four_le hcols, List.drop_drop]

end

/-! ### Bytes appended (R160) -/

theorem takeWord_append {b rest : List Byte} {v : Nat} (h : takeWord b = some (v, rest)) (tail : List Byte) :
    takeWord (b ++ tail) = some (v, rest ++ tail) := by
  match b, h with
  | _ :: _ :: _ :: _ :: _, rfl => rfl

/-- The window of a field is cut by the length read in front of it, so bytes appended only lengthen what is left. -/
theorem parseField_append {cap : Option Nat} {k : Nat} {b rest : List Byte} {r : Decoded}
    (h : parseField cap k b = .ok (r, rest)) (tail : List Byte) : parseField cap k (b ++ tail) = .ok (r, rest ++ tail) := by
  obtain ⟨len, b1, hword, hlen, hdec, rfl⟩ := parseField_ok h
  have hmore : ¬ (b1 ++ tail).length < len := by rw [List.length_append]; omega
  simp only [parseField, takeWord_append hword, if_neg hmore, List.take_append_of_le_length hlen,
    List.drop_append_of_le_length hlen, hdec]

theorem blobParseCap_append {cap : Option Nat} {b : List Byte} {p : Parsed} (h : blobParseCap cap b = .ok p)
    (tail : List Byte) : blobParseCap cap (b ++ tail) = .ok p := by
  obtain ⟨rows, cols, b1, b2, hrows, hcols, h⟩ := blobParseCap_ok h
  obtain ⟨a0, a1, a2, c1, c2, c3, h0, hl, h1, h2, rfl⟩ := parseFields_ok h
  simp only [blobParseCap, takeWord_append hrows, takeWord_append hcols]
  exact parseFields_intro (parseField_append h0 tail) hl (parseField_append h1 tail) (parseField_append h2 tail)

/-- Settles O40: the fields in order. A field's failures end the parse once the fields before it have passed; a field that decodes
hands the bytes after its window to the next. -/
theorem parserChecksAndIgnores : Obligations.ParserChecksAndIgnores := by
  intro cap b window next whole fails field0 field1 field2
  refine ⟨blobParseCap_of_lt_eight, fun h8 => ?_, fun p tail h => blobParseCap_append h tail⟩
  simp only [fails, blobParseCap_of_eight_le h8]
  refine ⟨fieldFailures parseFields_of_error_zero, fun r0 whole0 dec0 => ?_⟩
  have h0 : parseField cap 0 field0 = .ok (r0, field1) := parseField_of_decoded whole0 dec0
  refine ⟨parseFields_of_indptr_length_ne h0, fun hl =>
    ⟨fieldFailures (parseFields_of_error_one h0 hl), fun r1 whole1 dec1 => ?_⟩⟩
  have h1 : parseField cap 1 field1 = .ok (r1, field2) := parseField_of_decoded whole1 dec1
  exact ⟨fieldFailures (parseFields_of_error_two h0 hl h1), fun r2 whole2 dec2 =>
    parseFields_intro h0 hl h1 (parseField_of_decoded whole2 dec2)⟩

end Sys2Proof.Proofs
end

section
/-! The start and the end of the error state: an illegal word written to CMD (R180), a write to STATUS (R184) and reset, each
through the event as the step serves it. -/

namespace Sys2Proof.Proofs

open Sys2Proof Sys2Proof.Machine Sys2Proof.Laws

variable {s : State}

theorem step_regWrite_idle (hb : s.busy = false) {r : Nat} {v : Word} (he : s.nextEvent = .regWrite r v) :
    step s = .next (s.tick.writeReg r v) := by
  rw [step_eq s he, serve, hostRegWrite, tick_busy, hb, if_neg Bool.false_ne_true]

theorem step_reset (he : s.nextEvent = .reset) : step s = .next (hostReset s.tick) := by
  rw [step_eq s he, serve]

/-- R21. -/
theorem writeReg_cmd_of_no_err (herr : s.err = false) (w : Word) : s.writeReg 0x00 w = s.accept w :=
  if_neg (Bool.eq_false_iff.1 herr)

/-- R184: only bit 2 of the written word counts. -/
theorem writeReg_status_of_bit_set {v : Word} (hv : v.getLsbD 2 = true) : s.writeReg 0x01 v = s.clearErr := if_pos hv

theorem writeReg_status_of_bit_clear {v : Word} (hv : v.getLsbD 2 = false) : s.writeReg 0x01 v = s :=
  if_neg (Bool.eq_false_iff.1 hv)

@[simp] theorem err_resetWith (capSeq capBuf : Word) (es : List Event) (vs : List PortValue) (n : Nat) :
    (State.resetWith capSeq capBuf es vs n).err = false := BitVec.getLsbD_zero

/-- Settles O10: the first step is acceptance, and the engine's turn finds the illegal word in CMD. -/
theorem illegalWordRaisesIllegalCommand : Obligations.IllegalWordRaisesIllegalCommand := by
  intro s w es e hb herr hdec hsched
  have hwrite : s.nextEvent = .regWrite 0x00 w := by rw [State.nextEvent, hsched]; rfl
  have hengine : (s.tick.accept w).nextEvent = .engine := by rw [State.nextEvent, accept_schedule, tick_schedule, hsched]; rfl
  have hend : s.schedule.tail.tail = es := by rw [hsched]; rfl
  refine ⟨s.tick.accept w, ?_, accept_busy _ w, ?_⟩
  · rw [step_regWrite_idle hb hwrite, writeReg_cmd_of_no_err ((tick_err s).trans herr)]
  · rw [step_of_illegal hengine (accept_busy _ w) hdec, raiseIllegal_eq, ← hend]
    rfl

/-- Settles O13: the write is served as `clearErr` or as nothing by its bit 2, and reset gives R32's values. -/
theorem clearingErrEndsTheErrorState : Obligations.ClearingErrEndsTheErrorState := by
  refine fun s => ⟨fun v he hb => ⟨fun hv => ?_, fun hv => ?_⟩, fun he => ?_⟩
  · refine ⟨s.tick.clearErr, ?_, clearErr_err _, clearErr_done _, (clearErr_busy _).trans hb, rfl⟩
    rw [step_regWrite_idle hb he, writeReg_status_of_bit_set hv]
  · rw [step_regWrite_idle hb he, writeReg_status_of_bit_clear hv, State.tick]
  · exact ⟨_, step_reset he, err_resetWith _ _ _ _ _, rfl, rfl, rfl⟩

end Sys2Proof.Proofs
end

section
/-! The stream round trip (R122 (a), R138 (a)): an emitted element is read back whole, so the loop over the emitted elements gives
them all, and the decoder over an encoded stream its sequence. -/

namespace Sys2Proof.Proofs

open Sys2Proof Sys2Proof.Machine Sys2Proof.Laws

/-! ### One element -/

/-- R115: the width code of an element, present only when `wfb > 0`. -/
def widthCode (wfb w : Nat) : List Bool := if wfb > 0 then ubits wfb (w - 1) else []

theorem emitElement_eq (wfb : Nat) (d : Int) (w : Nat) : emitElement wfb d w = widthCode wfb w ++ tc w d := rfl

@[simp] theorem length_widthCode (wfb w : Nat) : (widthCode wfb w).length = wfb := by
  unfold widthCode
  split_ifs with h
  · exact length_ubits _ _
  · exact (Nat.eq_zero_of_not_pos h).symm

/-- R129: the width code reads back. -/
theorem takeWidth_widthCode {wfb w : Nat} (hpos : 1 ≤ w) (hle : w ≤ 2 ^ wfb) (rest : List Bool) :
    takeWidth wfb (widthCode wfb w ++ rest) = some (w, rest) := by
  unfold takeWidth widthCode
  split_ifs with h
  · rw [takeBits_append _ _ (length_ubits _ _), uval_ubits (by omega), Option.map_some, Nat.sub_add_cancel hpos]
  · obtain rfl : wfb = 0 := by omega
    obtain rfl : w = 1 := le_antisymm hle hpos
    rfl

theorem takeWidth_emitElement {wfb w : Nat} (d : Int) (hpos : 1 ≤ w) (hle : w ≤ 2 ^ wfb) (rest : List Bool) :
    takeWidth wfb (emitElement wfb d w ++ rest) = some (w, tc w d ++ rest) := by
  rw [emitElement_eq, List.append_assoc, takeWidth_widthCode hpos hle]

/-- R130: the delta reads back, as the number that sign extension turns into it. -/
theorem takeBits_tc (w : Nat) (d : Int) (rest : List Bool) : takeBits w (tc w d ++ rest) = some (uval (tc w d), rest) :=
  takeBits_append _ _ (length_tc w d)

theorem sext_uval_tc_width {d : Int} (h : InInt32 d) : sext (width d) (uval (tc (width d) d)) = d := by
  obtain ⟨hpos, -, hlo, hhi, -⟩ := width_least h
  exact sext_uval_tc hpos hlo hhi

/-! ### The loop -/

/-- The bits of the elements of a stream (R115). -/
def elementBits (wfb : Nat) (ds : List Int) : List Bool := (ds.map (fun d => emitElement wfb d (width d))).flatten

@[simp] theorem elementBits_nil (wfb : Nat) : elementBits wfb [] = [] := rfl

@[simp] theorem elementBits_cons (wfb : Nat) (d : Int) (ds : List Int) :
    elementBits wfb (d :: ds) = emitElement wfb d (width d) ++ elementBits wfb ds := rfl

/-- The elements that the sequence `x` decodes to where `p` is the value before its first element (R125). -/
def elemsFrom (p : Int) (x : List Int) : List Elem := List.zipWith (fun v d => ⟨v, d, width d⟩) x (deltaFrom p x)

@[simp] theorem elemsFrom_nil (p : Int) : elemsFrom p [] = [] := rfl

@[simp] theorem elemsFrom_cons (p v : Int) (x : List Int) :
    elemsFrom p (v :: x) = ⟨v, v - p, width (v - p)⟩ :: elemsFrom v x := rfl

/-- R131: element 0 has the value 0 before it, so every value is the one before plus its delta. -/
theorem value_eq_of_prev {i : Nat} {p v : Int} (hp : i = 0 → p = 0) : v = if i = 0 then v - p else p + (v - p) := by
  split_ifs with hi
  · rw [hp hi, sub_zero]
  · rw [add_sub_cancel]

/-- One turn of the loop over an element as the encoder emits it. -/
theorem decodeElems_emitElement {wfb n i : Nat} {p v : Int} (hp : i = 0 → p = 0) (hv : InInt32 v) (hd : InInt32 (v - p))
    (hw : width (v - p) ≤ 2 ^ wfb) (rest : List Bool) :
    decodeElems none wfb (n + 1) i p (emitElement wfb (v - p) (width (v - p)) ++ rest) =
      (decodeElems none wfb n (i + 1) v rest).map (⟨v, v - p, width (v - p)⟩ :: ·) := by
  have hsum := value_eq_of_prev (v := v) hp
  rw [← sext_uval_tc_width hd] at hsum
  rw [decodeElems_succ_of_read (takeWidth_emitElement _ (width_range _).1 hw rest) (takeBits_tc _ _ _) hsum hv,
    sext_uval_tc_width hd]
  rfl

theorem decodeElems_elementBits {wfb i : Nat} {p : Int} {x : List Int} (hp : i = 0 → p = 0) (hx : ∀ v ∈ x, InInt32 v)
    (hd : ∀ d ∈ deltaFrom p x, InInt32 d) (hw : ∀ d ∈ deltaFrom p x, width d ≤ 2 ^ wfb) (rest : List Bool) :
    decodeElems none wfb x.length i p (elementBits wfb (deltaFrom p x) ++ rest) = .ok (elemsFrom p x) := by
  induction x generalizing i p with
  | nil => rfl
  | cons v t ih =>
    simp only [deltaFrom_cons, List.forall_mem_cons] at hx hd hw
    rw [deltaFrom_cons, elementBits_cons, List.append_assoc, List.length_cons, decodeElems_emitElement hp hx.1 hd.1 hw.1,
      ih (by omega) hx.2 hd.2 hw.2]
    rfl

/-! ### The stream -/

theorem streamBits_scan_eq (x : List Int) : streamBits x.length (scan x) =
    bitsOf (headerBytes x.length (scan x).wfb) ++ elementBits (scan x).wfb (delta x) := by
  rw [bitsOf_headerBytes, streamBits_scan]
  rfl

/-- R114 to R116: an encoded stream is its header and bytes that hold the elements and fewer than 8 bits of padding. -/
theorem exists_vldStream_eq_append (x : List Int) : ∃ c padding, vldStream x = headerBytes x.length (scan x).wfb ++ c ∧
    bitsOf c = elementBits (scan x).wfb (delta x) ++ padding ∧ padding.length < 8 := by
  obtain ⟨padding, -, hshort, hpad⟩ := pad_eq_append (streamBits x.length (scan x))
  have hbits := (bitsOf_vldStream x).trans hpad
  rw [streamBits_scan_eq, List.append_assoc] at hbits
  obtain ⟨c, hc, hcbits⟩ := eq_append_of_bitsOf_eq_append hbits
  exact ⟨c, padding, hc, hcbits, hshort⟩

theorem scan_wfb_lt (x : List Int) : (scan x).wfb < 2 ^ 8 := (scan_wfb_le x).trans_lt (by decide)

/-- What an encoded sequence decodes to: its values, deltas and minimal widths, under the scan's `wfb` (R138 (a)). -/
def decodedOf (x : List Int) : Decoded := ⟨elemsFrom 0 x, (scan x).wfb⟩

theorem vldDecode_vldStream {x : List Int} (hx : ∀ v ∈ x, InInt32 v) (hlen : x.length < 2 ^ 32)
    (hd : ∀ d ∈ delta x, InInt32 d) : vldDecode (vldStream x) = .ok (decodedOf x) := by
  obtain ⟨c, padding, hstream, hbits, -⟩ := exists_vldStream_eq_append x
  have hw := width_le_two_pow_wfb x
  rw [delta_eq_deltaFrom] at hbits hd hw
  rw [vldDecode, hstream, vldDecodeCap_headerBytes_append none hlen (scan_wfb_lt x), if_neg (not_lt.2 (scan_wfb_le x)), hbits,
    decodeElems_elementBits (fun _ => rfl) hx hd hw]
  rfl

theorem values_elemsFrom (p : Int) (x : List Int) : (elemsFrom p x).map Elem.value = x := by
  induction x generalizing p with
  | nil => rfl
  | cons v t ih => rw [elemsFrom_cons, List.map_cons, ih]

theorem deltas_elemsFrom (p : Int) (x : List Int) : (elemsFrom p x).map Elem.delta = deltaFrom p x := by
  induction x generalizing p with
  | nil => rfl
  | cons v t ih => rw [elemsFrom_cons, List.map_cons, ih, deltaFrom_cons]

theorem widths_elemsFrom (p : Int) (x : List Int) : (elemsFrom p x).map Elem.width = (deltaFrom p x).map width := by
  induction x generalizing p with
  | nil => rfl
  | cons v t ih => rw [elemsFrom_cons, List.map_cons, ih, deltaFrom_cons, List.map_cons]

@[simp] theorem decodedOf_values (x : List Int) : (decodedOf x).values = x := values_elemsFrom 0 x

@[simp] theorem decodedOf_deltas (x : List Int) : (decodedOf x).deltas = delta x := by
  rw [delta_eq_deltaFrom]
  exact deltas_elemsFrom 0 x

@[simp] theorem decodedOf_widths (x : List Int) : (decodedOf x).widths = (delta x).map width := by
  rw [delta_eq_deltaFrom]
  exact widths_elemsFrom 0 x

@[simp] theorem length_elems_decodedOf (x : List Int) : (decodedOf x).elems.length = x.length := by
  rw [← List.length_map (f := Elem.value), ← Decoded.values, decodedOf_values]

/-- R112: a sequence that the encoder takes has no delta outside INT32. -/
theorem delta_inInt32_of_vldEncode {x : List Int} {e : List Byte} (h : vldEncode x = .ok e) : ∀ d ∈ delta x, InInt32 d := by
  rw [← scanOvf_eq_false_iff]
  by_contra hovf
  rw [vldEncode, if_pos (Bool.not_eq_false _ ▸ hovf)] at h
  cases h

/-- Settles O31: the decoder gives the elements of the sequence, under the scan's `wfb`. -/
theorem decodeInvertsVldEncode : Obligations.DecodeInvertsVldEncode := by
  intro x e hx hlen h
  obtain rfl := vldEncode_ok h
  exact ⟨decodedOf x, vldDecode_vldStream hx hlen (delta_inInt32_of_vldEncode h), decodedOf_values x, decodedOf_deltas x,
    decodedOf_widths x, rfl⟩

end Sys2Proof.Proofs
end

section
/-! The blob round trip and its truncations (R164): a whole field answers the decoding of its stream and leaves the bytes after it,
and a field that is cut short is refused before any of it is decoded. -/

namespace Sys2Proof.Proofs

open Sys2Proof Sys2Proof.Machine Sys2Proof.Laws

/-! ### The encoded streams -/

/-- A sequence whose stream a blob holds: R110's domain, the range that the encoder tests, and a length word that is not cut. -/
structure Encodable (x : List Int) : Prop where
  values : ∀ v ∈ x, InInt32 v
  count : x.length < 2 ^ 32
  deltas : ∀ d ∈ delta x, InInt32 d
  bytes : streamLength (scan x) < 2 ^ 32

theorem Encodable.length_vldStream_lt {x : List Int} (h : Encodable x) : (vldStream x).length < 2 ^ 32 := by
  rw [length_vldStream]
  exact h.bytes

/-- R137, R138 (a): an encoded sequence decodes under every capacity that it fits. -/
theorem vldDecodeCap_vldStream {cap : Option Nat} {x : List Int} (hx : ∀ v ∈ x, InInt32 v) (hlen : x.length < 2 ^ 32)
    (hd : ∀ d ∈ delta x, InInt32 d) (hcap : ∀ c, cap = some c → x.length ≤ c) :
    vldDecodeCap cap (vldStream x) = .ok (decodedOf x) := by
  have hdec := vldDecode_vldStream hx hlen hd
  cases cap with
  | none => exact hdec
  | some c =>
    exact (capacityStopsTheDecoderAtItsElement c (vldStream x)).1 _ hdec ((length_elems_decodedOf x).trans_le (hcap c rfl))

/-! ### Assembling -/

theorem encodeField_ok {k : Nat} {a : List Int} {e : List Byte} (h : encodeField k a = .ok e) : vldEncode a = .ok e := by
  rw [encodeField] at h
  cases hv : vldEncode a with
  | ok e' => rw [hv] at h; cases h; rfl
  | error f => rw [hv] at h; cases h

/-- R150: an assembled blob lays out the three streams of the matrix. -/
theorem blobAssemble_ok {m : Matrix} {e : List Byte} (h : blobAssemble m = .ok e) :
    (∀ a ∈ [m.indptr, m.indices, m.data], ∀ d ∈ delta a, InInt32 d) ∧
      e = blobBytes m.rows m.cols (vldStream m.indptr) (vldStream m.indices) (vldStream m.data) := by
  rw [blobAssemble] at h
  cases h0 : encodeField 0 m.indptr with
  | error f => rw [h0] at h; cases h
  | ok e0 =>
  cases h1 : encodeField 1 m.indices with
  | error f => simp only [h0, h1] at h; cases h
  | ok e1 =>
  cases h2 : encodeField 2 m.data with
  | error f => simp only [h0, h1, h2] at h; cases h
  | ok e2 =>
  simp only [h0, h1, h2, Except.ok.injEq] at h
  have v0 := encodeField_ok h0
  have v1 := encodeField_ok h1
  have v2 := encodeField_ok h2
  refine ⟨?_, ?_⟩
  · simp only [List.forall_mem_cons]
    exact ⟨delta_inInt32_of_vldEncode v0, delta_inInt32_of_vldEncode v1, delta_inInt32_of_vldEncode v2, List.forall_mem_nil _⟩
  · rw [← h, vldEncode_ok v0, vldEncode_ok v1, vldEncode_ok v2]

/-- The domain of R164 and a blob give three encodable sequences. -/
theorem encodable_of_blobAssemble {m : Matrix} {e : List Byte}
    (hm : ∀ a ∈ [m.indptr, m.indices, m.data], (∀ v ∈ a, InInt32 v) ∧ a.length < 2 ^ 32 ∧ streamLength (scan a) < 2 ^ 32)
    (h : blobAssemble m = .ok e) : Encodable m.indptr ∧ Encodable m.indices ∧ Encodable m.data := by
  have henc : ∀ a ∈ [m.indptr, m.indices, m.data], Encodable a := fun a ha =>
    ⟨(hm a ha).1, (hm a ha).2.1, (blobAssemble_ok h).1 a ha, (hm a ha).2.2⟩
  exact ⟨henc _ (by simp), henc _ (by simp), henc _ (by simp)⟩

/-! ### Parsing what was assembled -/

section
variable {cap : Option Nat} {k : Nat} {e rest : List Byte} {r : Decoded}

theorem takeWord_prefixed (he : e.length < 2 ^ 32) : takeWord (prefixed e ++ rest) = some (e.length, e ++ rest) := by
  rw [prefixed, List.append_assoc, takeWord_be32 he]

/-- R156, R157: a whole field. -/
theorem parseField_prefixed (he : e.length < 2 ^ 32) (hr : vldDecodeCap cap e = .ok r) :
    parseField cap k (prefixed e ++ rest) = .ok (r, rest) := by
  have hwhole : ¬ (e ++ rest).length < e.length := by rw [List.length_append]; omega
  simp only [parseField, takeWord_prefixed he, if_neg hwhole, List.take_left', List.drop_left', hr]

end

theorem blobParseCap_dims {cap : Option Nat} {rows cols : Nat} (hrows : rows < 2 ^ 32) (hcols : cols < 2 ^ 32)
    (fields : List Byte) : blobParseCap cap (be32 rows ++ (be32 cols ++ fields)) = parseFields cap rows cols fields := by
  simp only [blobParseCap, takeWord_be32 hrows, takeWord_be32 hcols]

theorem blobBytes_eq (rows cols : Nat) (e0 e1 e2 : List Byte) :
    blobBytes rows cols e0 e1 e2 = be32 rows ++ (be32 cols ++ (prefixed e0 ++ (prefixed e1 ++ (prefixed e2 ++ [])))) := by
  simp only [blobBytes, List.append_assoc, List.append_nil]

/-- R164: under any capacity that the three sequences fit. -/
theorem blobParseCap_blobBytes {cap : Option Nat} {rows cols : Nat} {x0 x1 x2 : List Int} (hrows : rows < 2 ^ 32)
    (hcols : cols < 2 ^ 32) (hindptr : x0.length = rows + 1) (h0 : Encodable x0) (h1 : Encodable x1) (h2 : Encodable x2)
    (hcap : ∀ c, cap = some c → x0.length ≤ c ∧ x1.length ≤ c ∧ x2.length ≤ c) :
    blobParseCap cap (blobBytes rows cols (vldStream x0) (vldStream x1) (vldStream x2)) =
      .ok ⟨rows, cols, decodedOf x0, decodedOf x1, decodedOf x2⟩ := by
  have d0 := vldDecodeCap_vldStream h0.values h0.count h0.deltas fun c hc => (hcap c hc).1
  have d1 := vldDecodeCap_vldStream h1.values h1.count h1.deltas fun c hc => (hcap c hc).2.1
  have d2 := vldDecodeCap_vldStream h2.values h2.count h2.deltas fun c hc => (hcap c hc).2.2
  rw [blobBytes_eq, blobParseCap_dims hrows hcols]
  exact parseFields_intro (parseField_prefixed h0.length_vldStream_lt d0) ((length_elems_decodedOf x0).trans hindptr)
    (parseField_prefixed h1.length_vldStream_lt d1) (parseField_prefixed h2.length_vldStream_lt d2)

/-- Settles O37: the parser reads back the dimensions and, field by field, what the encoder wrote. -/
theorem parseInvertsAssemble : Obligations.ParseInvertsAssemble := by
  intro m e hrows hcols hindptr hm h
  obtain ⟨h0, h1, h2⟩ := encodable_of_blobAssemble hm h
  rw [(blobAssemble_ok h).2, blobParse, blobParseCap_blobBytes (cap := none) hrows hcols hindptr h0 h1 h2 nofun]
  simp only [Parsed.matrix, decodedOf_values]

/-! ### Truncated blobs -/

/-- A parse that fails with a FormatError. -/
def failsFormat {α : Type} (x : Except Exc α) : Prop := ∃ f, x = .error f ∧ causeKind f.cause = .formatError

/-- R156: a field that is cut short lacks its length word or overruns. -/
theorem parseField_take_of_lt {cap : Option Nat} {k j : Nat} {e : List Byte} (he : e.length < 2 ^ 32)
    (hj : j < (prefixed e).length) : failsFormat (parseField cap k ((prefixed e).take j)) := by
  have hlen : ((prefixed e).take j).length = j := List.length_take_of_le hj.le
  rw [prefixed, List.length_append, length_be32] at hj
  rcases lt_or_ge j 4 with h4 | h4
  · exact ⟨_, parseField_of_lt_four (hlen.trans_lt h4), rfl⟩
  · have hword : unbe32 ((prefixed e).take j) = e.length := by
      rw [prefixed, List.take_append, List.take_of_length_le h4, unbe32_be32_append he]
    exact ⟨_, parseField_of_overrun (h4.trans_eq hlen.symm) (by rw [hlen, hword]; omega), rfl⟩

/-- A cut somewhere in a field or after it: the field is refused, or it decodes and the cut is in what follows. -/
theorem parseField_take_cases {cap : Option Nat} {k j : Nat} {e rest : List Byte} {r : Decoded} (he : e.length < 2 ^ 32)
    (hr : vldDecodeCap cap e = .ok r) (hj : j < (prefixed e ++ rest).length) :
    failsFormat (parseField cap k ((prefixed e ++ rest).take j)) ∨
      ∃ j', j' < rest.length ∧ parseField cap k ((prefixed e ++ rest).take j) = .ok (r, rest.take j') := by
  rw [List.length_append] at hj
  rcases lt_or_ge j (prefixed e).length with hlt | hge
  · rw [List.take_append_of_le_length hlt.le]
    exact .inl (parseField_take_of_lt he hlt)
  · refine .inr ⟨j - (prefixed e).length, by omega, ?_⟩
    rw [List.take_append, List.take_of_length_le hge, parseField_prefixed he hr]

/-- R164: a cut in the fields. A field before the cut decodes, the field with the cut is refused. -/
theorem parseFields_take {cap : Option Nat} {rows cols j : Nat} {e0 e1 e2 : List Byte} {r0 r1 r2 : Decoded}
    (he0 : e0.length < 2 ^ 32) (he1 : e1.length < 2 ^ 32) (he2 : e2.length < 2 ^ 32) (hr0 : vldDecodeCap cap e0 = .ok r0)
    (hr1 : vldDecodeCap cap e1 = .ok r1) (hr2 : vldDecodeCap cap e2 = .ok r2) (hindptr : r0.elems.length = rows + 1)
    (hj : j < (prefixed e0 ++ (prefixed e1 ++ (prefixed e2 ++ []))).length) :
    failsFormat (parseFields cap rows cols ((prefixed e0 ++ (prefixed e1 ++ (prefixed e2 ++ []))).take j)) := by
  rcases parseField_take_cases (k := 0) he0 hr0 hj with ⟨f, hf, hk⟩ | ⟨j1, hj1, h0⟩
  · exact ⟨f, parseFields_of_error_zero f hf, hk⟩
  rcases parseField_take_cases (k := 1) he1 hr1 hj1 with ⟨f, hf, hk⟩ | ⟨j2, hj2, h1⟩
  · exact ⟨f, parseFields_of_error_one h0 hindptr f hf, hk⟩
  rcases parseField_take_cases (k := 2) he2 hr2 hj2 with ⟨f, hf, hk⟩ | ⟨j3, hj3, -⟩
  · exact ⟨f, parseFields_of_error_two h0 hindptr h1 f hf, hk⟩
  · exact absurd hj3 (Nat.not_lt_zero j3)

/-- Settles O38: a cut in the dimensions leaves fewer than 8 bytes, any other is a cut in the fields. -/
theorem everyTruncatedBlobFails : Obligations.EveryTruncatedBlobFails := by
  intro m e k hrows hcols hindptr hm h hk
  obtain ⟨h0, h1, h2⟩ := encodable_of_blobAssemble hm h
  have hfail : failsFormat (blobParseCap none (e.take k)) := by
    rw [(blobAssemble_ok h).2, blobBytes_eq] at hk ⊢
    simp only [List.length_append, length_be32] at hk
    rcases lt_or_ge k 8 with h8 | h8
    · exact ⟨_, blobParseCap_of_lt_eight ((List.length_take_le _ _).trans_lt h8), rfl⟩
    · rw [List.take_append, List.take_append, List.take_of_length_le (by rw [length_be32]; omega),
        List.take_of_length_le (by rw [length_be32, length_be32]; omega), blobParseCap_dims hrows hcols]
      refine parseFields_take h0.length_vldStream_lt h1.length_vldStream_lt h2.length_vldStream_lt
        (vldDecode_vldStream h0.values h0.count h0.deltas) (vldDecode_vldStream h1.values h1.count h1.deltas)
        (vldDecode_vldStream h2.values h2.count h2.deltas) ((length_elems_decodedOf _).trans hindptr) ?_
      simp only [List.length_append, length_be32]
      omega
  obtain ⟨f, hf, hkind⟩ := hfail
  exact ⟨f, by rw [blobParse, hf], hkind⟩

end Sys2Proof.Proofs
end

section
/-! DENC and DDEC (R103, R142): what the scratch and a bank hold after the command completes, what each exception leaves, and the two
commands in sequence (R105). -/

namespace Sys2Proof.Proofs

open Sys2Proof Sys2Proof.Machine Sys2Proof.Laws

/-! ### The scan -/

section
variable (s : State) (x : List Int)

theorem wrote_setAll {w : Nat} (m : Memory w) (vs : List (BitVec w)) : Memory.wrote m (m.setAll 0 vs) vs :=
  ⟨fun _ hi => get_setAll_of_lt m vs hi, fun _ hi => get_setAll_of_ge m vs hi⟩

theorem largestWidth_maxWidth : largestWidth ((delta x).map width) (scan x).maxWidth := maxWidthOf_spec _

/-- R71: no code of fewer bits names every width. -/
theorem leastFieldBits_wfb : leastFieldBits ((delta x).map width) (scan x).wfb := by
  refine ⟨List.forall_mem_map.2 (width_le_two_pow_wfb x), fun j hj => ?_⟩
  by_contra hlt
  obtain ⟨d, hd, hgt⟩ := exists_width_gt_of_wfb_ne_zero (x := x) (by omega)
  have hle : width d ≤ 2 ^ ((scan x).wfb - 1) :=
    (hj _ (List.mem_map_of_mem hd)).trans (Nat.pow_le_pow_right two_pos (by omega))
  exact absurd hgt hle.not_gt

theorem wrote_dlt_writeScan : Memory.wrote s.dlt (s.writeScan x).dlt ((delta x).map (BitVec.ofInt 33)) := by
  rw [writeScan_dlt]
  exact wrote_setAll _ _

theorem wrote_wid_writeScan : Memory.wrote s.wid (s.writeScan x).wid ((delta x).map (fun d => BitVec.ofNat 6 (width d))) := by
  have hwid : (scan x).widths.map (BitVec.ofNat 6) = (delta x).map (fun d => BitVec.ofNat 6 (width d)) := by
    rw [scan_widths, List.map_map]
    rfl
  rw [writeScan_wid, hwid]
  exact wrote_setAll _ _

theorem ofNat_length_source (s : State) (b : Bank) : BitVec.ofNat 32 (s.source b).length = s.seqLen b :=
  ofNat_eq_of_length (length_source s b)

theorem dltLen_writeScan_source (b : Bank) : (s.writeScan (s.source b)).dltLen = s.seqLen b := by
  rw [writeScan_dltLen, scan_deltas, length_delta]
  exact ofNat_length_source s b

theorem maxw_writeScan : ∃ mw : Nat, (s.writeScan x).maxw = .holds (BitVec.ofNat 6 mw) ∧ mw ≤ 32 ∧
    largestWidth ((delta x).map width) mw :=
  ⟨_, writeScan_maxw s x, scan_maxWidth_le x, largestWidth_maxWidth x⟩

theorem wfb_writeScan : ∃ k : Nat, (s.writeScan x).wfb = .holds (BitVec.ofNat 8 k) ∧ k ≤ 5 ∧
    leastFieldBits ((delta x).map width) k :=
  ⟨_, writeScan_wfb s x, scan_wfb_le x, leastFieldBits_wfb x⟩

theorem flagsOf_eq_one_iff (o : Bool) : flagsOf o = 1#1 ↔ o = true := by
  revert o
  decide

end

/-- R101: every delta of a sequence in INT32 fits an entry of DLT. -/
theorem delta_range {x : List Int} (hx : ∀ v ∈ x, InInt32 v) : ∀ d ∈ delta x, -2 ^ 32 ≤ d ∧ d < 2 ^ 32 := by
  intro d hd
  obtain ⟨i, hi, rfl⟩ := List.getElem_of_mem hd
  rw [getElem_delta hi]
  rw [length_delta] at hi
  have hrange := deltaAt_range hx hi
  omega

theorem get_dlt_writeScan (s : State) {x : List Int} (hx : ∀ v ∈ x, InInt32 v) {i : Nat} (hi : i < x.length) :
    ∃ v, (s.writeScan x).dlt.get i = some v ∧ v.toInt = deltaAt x i := by
  have hlen : i < (delta x).length := (length_delta x).symm ▸ hi
  refine ⟨_, (wrote_dlt_writeScan s x).1 i ((List.length_map (BitVec.ofInt 33)).symm ▸ hlen), ?_⟩
  rw [List.getElem_map, getElem_delta hlen]
  exact toInt_ofInt_33 (delta_range hx _ (deltaAt_mem_delta hi))

/-! ### DENC -/

section
variable {s : State} {f : BitVec 2} {b : Bank}

theorem exec_denc_of_le (hf : bankOf f = some b) (hlen : (s.seqLen b).toNat ≤ s.capSeq.toNat) :
    exec (.denc f) s = .next (s.writeScan (s.source b)).complete := by
  rw [exec_denc s hf]
  rcases dencBank_cases s b with ⟨hgt, -⟩ | ⟨-, h⟩
  · exact absurd hgt hlen.not_gt
  · rw [h]

theorem exec_denc_of_gt (hf : bankOf f = some b) (hlen : s.capSeq.toNat < (s.seqLen b).toNat) :
    exec (.denc f) s = .next (takeException destsDenc ⟨.capSrcLen, 0, bankNumber b⟩ s) := by
  rw [exec_denc s hf]
  rcases dencBank_cases s b with ⟨-, h⟩ | ⟨hle, -⟩
  · rw [h]
  · exact absurd hlen hle.not_gt

end

/-- Settles O42: DENC completes with the scan of the bank in the scratch. -/
theorem dencWritesTheScan : Obligations.DencWritesTheScan := by
  intro s f b hf hlen
  refine ⟨_, exec_denc_of_le hf hlen, complete_busy _, complete_done _, ?_, wrote_dlt_writeScan s _, fun i hi => ?_,
    wrote_wid_writeScan s _, dltLen_writeScan_source s b, maxw_writeScan s _, wfb_writeScan s _, ?_, rfl⟩
  · rw [complete_err, writeScan_err]
  · exact get_dlt_writeScan s (source_inInt32 s b) ((length_source s b).symm ▸ hi)
  · rw [complete_flags, writeScan_flags, flagsOf_eq_one_iff, scanOvf_iff]

/-- Settles O43: exception entry with the scratch as its destination. -/
theorem dencTrapsOnLength : Obligations.DencTrapsOnLength := fun _ _ _ hf hlen => exec_denc_of_gt hf hlen

/-! ### The running sum -/

/-- R140: what the differences after `p` add up to. -/
theorem add_sum_take_deltaFrom {p : Int} {x : List Int} {k : Nat} (hk : k < x.length) :
    p + ((deltaFrom p x).take (k + 1)).sum = x[k] := by
  induction x generalizing p k with
  | nil => exact absurd hk (Nat.not_lt_zero k)
  | cons v t ih =>
    rw [deltaFrom_cons, List.take_succ_cons, List.sum_cons, ← add_assoc, add_sub_cancel]
    cases k with
    | zero => simp
    | succ k => exact ih (Nat.lt_of_succ_lt_succ hk)

theorem getElem_of_undelta {d x : List Int} (h : undelta d = .ok x) {k : Nat} (hk : k < x.length) :
    x[k] = (d.take (k + 1)).sum := by
  rw [← (undelta_eq_ok_iff.1 h).1, delta_eq_deltaFrom, ← add_sum_take_deltaFrom (p := 0) hk, zero_add]

/-- R141: the running sum fails at the first partial sum outside INT32. -/
theorem undeltaFrom_of_first_out {i k : Nat} {p : Int} {d : List Int} (hp : i = 0 → p = 0) (hk : k < d.length)
    (hout : ¬ InInt32 (p + (d.take (k + 1)).sum)) (hin : ∀ j, j < k → InInt32 (p + (d.take (j + 1)).sum)) :
    undeltaFrom i p d = .error ⟨.rngDecAcc, i + k⟩ := by
  induction d generalizing i k p with
  | nil => exact absurd hk (Nat.not_lt_zero k)
  | cons a t ih =>
    have hsum : (if i = 0 then a else p + a) = p + a := by
      split_ifs with hi
      · rw [hp hi, zero_add]
      · rfl
    simp only [List.take_succ_cons, List.sum_cons, ← add_assoc] at hout hin
    cases k with
    | zero =>
      have hfirst : ¬ InInt32 (p + a) := by simpa using hout
      simp only [undeltaFrom, hsum, if_neg hfirst, Nat.add_zero]
    | succ k =>
      have hfirst : InInt32 (p + a) := by simpa using hin 0 k.succ_pos
      have hrest := ih (i := i + 1) (p := p + a) (by omega) (Nat.lt_of_succ_lt_succ hk) hout
        fun j hj => hin (j + 1) (Nat.succ_lt_succ hj)
      simp only [undeltaFrom, hsum, if_pos hfirst, hrest, Nat.add_right_comm i 1, Nat.add_assoc]

theorem undelta_of_first_out {k : Nat} {d : List Int} (hk : k < d.length) (hout : ¬ InInt32 (d.take (k + 1)).sum)
    (hin : ∀ j, j < k → InInt32 (d.take (j + 1)).sum) : undelta d = .error ⟨.rngDecAcc, k⟩ := by
  have h := undeltaFrom_of_first_out (i := 0) (p := 0) (fun _ => rfl) hk (by rwa [zero_add]) (by simpa only [zero_add] using hin)
  rwa [Nat.zero_add] at h

/-! ### DDEC -/

section
variable {s : State} {f : BitVec 2} {b : Bank}

theorem exec_ddec_of_ok {x : List Int} (hf : bankOf f = some b) (hlen : s.dltLen.toNat ≤ s.capSeq.toNat)
    (hx : undelta s.deltaSource = .ok x) : exec (.ddec f) s = .next (s.writeBank b x).complete := by
  rw [exec_ddec s hf]
  rcases ddecBank_cases s b with ⟨hgt, -⟩ | ⟨-, e, he, -⟩ | ⟨-, y, hy, h⟩
  · exact absurd hgt hlen.not_gt
  · rw [hx] at he; cases he
  · rw [hx] at hy; cases hy; rw [h]

theorem exec_ddec_of_error {e : Failure} (hf : bankOf f = some b) (hlen : s.dltLen.toNat ≤ s.capSeq.toNat)
    (he : undelta s.deltaSource = .error e) :
    exec (.ddec f) s = .next (takeException (destsDdec b) (e.at (bankNumber b)) s) := by
  rw [exec_ddec s hf]
  rcases ddecBank_cases s b with ⟨hgt, -⟩ | ⟨-, e', he', h⟩ | ⟨-, y, hy, -⟩
  · exact absurd hgt hlen.not_gt
  · rw [he] at he'; cases he'; rw [h]
  · rw [he] at hy; cases hy

theorem exec_ddec_of_gt (hf : bankOf f = some b) (hlen : s.capSeq.toNat < s.dltLen.toNat) :
    exec (.ddec f) s = .next (takeException (destsDdec b) ⟨.capSrcLen, 0, bankNumber b⟩ s) := by
  rw [exec_ddec s hf]
  rcases ddecBank_cases s b with ⟨-, h⟩ | ⟨hle, -⟩ | ⟨hle, -⟩
  · rw [h]
  all_goals exact absurd hlen hle.not_gt

end

theorem takeException_destsDdec (b : Bank) (e : Exc) (s : State) : takeException (destsDdec b) e s =
    { (s.setSeqLen b 0).setSeq b [] with
      status := 0b110#3, errcode := causeCode e.cause, erridx := BitVec.ofNat 32 e.idx, errfld := BitVec.ofNat 2 e.fld,
      flags := flagsOf (ovfAfter e.cause) } := rfl

theorem writeBank_seq_self (s : State) (b : Bank) (x : List Int) :
    (s.writeBank b x).seq b = (s.seq b).setAll 0 (x.map (BitVec.ofInt 32)) := (writeBank_seq s b b x).trans (if_pos rfl)

theorem writeBank_seqLen_self (s : State) (b : Bank) (x : List Int) : (s.writeBank b x).seqLen b = BitVec.ofNat 32 x.length :=
  (writeBank_seqLen s b b x).trans (if_pos rfl)

/-- The frame of a completion that writes one bank (R34). -/
theorem writeBank_complete_frame (s : State) (b : Bank) (x : List Int) : (s.writeBank b x).complete =
    { (s.setSeq b ((s.writeBank b x).complete.seq b)).setSeqLen b ((s.writeBank b x).complete.seqLen b) with
      status := (s.writeBank b x).complete.status } := by
  cases b <;> rfl

/-- Settles O48: DDEC completes with the running sum, whose elements are the partial sums. -/
theorem ddecWritesTheRunningSum : Obligations.DdecWritesTheRunningSum := by
  intro s f b hf hlen hin
  rw [← length_deltaSource] at hin
  obtain ⟨x, hx⟩ := exists_undelta_ok_iff.2 hin
  have hlenx : x.length = s.dltLen.toNat := (undelta_length hx).trans (length_deltaSource s)
  refine ⟨_, exec_ddec_of_ok hf hlen hx, complete_busy _, complete_done _, ?_, ?_, fun i hi => ?_, fun i hi => ?_,
    writeBank_complete_frame s b x⟩
  · rw [complete_err, writeBank_err]
  · rw [complete_seqLen, writeBank_seqLen_self]
    exact ofNat_eq_of_length hlenx
  · have hix : i < x.length := hlenx.symm ▸ hi
    refine ⟨BitVec.ofInt 32 x[i], ?_, ?_⟩
    · rw [complete_seq, writeBank_seq_self, get_setAll_of_lt _ _ (by rwa [List.length_map]), List.getElem_map]
    · rw [toInt_ofInt_32 ((undelta_eq_ok_iff.1 hx).2 _ (List.getElem_mem hix)), getElem_of_undelta hx hix]
  · rw [complete_seq, writeBank_seq_self, get_setAll_of_ge _ _ (by rwa [List.length_map, hlenx])]

/-- Settles O49: the length test, then the first partial sum outside INT32. -/
theorem ddecTraps : Obligations.DdecTraps := by
  intro s f b hf failed
  refine ⟨fun hlen => ?_, fun k hlen hk hout hin => ?_⟩
  · rw [exec_ddec_of_gt hf hlen, takeException_destsDdec]
    rfl
  · have hfail := undelta_of_first_out ((length_deltaSource s).symm ▸ hk) hout hin
    rw [exec_ddec_of_error hf hlen hfail, takeException_destsDdec]
    rfl

/-! ### DENC, then DDEC -/

/-- A bank that a command has written, read as a source (R11). -/
theorem source_writeBank {s t : State} {b : Bank} {x : List Int} (hx : ∀ v ∈ x, InInt32 v) (hlen : x.length < 2 ^ 32)
    (hseq : t.seq b = (s.writeBank b x).seq b) (hseqLen : t.seqLen b = (s.writeBank b x).seqLen b) : t.source b = x := by
  refine source_of_written hx ?_ (hseq.trans (writeBank_seq_self s b x))
  rw [hseqLen, writeBank_seqLen_self, BitVec.toNat_ofNat, Nat.mod_eq_of_lt hlen]

theorem length_source_lt (s : State) (b : Bank) : (s.source b).length < 2 ^ 32 := by
  rw [length_source]
  exact (s.seqLen b).isLt

/-- Settles O55: DENC leaves the deltas of the bank, whose running sum is the sequence. -/
theorem dencThenDdecRestoresTheSequence : Obligations.DencThenDdecRestoresTheSequence := by
  intro s f g b c hf hg hlen
  have hx := source_inInt32 s b
  have hdltLen : (s.writeScan (s.source b)).complete.dltLen = s.seqLen b := dltLen_writeScan_source s b
  have hdeltas : (s.writeScan (s.source b)).complete.deltaSource = delta (s.source b) :=
    deltaSource_of_written (delta_range hx) (by rw [hdltLen, length_delta, length_source]) (writeScan_dlt s (s.source b))
  have hsum : undelta (s.writeScan (s.source b)).complete.deltaSource = .ok (s.source b) := by
    rw [hdeltas]
    exact undelta_eq_ok_iff.2 ⟨rfl, hx⟩
  refine ⟨_, _, exec_denc_of_le hf hlen, exec_ddec_of_ok hg ?_ hsum, ?_, ?_,
    source_writeBank hx (length_source_lt s b) (complete_seq _ c) (complete_seqLen _ c)⟩
  · rw [hdltLen, complete_capSeq, writeScan_capSeq]
    exact hlen
  · simp only [complete_err, writeBank_err, writeScan_err]
  · rw [complete_seqLen, writeBank_seqLen_self]
    exact ofNat_length_source s b

end Sys2Proof.Proofs
end

section
/-! VENC and VDEC (R118, R136): the results of a completion, the exceptions in the order tested, and the two commands in sequence
(R138 (a)). -/

namespace Sys2Proof.Proofs

open Sys2Proof Sys2Proof.Machine Sys2Proof.Laws

/-! ### VENC -/

section
variable {s : State} {f : BitVec 2} {b : Bank}

theorem exec_venc_of_ok (hf : bankOf f = some b) (hlen : (s.seqLen b).toNat ≤ s.capSeq.toNat)
    (hd : ∀ d ∈ delta (s.source b), InInt32 d) (hcap : streamLength (scan (s.source b)) ≤ s.capBuf.toNat) :
    exec (.venc f) s = .next ((s.writeScan (s.source b)).writeBuf (vldStream (s.source b))).complete := by
  rw [exec_venc s hf]
  rcases vencBank_cases s b with ⟨hgt, -⟩ | ⟨-, hovf, -⟩ | ⟨-, -, hgt, -⟩ | ⟨-, -, -, h⟩
  · exact absurd hgt hlen.not_gt
  · exact absurd hovf (Bool.eq_false_iff.1 (scanOvf_eq_false_iff.2 hd))
  · exact absurd hgt hcap.not_gt
  · rw [h]

theorem exec_venc_of_gt (hf : bankOf f = some b) (hlen : s.capSeq.toNat < (s.seqLen b).toNat) :
    exec (.venc f) s = .next (takeException destsVenc ⟨.capSrcLen, 0, bankNumber b⟩ s) := by
  rw [exec_venc s hf]
  rcases vencBank_cases s b with ⟨-, h⟩ | ⟨hle, -⟩ | ⟨hle, -⟩ | ⟨hle, -⟩
  · rw [h]
  all_goals exact absurd hlen hle.not_gt

theorem exec_venc_of_ovf (hf : bankOf f = some b) (hlen : (s.seqLen b).toNat ≤ s.capSeq.toNat)
    (hovf : scanOvf (scan (s.source b)) = true) :
    exec (.venc f) s = .next (takeException destsVenc ⟨.rngEncDelta, firstOvf (scan (s.source b)), bankNumber b⟩ s) := by
  rw [exec_venc s hf]
  rcases vencBank_cases s b with ⟨hgt, -⟩ | ⟨-, -, h⟩ | ⟨-, hno, -⟩ | ⟨-, hno, -⟩
  · exact absurd hgt hlen.not_gt
  · rw [h]
  all_goals exact absurd hovf (Bool.eq_false_iff.1 hno)

theorem exec_venc_of_stream_gt (hf : bankOf f = some b) (hlen : (s.seqLen b).toNat ≤ s.capSeq.toNat)
    (hd : ∀ d ∈ delta (s.source b), InInt32 d) (hcap : s.capBuf.toNat < streamLength (scan (s.source b))) :
    exec (.venc f) s = .next (takeException destsVenc ⟨.capBuf, 0, bankNumber b⟩ s) := by
  rw [exec_venc s hf]
  rcases vencBank_cases s b with ⟨hgt, -⟩ | ⟨-, hovf, -⟩ | ⟨-, -, -, h⟩ | ⟨-, -, hle, -⟩
  · exact absurd hgt hlen.not_gt
  · exact absurd hovf (Bool.eq_false_iff.1 (scanOvf_eq_false_iff.2 hd))
  · rw [h]
  · exact absurd hcap hle.not_gt

end

/-- The frame of exception entry with BUF and the scratch as destinations, the row of VENC and of BASM (R182, R183). -/
theorem takeException_buf_scratch (e : Exc) (s : State) : takeException [.buf, .scratch] e s = { s with
    bufLen := 0, buf := [], dltLen := 0, dlt := [], wid := [], maxw := .unspecified, wfb := .unspecified, status := 0b110#3,
    errcode := causeCode e.cause, erridx := BitVec.ofNat 32 e.idx, errfld := BitVec.ofNat 2 e.fld,
    flags := flagsOf (ovfAfter e.cause) } := rfl

/-- R102: no delta outside INT32, so OVF is 0. -/
theorem flags_writeScan_of_inInt32 (s : State) {x : List Int} (h : ∀ d ∈ delta x, InInt32 d) : (s.writeScan x).flags = 0#1 := by
  rw [writeScan_flags, scanOvf_eq_false_iff.2 h]
  rfl

theorem writeScan_writeBuf (s : State) (x : List Int) (bs : List Byte) :
    (s.writeScan x).writeBuf bs = (s.writeBuf bs).writeScan x := rfl

/-- What a completion leaves that writes the bytes `bs` to BUF and the scan of `x` to the scratch, as VENC's and BASM's do (R118,
R152). -/
theorem writeBuf_writeScan_results {s : State} {x : List Int} {bs : List Byte} (hbs : bs.length ≤ s.capBuf.toNat)
    (hd : ∀ d ∈ delta x, InInt32 d) :
    let t := ((s.writeBuf bs).writeScan x).complete
    t.busy = false ∧ t.done = true ∧ t.err = s.err ∧ Memory.wrote (w := 8) s.buf t.buf bs ∧ t.bufLen.toNat = bs.length ∧
      Memory.wrote s.dlt t.dlt ((delta x).map (BitVec.ofInt 33)) ∧
      Memory.wrote s.wid t.wid ((delta x).map (fun d => BitVec.ofNat 6 (width d))) ∧ t.dltLen = BitVec.ofNat 32 x.length ∧
      (∃ mw : Nat, t.maxw = .holds (BitVec.ofNat 6 mw) ∧ mw ≤ 32 ∧ largestWidth ((delta x).map width) mw) ∧
      (∃ k : Nat, t.wfb = .holds (BitVec.ofNat 8 k) ∧ k ≤ 5 ∧ leastFieldBits ((delta x).map width) k) ∧ t.flags = 0#1 ∧
      t = { s with buf := t.buf, bufLen := t.bufLen, dlt := t.dlt, wid := t.wid, dltLen := t.dltLen, maxw := t.maxw,
                   wfb := t.wfb, flags := t.flags, status := t.status } := by
  refine ⟨complete_busy _, complete_done _, ?_, wrote_setAll (w := 8) s.buf bs, toNat_ofNat_of_le hbs,
    wrote_dlt_writeScan (s.writeBuf bs) x, wrote_wid_writeScan (s.writeBuf bs) x, ?_, maxw_writeScan (s.writeBuf bs) x,
    wfb_writeScan (s.writeBuf bs) x, flags_writeScan_of_inInt32 (s.writeBuf bs) hd, rfl⟩
  · rw [complete_err, writeScan_err, writeBuf_err]
  · rw [complete_dltLen, writeScan_dltLen, scan_deltas, length_delta]

/-- Settles O44: VENC completes with the stream in BUF and the scan in the scratch. -/
theorem vencWritesTheStream : Obligations.VencWritesTheStream := by
  intro s f b hf hlen hd hcap
  obtain ⟨hbusy, hdone, herr, hbuf, hbufLen, hdlt, hwid, hdltLen, hmaxw, hwfb, hflags, hframe⟩ :=
    writeBuf_writeScan_results ((length_vldStream _).trans_le hcap) hd
  have hexec := exec_venc_of_ok hf hlen hd hcap
  rw [writeScan_writeBuf] at hexec
  exact ⟨_, _, hexec, hbusy, hdone, herr, vldEncode_of_inInt32 hd, hbuf, hbufLen, hdlt, hwid,
    hdltLen.trans (ofNat_length_source s b), hmaxw, hwfb, hflags, hframe⟩

/-- Settles O45: the three tests of VENC in order, each with exception entry. -/
theorem vencTraps : Obligations.VencTraps := by
  intro s f b hf failed
  refine ⟨fun hlen => ?_, fun hlen k hk hout hin => ?_, fun hlen hd hcap => ?_⟩
  · rw [exec_venc_of_gt hf hlen, destsVenc, takeException_buf_scratch]
    rfl
  · rw [← length_source] at hk
    have hovf : scanOvf (scan (s.source b)) = true := scanOvf_iff.2 ⟨_, deltaAt_mem_delta hk, hout⟩
    rw [exec_venc_of_ovf hf hlen hovf, firstOvf_eq hk hout hin, destsVenc, takeException_buf_scratch]
    rfl
  · rw [exec_venc_of_stream_gt hf hlen hd hcap, destsVenc, takeException_buf_scratch]
    rfl

/-! ### VDEC -/

section
variable {s : State} {f : BitVec 2} {b : Bank}

theorem exec_vdec_of_ok {r : Decoded} (hf : bankOf f = some b) (hlen : s.bufLen.toNat ≤ s.capBuf.toNat)
    (hr : vldDecodeCap (some s.capSeq.toNat) s.bufSource = .ok r) :
    exec (.vdec f) s = .next ((s.writeBank b r.values).writeDecodedScratch r).complete := by
  rw [exec_vdec s hf]
  rcases vdecBank_cases s b with ⟨hgt, -⟩ | ⟨-, e, he, -⟩ | ⟨-, r', hr', h⟩
  · exact absurd hgt hlen.not_gt
  · rw [hr] at he; cases he
  · rw [hr] at hr'; cases hr'; rw [h]

theorem exec_vdec_of_error {e : Failure} (hf : bankOf f = some b) (hlen : s.bufLen.toNat ≤ s.capBuf.toNat)
    (he : vldDecodeCap (some s.capSeq.toNat) s.bufSource = .error e) :
    exec (.vdec f) s = .next (takeException (destsVdec b) (e.at (bankNumber b)) s) := by
  rw [exec_vdec s hf]
  rcases vdecBank_cases s b with ⟨hgt, -⟩ | ⟨-, e', he', h⟩ | ⟨-, r, hr, -⟩
  · exact absurd hgt hlen.not_gt
  · rw [he] at he'; cases he'; rw [h]
  · rw [he] at hr; cases hr

theorem exec_vdec_of_gt (hf : bankOf f = some b) (hlen : s.capBuf.toNat < s.bufLen.toNat) :
    exec (.vdec f) s = .next (takeException (destsVdec b) ⟨.capSrcLen, 0, bankNumber b⟩ s) := by
  rw [exec_vdec s hf]
  rcases vdecBank_cases s b with ⟨-, h⟩ | ⟨hle, -⟩ | ⟨hle, -⟩
  · rw [h]
  all_goals exact absurd hlen hle.not_gt

end

theorem takeException_destsVdec (b : Bank) (e : Exc) (s : State) : takeException (destsVdec b) e s =
    { (s.setSeqLen b 0).setSeq b [] with
      dltLen := 0, dlt := [], wid := [], maxw := .unspecified, wfb := .unspecified, status := 0b110#3,
      errcode := causeCode e.cause, erridx := BitVec.ofNat 32 e.idx, errfld := BitVec.ofNat 2 e.fld,
      flags := flagsOf (ovfAfter e.cause) } := rfl

/-- R24, R182: no failure of the decoder sets OVF. -/
theorem flagsOf_ovfAfter_of_ne {c : Cause} (h : c ≠ .rngEncDelta) : flagsOf (ovfAfter c) = 0#1 := by
  rw [ovfAfter, decide_eq_false h]
  rfl

theorem vldDecodeCap_error_ne_rngEncDelta {cap : Option Nat} {bs : List Byte} {e : Failure} (h : vldDecodeCap cap bs = .error e) :
    e.cause ≠ .rngEncDelta := by
  have hmem := vldDecodeCap_error h
  intro hc
  rw [hc] at hmem
  exact absurd hmem (by decide)

/-- The lengths of a decoded stream's parts are the number of its elements. -/
@[simp] theorem length_values (r : Decoded) : r.values.length = r.elems.length := List.length_map _

@[simp] theorem length_deltas (r : Decoded) : r.deltas.length = r.elems.length := List.length_map _

theorem widths_range_of_vldDecodeCap {cap : Option Nat} {bs : List Byte} {r : Decoded} (h : vldDecodeCap cap bs = .ok r) :
    ∀ w ∈ r.widths, 1 ≤ w ∧ w ≤ 32 := ((malformedHeadersFail cap bs).2.2.2 r h).2

theorem maxWidthOf_le {ws : List Nat} (h : ∀ w ∈ ws, 1 ≤ w ∧ w ≤ 32) : maxWidthOf ws ≤ 32 := by
  rcases (maxWidthOf_spec ws).2.2 with hone | hmem
  · omega
  · exact (h _ hmem).2

/-- R136: MAXW is the largest width read, and 1 where none was. -/
theorem maxWidthOf_widths_spec {cap : Option Nat} {bs : List Byte} {r : Decoded} (h : vldDecodeCap cap bs = .ok r) :
    1 ≤ maxWidthOf r.widths ∧ maxWidthOf r.widths ≤ 32 ∧ (∀ w ∈ r.widths, w ≤ maxWidthOf r.widths) ∧
      (maxWidthOf r.widths = 1 ∨ maxWidthOf r.widths ∈ r.widths) := by
  obtain ⟨hpos, hmax, hmem⟩ := maxWidthOf_spec r.widths
  exact ⟨hpos, maxWidthOf_le (widths_range_of_vldDecodeCap h), hmax, hmem⟩

section
variable {s : State} {bs : List Byte} {r : Decoded} (h : vldDecodeCap (some s.capSeq.toNat) bs = .ok r)
include h

/-- R12, R137: what was decoded under SEQ_CAP has a length that a length register holds. -/
theorem toNat_ofNat_length_values : (BitVec.ofNat 32 r.values.length).toNat = r.elems.length := by
  rw [length_values]
  exact toNat_ofNat_of_le (vldDecodeCap_length_le h)

theorem toNat_ofNat_length_deltas : (BitVec.ofNat 32 r.deltas.length).toNat = r.elems.length := by
  rw [length_deltas]
  exact toNat_ofNat_of_le (vldDecodeCap_length_le h)

end

/-- Settles O46: VDEC completes with the decoded sequence in the bank and its deltas and widths in the scratch. -/
theorem vdecWritesTheSequence : Obligations.VdecWritesTheSequence := by
  intro s f b r hf hlen hr
  refine ⟨_, exec_vdec_of_ok hf hlen hr, complete_busy _, complete_done _, ?_, ?_, ?_, ?_, ?_,
    toNat_ofNat_length_deltas hr, rfl, ⟨_, rfl, maxWidthOf_widths_spec hr⟩, ?_⟩
  · simp only [complete_err, writeDecodedScratch_err, writeBank_err]
  · rw [complete_seq, writeDecodedScratch_seq, writeBank_seq_self]
    exact wrote_setAll _ _
  · rw [complete_seqLen, writeDecodedScratch_seqLen, writeBank_seqLen_self]
    exact toNat_ofNat_length_values hr
  · rw [complete_dlt, writeDecodedScratch_dlt, writeBank_dlt]
    exact wrote_setAll _ _
  · rw [complete_wid, writeDecodedScratch_wid, writeBank_wid]
    exact wrote_setAll _ _
  · cases b <;> rfl

/-- Settles O47: the length test, then whatever stops the decoder. -/
theorem vdecTraps : Obligations.VdecTraps := by
  intro s f b hf failed
  refine ⟨fun hlen => ?_, fun e hlen he => ?_⟩
  · rw [exec_vdec_of_gt hf hlen, takeException_destsVdec]
    rfl
  · have hflags : flagsOf (ovfAfter (e.at (bankNumber b)).cause) = 0#1 :=
      flagsOf_ovfAfter_of_ne (vldDecodeCap_error_ne_rngEncDelta he)
    rw [exec_vdec_of_error hf hlen he, takeException_destsVdec, hflags]
    rfl

/-! ### VENC, then VDEC -/

/-- R138 (a): what VDEC leaves where BUF holds the stream of a sequence `x` that fits the bank. -/
theorem exec_vdec_of_vldStream {t : State} {g : BitVec 2} {c : Bank} {x : List Int} (hg : bankOf g = some c)
    (hx : ∀ v ∈ x, InInt32 v) (hd : ∀ d ∈ delta x, InInt32 d) (hlen : x.length ≤ t.capSeq.toNat)
    (hfits : t.bufLen.toNat ≤ t.capBuf.toNat) (hbuf : t.bufSource = vldStream x) :
    ∃ u, exec (.vdec g) t = .next u ∧ u.err = t.err ∧ u.done = true ∧ u.seqLen c = BitVec.ofNat 32 x.length ∧
      u.source c = x ∧ u.dltLen = BitVec.ofNat 32 x.length ∧ u.deltaSource = delta x := by
  have hlt : x.length < 2 ^ 32 := hlen.trans_lt t.capSeq.isLt
  have hdec : vldDecodeCap (some t.capSeq.toNat) t.bufSource = .ok (decodedOf x) := by
    rw [hbuf]
    refine vldDecodeCap_vldStream hx hlt hd ?_
    rintro _ ⟨⟩
    exact hlen
  have hexec := exec_vdec_of_ok hg hfits hdec
  rw [decodedOf_values] at hexec
  set u := ((t.writeBank c x).writeDecodedScratch (decodedOf x)).complete with hu
  have hseq : u.seq c = (t.writeBank c x).seq c := by rw [hu, complete_seq, writeDecodedScratch_seq]
  have hseqLen : u.seqLen c = (t.writeBank c x).seqLen c := by rw [hu, complete_seqLen, writeDecodedScratch_seqLen]
  have hdltLen : u.dltLen = BitVec.ofNat 32 x.length := by
    rw [hu, complete_dltLen, writeDecodedScratch_dltLen, decodedOf_deltas, length_delta]
  have hdlt : u.dlt = t.dlt.setAll 0 ((delta x).map (BitVec.ofInt 33)) := by
    rw [hu, complete_dlt, writeDecodedScratch_dlt, decodedOf_deltas, writeBank_dlt]
  refine ⟨u, hexec, ?_, complete_done _, hseqLen.trans (writeBank_seqLen_self t c x), source_writeBank hx hlt hseq hseqLen,
    hdltLen, deltaSource_of_written (delta_range hx) ?_ hdlt⟩
  · rw [hu, complete_err, writeDecodedScratch_err, writeBank_err]
  · rw [hdltLen, length_delta, toNat_ofNat_of_le hlen]

/-- Settles O54: VENC leaves the stream of the sequence in BUF, within BUF_CAP, and VDEC restores the sequence from it. -/
theorem vencThenVdecRestoresTheSequence : Obligations.VencThenVdecRestoresTheSequence := by
  intro s f g b c hf hg hlen hd hcap
  have hstream : (vldStream (s.source b)).length ≤ s.capBuf.toNat := (length_vldStream _).trans_le hcap
  have hseqLen := ofNat_length_source s b
  set t := ((s.writeScan (s.source b)).writeBuf (vldStream (s.source b))).complete with ht
  have hbufLen : t.bufLen.toNat = (vldStream (s.source b)).length := toNat_ofNat_of_le hstream
  have hcapSeq : t.capSeq = s.capSeq := by rw [ht, complete_capSeq, writeBuf_capSeq, writeScan_capSeq]
  have hfits : (s.source b).length ≤ t.capSeq.toNat := by rwa [length_source, hcapSeq]
  obtain ⟨u, hexec, herr, hdone, hlenc, hsource, hdltLen, hdeltas⟩ := exec_vdec_of_vldStream hg (source_inInt32 s b) hd hfits
    (hbufLen.trans_le hstream) (bufSource_of_written hbufLen rfl)
  refine ⟨t, u, exec_venc_of_ok hf hlen hd hcap, hexec, ?_, hdone, hlenc.trans hseqLen, hsource, hdltLen.trans hseqLen, hdeltas⟩
  rw [herr, ht, complete_err, writeBuf_err, writeScan_err]

end Sys2Proof.Proofs
end

section
/-! BASM and BPAR (R152, R162): the results of a completion, the exceptions in the order tested, and the two commands in sequence
(R164). -/

namespace Sys2Proof.Proofs

open Sys2Proof Sys2Proof.Machine Sys2Proof.Laws

/-! ### BASM -/

theorem mem_allBanks (b : Bank) : b ∈ allBanks := by cases b <;> decide

/-- R152: the lowest field is the first bank in field order. -/
theorem find?_allBanks {p : Bank → Bool} {b : Bank} (hb : p b = true) (hlow : ∀ c, bankNumber c < bankNumber b → p c = false) :
    allBanks.find? p = some b := by
  cases b with
  | b0 => simp [allBanks, hb]
  | b1 => simp [allBanks, hb, hlow .b0 (by decide)]
  | b2 => simp [allBanks, hb, hlow .b0 (by decide), hlow .b1 (by decide)]

section
variable {s : State}

theorem overLong_eq_false_iff {len cap : Word} : overLong len cap = false ↔ len.toNat ≤ cap.toNat := by
  rw [overLong, decide_eq_false_iff_not, not_lt]

theorem basmOverLong_eq_none (h : ∀ b, (s.seqLen b).toNat ≤ s.capSeq.toNat) : basmOverLong s = none :=
  List.find?_eq_none.2 fun b _ => Bool.eq_false_iff.1 (overLong_eq_false_iff.2 (h b))

theorem basmOutOfRange_eq_none (h : ∀ b, ∀ d ∈ delta (s.source b), InInt32 d) : basmOutOfRange s = none :=
  List.find?_eq_none.2 fun b _ => Bool.eq_false_iff.1 (scanOvf_eq_false_iff.2 (h b))

theorem basmOverLong_eq_some {b : Bank} (hb : s.capSeq.toNat < (s.seqLen b).toNat)
    (hlow : ∀ c, bankNumber c < bankNumber b → (s.seqLen c).toNat ≤ s.capSeq.toNat) : basmOverLong s = some b :=
  find?_allBanks (decide_eq_true hb) fun c hc => overLong_eq_false_iff.2 (hlow c hc)

theorem basmOutOfRange_eq_some {b : Bank} (hb : ∃ d ∈ delta (s.source b), ¬ InInt32 d)
    (hlow : ∀ c, bankNumber c < bankNumber b → ∀ d ∈ delta (s.source c), InInt32 d) : basmOutOfRange s = some b :=
  find?_allBanks (scanOvf_iff.2 hb) fun c hc => scanOvf_eq_false_iff.2 (hlow c hc)

theorem exec_basm_of_ok (hlen : basmOverLong s = none) (hd : basmOutOfRange s = none) (hcap : basmLength s ≤ s.capBuf.toNat) :
    exec .basm s = .next ((s.writeBuf (basmBlob s)).writeScan (s.source .b2)).complete := by
  simp only [exec, execBasm, hlen, hd, if_neg hcap.not_gt]

theorem exec_basm_of_gt {b : Bank} (hlen : basmOverLong s = some b) :
    exec .basm s = .next (takeException destsBasm ⟨.capSrcLen, 0, bankNumber b⟩ s) := by
  simp only [exec, execBasm, hlen]

theorem exec_basm_of_ovf {b : Bank} (hlen : basmOverLong s = none) (hd : basmOutOfRange s = some b) :
    exec .basm s = .next (takeException destsBasm ⟨.rngEncDelta, firstOvf (scan (s.source b)), bankNumber b⟩ s) := by
  simp only [exec, execBasm, hlen, hd]

theorem exec_basm_of_blob_gt (hlen : basmOverLong s = none) (hd : basmOutOfRange s = none)
    (hcap : s.capBuf.toNat < basmLength s) : exec .basm s = .next (takeException destsBasm ⟨.capBuf, 0, 0⟩ s) := by
  simp only [exec, execBasm, hlen, hd, if_pos hcap]

/-- R150, R152: BASM's bytes are the assembled blob. -/
theorem blobAssemble_basmBlob (hd : ∀ b, ∀ d ∈ delta (s.source b), InInt32 d) :
    blobAssemble ⟨s.rowsVal.toNat, s.colsVal.toNat, s.source .b0, s.source .b1, s.source .b2⟩ = .ok (basmBlob s) :=
  blobAssemble_of_ok (vldEncode_of_inInt32 (hd .b0)) (vldEncode_of_inInt32 (hd .b1)) (vldEncode_of_inInt32 (hd .b2))

end

/-- Settles O50: BASM completes with the blob in BUF and the scan of bank 2 in the scratch. -/
theorem basmWritesTheBlob : Obligations.BasmWritesTheBlob := by
  intro s hlen hd hcap
  obtain ⟨hbusy, hdone, herr, hbuf, hbufLen, hdlt, hwid, hdltLen, hmaxw, hwfb, hflags, hframe⟩ :=
    writeBuf_writeScan_results ((length_basmBlob s).trans_le hcap) (hd .b2)
  exact ⟨_, _, exec_basm_of_ok (basmOverLong_eq_none hlen) (basmOutOfRange_eq_none hd) hcap, hbusy, hdone, herr,
    blobAssemble_basmBlob hd, hbuf, hbufLen, hdlt, hwid, hdltLen.trans (ofNat_length_source s .b2), hmaxw, hwfb, hflags, hframe⟩

/-- Settles O51: the three tests of BASM in order, each over the banks from the lowest up. -/
theorem basmTraps : Obligations.BasmTraps := by
  intro s failed
  refine ⟨fun b hb hlow => ?_, fun hlen b k hk hout hin hlow => ?_, fun hlen hd hcap => ?_⟩
  · rw [exec_basm_of_gt (basmOverLong_eq_some hb hlow), destsBasm, takeException_buf_scratch]
    rfl
  · rw [← length_source] at hk
    have hfield : basmOutOfRange s = some b := basmOutOfRange_eq_some ⟨_, deltaAt_mem_delta hk, hout⟩ hlow
    rw [exec_basm_of_ovf (basmOverLong_eq_none hlen) hfield, firstOvf_eq hk hout hin, destsBasm, takeException_buf_scratch]
    rfl
  · rw [exec_basm_of_blob_gt (basmOverLong_eq_none hlen) (basmOutOfRange_eq_none hd) hcap, destsBasm, takeException_buf_scratch]
    rfl

/-! ### The causes of a failing parser -/

/-- The causes of R176 that a parse may fail with (R155 to R158, R161). -/
def parseCauses : List Cause :=
  [.fmtBlobDim, .fmtBlobLen, .fmtBlobBody, .fmtHdrCount, .fmtHdrWfb, .fmtWfbRange, .fmtElemCode, .fmtElemDelta, .rngDecAcc, .capSeq,
    .fmtBlobIndptr]

theorem parseField_error {cap : Option Nat} {k : Nat} {c : List Byte} {e : Exc} (h : parseField cap k c = .error e) :
    e.cause ∈ parseCauses := by
  rw [parseField] at h
  cases hw : takeWord c with
  | none => rw [hw] at h; cases h; simp [parseCauses]
  | some q =>
    simp only [hw] at h
    split_ifs at h
    · cases h; simp [parseCauses]
    · cases hr : vldDecodeCap cap (q.2.take q.1) with
      | ok r => rw [hr] at h; cases h
      | error f =>
        rw [hr] at h
        cases h
        have hsub : ([.fmtHdrCount, .fmtHdrWfb, .fmtWfbRange, .fmtElemCode, .fmtElemDelta, .rngDecAcc, .capSeq] : List Cause) ⊆
          parseCauses := by decide
        exact hsub (vldDecodeCap_error hr)

theorem parseFields_error {cap : Option Nat} {rows cols : Nat} {b : List Byte} {e : Exc}
    (h : parseFields cap rows cols b = .error e) : e.cause ∈ parseCauses := by
  rw [parseFields] at h
  cases h0 : parseField cap 0 b with
  | error f => rw [h0] at h; cases h; exact parseField_error h0
  | ok q =>
  simp only [h0] at h
  split_ifs at h
  · cases h; decide
  cases h1 : parseField cap 1 q.2 with
  | error f => rw [h1] at h; cases h; exact parseField_error h1
  | ok q1 =>
  simp only [h1] at h
  cases h2 : parseField cap 2 q1.2 with
  | error f => rw [h2] at h; cases h; exact parseField_error h2
  | ok q2 => rw [h2] at h; cases h

theorem blobParseCap_error {cap : Option Nat} {b : List Byte} {e : Exc} (h : blobParseCap cap b = .error e) :
    e.cause ∈ parseCauses := by
  rcases lt_or_ge b.length 8 with h8 | h8
  · rw [blobParseCap_of_lt_eight h8] at h
    cases h
    decide
  · rw [blobParseCap_of_eight_le h8] at h
    exact parseFields_error h

theorem blobParseCap_error_ne_rngEncDelta {cap : Option Nat} {b : List Byte} {e : Exc} (h : blobParseCap cap b = .error e) :
    e.cause ≠ .rngEncDelta := by
  have hmem := blobParseCap_error h
  intro hc
  rw [hc] at hmem
  exact absurd hmem (by decide)

/-! ### BPAR -/

section
variable {s : State}

theorem exec_bpar_of_ok {p : Parsed} (hlen : s.bufLen.toNat ≤ s.capBuf.toNat)
    (hp : blobParseCap (some s.capSeq.toNat) s.bufSource = .ok p) : exec .bpar s = .next (s.writeParsed p).complete := by
  simp only [exec, execBpar, overLong_eq_false_iff.2 hlen, if_neg Bool.false_ne_true, hp]

theorem exec_bpar_of_error {e : Exc} (hlen : s.bufLen.toNat ≤ s.capBuf.toNat)
    (he : blobParseCap (some s.capSeq.toNat) s.bufSource = .error e) : exec .bpar s = .next (takeException destsBpar e s) := by
  simp only [exec, execBpar, overLong_eq_false_iff.2 hlen, if_neg Bool.false_ne_true, he]

theorem exec_bpar_of_gt (hlen : s.capBuf.toNat < s.bufLen.toNat) :
    exec .bpar s = .next (takeException destsBpar ⟨.capSrcLen, 0, 0⟩ s) := by
  have hover : overLong s.bufLen s.capBuf = true := decide_eq_true hlen
  simp only [exec, execBpar, hover, if_true]

end

theorem takeException_destsBpar (e : Exc) (s : State) : takeException destsBpar e s = { s with
    rows := .unspecified, cols := .unspecified, seqLen0 := 0, seqLen1 := 0, seqLen2 := 0, seq0 := [], seq1 := [], seq2 := [],
    dltLen := 0, dlt := [], wid := [], maxw := .unspecified, wfb := .unspecified, status := 0b110#3,
    errcode := causeCode e.cause, erridx := BitVec.ofNat 32 e.idx, errfld := BitVec.ofNat 2 e.fld,
    flags := flagsOf (ovfAfter e.cause) } := by
  simp only [takeException, invalidate, destsBpar, List.foldl_cons, List.foldl_nil, invalidateOne, State.setSeqLen, State.setSeq]
  rfl

/-- The frame of BPAR's completion (R34, R162). -/
theorem writeParsed_complete_frame (s : State) (p : Parsed) : (s.writeParsed p).complete = { s with
    rows := (s.writeParsed p).complete.rows, cols := (s.writeParsed p).complete.cols,
    seq0 := (s.writeParsed p).complete.seq0, seqLen0 := (s.writeParsed p).complete.seqLen0,
    seq1 := (s.writeParsed p).complete.seq1, seqLen1 := (s.writeParsed p).complete.seqLen1,
    seq2 := (s.writeParsed p).complete.seq2, seqLen2 := (s.writeParsed p).complete.seqLen2,
    dlt := (s.writeParsed p).complete.dlt, wid := (s.writeParsed p).complete.wid,
    dltLen := (s.writeParsed p).complete.dltLen, maxw := (s.writeParsed p).complete.maxw,
    wfb := (s.writeParsed p).complete.wfb, status := (s.writeParsed p).complete.status } := by
  apply State.ext <;> simp

/-- Settles O52: BPAR completes with the dimensions, the three sequences and the scratch of the third field. -/
theorem bparWritesTheMatrix : Obligations.BparWritesTheMatrix := by
  intro s p hlen hp
  obtain ⟨⟨_, h0⟩, ⟨_, h1⟩, ⟨_, h2⟩⟩ := blobParseCap_decoded hp
  refine ⟨_, exec_bpar_of_ok hlen hp, complete_busy _, complete_done _, ?_, writeParsed_rows s p, writeParsed_cols s p, ?_,
    toNat_ofNat_length_values h0, ?_, toNat_ofNat_length_values h1, ?_, toNat_ofNat_length_values h2, ?_, ?_,
    toNat_ofNat_length_deltas h2, writeParsed_wfb s p, ⟨_, writeParsed_maxw s p, maxWidthOf_widths_spec h2⟩,
    writeParsed_complete_frame s p⟩
  · rw [complete_err, writeParsed_err]
  · rw [complete_seq0, writeParsed_seq0]
    exact wrote_setAll _ _
  · rw [complete_seq1, writeParsed_seq1]
    exact wrote_setAll _ _
  · rw [complete_seq2, writeParsed_seq2]
    exact wrote_setAll _ _
  · rw [complete_dlt, writeParsed_dlt]
    exact wrote_setAll _ _
  · rw [complete_wid, writeParsed_wid]
    exact wrote_setAll _ _

/-- Settles O53: the length test, then whatever stops the parser. -/
theorem bparTraps : Obligations.BparTraps := by
  intro s failed
  refine ⟨fun hlen => ?_, fun e hlen he => ?_⟩
  · rw [exec_bpar_of_gt hlen, takeException_destsBpar]
    rfl
  · rw [exec_bpar_of_error hlen he, takeException_destsBpar, flagsOf_ovfAfter_of_ne (blobParseCap_error_ne_rngEncDelta he)]

/-! ### BASM, then BPAR -/

/-- The lengths of a bank are those of its stream's domain wherever the blob fits a buffer. -/
theorem encodable_source {s : State} {b : Bank} (hd : ∀ d ∈ delta (s.source b), InInt32 d)
    (hbytes : streamLength (scan (s.source b)) < 2 ^ 32) : Encodable (s.source b) :=
  ⟨source_inInt32 s b, length_source_lt s b, hd, hbytes⟩

/-- R164: BUF holds the blob of the banks, so it parses to the dimensions and, bank by bank, to the decoding of its stream. -/
theorem blobParseCap_basmBlob {s : State} (hlen : ∀ b, (s.seqLen b).toNat ≤ s.capSeq.toNat)
    (hd : ∀ b, ∀ d ∈ delta (s.source b), InInt32 d) (hcap : basmLength s ≤ s.capBuf.toNat)
    (hindptr : s.seqLen0.toNat = s.rowsVal.toNat + 1) :
    blobParseCap (some s.capSeq.toNat) (basmBlob s) = .ok ⟨s.rowsVal.toNat, s.colsVal.toNat, decodedOf (s.source .b0),
      decodedOf (s.source .b1), decodedOf (s.source .b2)⟩ := by
  have hlt := s.capBuf.isLt
  rw [basmLength] at hcap
  refine blobParseCap_blobBytes s.rowsVal.isLt s.colsVal.isLt ((length_source s .b0).trans hindptr)
    (encodable_source (hd .b0) (by omega)) (encodable_source (hd .b1) (by omega)) (encodable_source (hd .b2) (by omega)) ?_
  rintro _ ⟨⟩
  simp only [length_source, hlen, and_self]

/-- The banks after BPAR are written from the three parsed sequences (R162). -/
theorem writeParsed_bank (s : State) (x : Bank → List Int) (rows cols : Nat) (b : Bank) :
    (s.writeParsed ⟨rows, cols, decodedOf (x .b0), decodedOf (x .b1), decodedOf (x .b2)⟩).seq b = (s.writeBank b (x b)).seq b ∧
      (s.writeParsed ⟨rows, cols, decodedOf (x .b0), decodedOf (x .b1), decodedOf (x .b2)⟩).seqLen b =
        (s.writeBank b (x b)).seqLen b := by
  cases b <;> simp [State.seq, State.seqLen]

/-- R162, R164: what BPAR leaves where BUF parses to two dimensions and three encoded sequences. -/
theorem exec_bpar_of_parsed {t : State} {x : Bank → List Int} {rows cols : Word} (hx : ∀ b, ∀ v ∈ x b, InInt32 v)
    (hcount : ∀ b, (x b).length < 2 ^ 32) (hfits : t.bufLen.toNat ≤ t.capBuf.toNat)
    (hparse : blobParseCap (some t.capSeq.toNat) t.bufSource =
      .ok ⟨rows.toNat, cols.toNat, decodedOf (x .b0), decodedOf (x .b1), decodedOf (x .b2)⟩) :
    ∃ u, exec .bpar t = .next u ∧ u.err = t.err ∧ u.rows = .holds rows ∧ u.cols = .holds cols ∧
      ∀ b, u.seqLen b = BitVec.ofNat 32 (x b).length ∧ u.source b = x b := by
  refine ⟨_, exec_bpar_of_ok hfits hparse, ?_, ?_, ?_, fun b => ?_⟩
  · rw [complete_err, writeParsed_err]
  · rw [complete_rows, writeParsed_rows, BitVec.ofNat_toNat, BitVec.setWidth_eq]
  · rw [complete_cols, writeParsed_cols, BitVec.ofNat_toNat, BitVec.setWidth_eq]
  · obtain ⟨hseq, hseqLen⟩ := writeParsed_bank t x rows.toNat cols.toNat b
    refine ⟨?_, source_writeBank (s := t) (hx b) (hcount b) ((complete_seq _ b).trans hseq) ((complete_seqLen _ b).trans hseqLen)⟩
    rw [complete_seqLen, hseqLen, writeBank_seqLen_self]

/-- What BASM's completion leaves for the next command, over any bytes `bs` and any sequence `x`. -/
theorem bufSource_writeBuf_writeScan {s : State} {bs : List Byte} (x : List Int) (h : bs.length ≤ s.capBuf.toNat) :
    ((s.writeBuf bs).writeScan x).complete.bufLen.toNat = bs.length ∧
      ((s.writeBuf bs).writeScan x).complete.bufSource = bs := by
  have hlen : ((s.writeBuf bs).writeScan x).complete.bufLen.toNat = bs.length := by
    rw [complete_bufLen, writeScan_bufLen, writeBuf_bufLen, toNat_ofNat_of_le h]
  exact ⟨hlen, bufSource_of_written hlen rfl⟩

/-- Settles O56: BASM leaves the blob of the banks in BUF, within BUF_CAP, and BPAR writes what it parses to. -/
theorem basmThenBparRestoresTheMatrix : Obligations.BasmThenBparRestoresTheMatrix := by
  intro s hlen hd hcap hindptr
  have hblob : (basmBlob s).length ≤ s.capBuf.toNat := (length_basmBlob s).trans_le hcap
  have hparse := blobParseCap_basmBlob hlen hd hcap hindptr
  have hbasm := exec_basm_of_ok (basmOverLong_eq_none hlen) (basmOutOfRange_eq_none hd) hcap
  obtain ⟨hbufLen, hbuf⟩ := bufSource_writeBuf_writeScan (s.source .b2) hblob
  generalize ht : ((s.writeBuf (basmBlob s)).writeScan (s.source .b2)).complete = t at hbasm hbufLen hbuf
  have hcapSeq : t.capSeq = s.capSeq := by rw [← ht, complete_capSeq, writeScan_capSeq, writeBuf_capSeq]
  have hcapBuf : t.capBuf = s.capBuf := by rw [← ht, complete_capBuf, writeScan_capBuf, writeBuf_capBuf]
  have herr : t.err = s.err := by rw [← ht, complete_err, writeScan_err, writeBuf_err]
  rw [← hbuf, ← hcapSeq] at hparse
  obtain ⟨u, hbpar, herr', hrows, hcols, hbank⟩ := exec_bpar_of_parsed (x := s.source) (source_inInt32 s) (length_source_lt s)
    (by rwa [hbufLen, hcapBuf]) hparse
  exact ⟨t, u, hbasm, hbpar, herr'.trans herr, hrows, hcols, fun b =>
    ⟨(hbank b).1.trans (ofNat_length_source s b), (hbank b).2⟩⟩

end Sys2Proof.Proofs
end

section
/-! What a command can do, for every command at once (R34, R176, R183): it is illegal, it takes an exception of its row, or it
completes with its results. The rules of the whole machine about commands are read off these three cases. -/

namespace Sys2Proof.Proofs

open Sys2Proof Sys2Proof.Machine Sys2Proof.Laws

/-! ### The causes -/

/-- The causes in the order of R176's table. -/
def allCauses : List Cause :=
  [.fmtHdrCount, .fmtHdrWfb, .fmtWfbRange, .fmtElemCode, .fmtElemDelta, .fmtBlobDim, .fmtBlobLen, .fmtBlobBody, .fmtBlobIndptr,
    .rngEncDelta, .rngDecAcc, .capSrcLen, .capSeq, .capBuf, .illegalCmd]

theorem mem_allCauses (c : Cause) : c ∈ allCauses := by cases c <;> decide

theorem causeCode_injective {c d : Cause} (h : causeCode c = causeCode d) : c = d := by
  have hall : ∀ c ∈ allCauses, ∀ d ∈ allCauses, causeCode c = causeCode d → c = d := by decide
  exact hall c (mem_allCauses c) d (mem_allCauses d) h

theorem causeCode_ne_zero (c : Cause) : causeCode c ≠ 0 := by cases c <;> decide

/-- R175, R176: the kinds by the high four bits of the code. -/
theorem causeKind_iff (c : Cause) :
    (causeKind c = .formatError ↔ (causeCode c).toNat / 16 = 1) ∧ (causeKind c = .rangeError ↔ (causeCode c).toNat / 16 = 2) ∧
      (causeKind c = .capacityError ↔ (causeCode c).toNat / 16 = 3) ∧
      (causeKind c = .illegalCommand ↔ (causeCode c).toNat / 16 = 4) := by
  cases c <;> decide

/-- Settles O22: the table read row by row. -/
theorem causeCodesNameTheirKind : Obligations.CauseCodesNameTheirKind :=
  ⟨⟨rfl, rfl, rfl, rfl, rfl, rfl, rfl, rfl, rfl, rfl, rfl, rfl, rfl, rfl, rfl⟩, fun c _ =>
    ⟨causeCode_injective, causeCode_ne_zero c, causeKind_iff c⟩⟩

/-! ### The three cases -/

/-- The destinations of each command (R183); none where the BANK field names no bank. -/
def destinations : Instr → List Dest
  | .bwc => []
  | .denc _ => destsDenc
  | .venc _ => destsVenc
  | .vdec f => ((bankOf f).map destsVdec).getD []
  | .ddec f => ((bankOf f).map destsDdec).getD []
  | .basm => destsBasm
  | .bpar => destsBpar

/-- `Completes s i u`: command `i` completes from `s`, and its results written to `s` give `u` (R94, R103, R118, R136, R142, R152,
R162). -/
inductive Completes (s : State) : Instr → State → Prop
  | bwc : Completes s .bwc ({ s with res := BitVec.ofNat 6 (bw s.argument.toInt).1 }.setOvf (bw s.argument.toInt).2)
  | denc {f : BitVec 2} {b : Bank} (hf : bankOf f = some b) (hlen : (s.seqLen b).toNat ≤ s.capSeq.toNat) :
      Completes s (.denc f) (s.writeScan (s.source b))
  | venc {f : BitVec 2} {b : Bank} (hf : bankOf f = some b) (hlen : (s.seqLen b).toNat ≤ s.capSeq.toNat)
      (hcap : streamLength (scan (s.source b)) ≤ s.capBuf.toNat) :
      Completes s (.venc f) ((s.writeScan (s.source b)).writeBuf (vldStream (s.source b)))
  | vdec {f : BitVec 2} {b : Bank} {r : Decoded} (hf : bankOf f = some b)
      (hr : vldDecodeCap (some s.capSeq.toNat) s.bufSource = .ok r) :
      Completes s (.vdec f) ((s.writeBank b r.values).writeDecodedScratch r)
  | ddec {f : BitVec 2} {b : Bank} {x : List Int} (hf : bankOf f = some b) (hlen : s.dltLen.toNat ≤ s.capSeq.toNat)
      (hx : undelta s.deltaSource = .ok x) : Completes s (.ddec f) (s.writeBank b x)
  | basm (hlen : basmOverLong s = none) (hcap : basmLength s ≤ s.capBuf.toNat) :
      Completes s .basm ((s.writeBuf (basmBlob s)).writeScan (s.source .b2))
  | bpar {p : Parsed} (hp : blobParseCap (some s.capSeq.toNat) s.bufSource = .ok p) : Completes s .bpar (s.writeParsed p)

theorem bankFieldOk_of_bankOf_none {f : BitVec 2} (h : bankOf f = none) : bankFieldOk f = false := by
  revert f
  decide

/-- The outcomes of a command: IllegalCommand for an ill-formed one (R64), an exception of its row (R176, R183), completion. -/
inductive Outcomes (i : Instr) (s : State) : State → Prop
  | illegal (hi : ¬ WellFormed i) : Outcomes i s (raiseIllegal s)
  | raises {e : Exc} (hi : WellFormed i) (he : e.cause ∈ mayRaise i) : Outcomes i s (takeException (destinations i) e s)
  | completes {u : State} (hu : Completes s i u) : Outcomes i s u.complete

section
variable {s : State} {f : BitVec 2} {b : Bank}

theorem bankFieldOk_of_bankOf (hf : bankOf f = some b) : bankFieldOk f = true := (bankOf_isSome hf).1

theorem outcomes_denc (hf : bankOf f = some b) : Outcomes (.denc f) s (dencBank b s) := by
  rcases dencBank_cases s b with ⟨-, h⟩ | ⟨hlen, h⟩ <;> rw [h]
  · exact .raises (i := .denc f) (bankFieldOk_of_bankOf hf) (e := ⟨.capSrcLen, 0, bankNumber b⟩) (by simp [mayRaise])
  · exact .completes (.denc hf hlen)

theorem outcomes_venc (hf : bankOf f = some b) : Outcomes (.venc f) s (vencBank b s) := by
  rcases vencBank_cases s b with ⟨-, h⟩ | ⟨-, -, h⟩ | ⟨-, -, -, h⟩ | ⟨hlen, -, hcap, h⟩ <;> rw [h]
  · exact .raises (i := .venc f) (bankFieldOk_of_bankOf hf) (e := ⟨.capSrcLen, 0, bankNumber b⟩) (by simp [mayRaise])
  · exact .raises (i := .venc f) (bankFieldOk_of_bankOf hf) (e := ⟨.rngEncDelta, _, bankNumber b⟩) (by simp [mayRaise])
  · exact .raises (i := .venc f) (bankFieldOk_of_bankOf hf) (e := ⟨.capBuf, 0, bankNumber b⟩) (by simp [mayRaise])
  · exact .completes (.venc hf hlen hcap)

theorem raises_vdec {e : Exc} (hf : bankOf f = some b) (he : e.cause ∈ mayRaise (.vdec f)) :
    Outcomes (.vdec f) s (takeException (destsVdec b) e s) := by
  have h := Outcomes.raises (i := .vdec f) (s := s) (bankFieldOk_of_bankOf hf) he
  rwa [destinations, hf] at h

theorem outcomes_vdec (hf : bankOf f = some b) : Outcomes (.vdec f) s (vdecBank b s) := by
  rcases vdecBank_cases s b with ⟨-, h⟩ | ⟨-, e, he, h⟩ | ⟨-, r, hr, h⟩ <;> rw [h]
  · exact raises_vdec hf (by simp [mayRaise])
  · exact raises_vdec hf (List.mem_cons_of_mem _ (vldDecodeCap_error he))
  · exact .completes (.vdec hf hr)

theorem raises_ddec {e : Exc} (hf : bankOf f = some b) (he : e.cause ∈ mayRaise (.ddec f)) :
    Outcomes (.ddec f) s (takeException (destsDdec b) e s) := by
  have h := Outcomes.raises (i := .ddec f) (s := s) (bankFieldOk_of_bankOf hf) he
  rwa [destinations, hf] at h

theorem outcomes_ddec (hf : bankOf f = some b) : Outcomes (.ddec f) s (ddecBank b s) := by
  rcases ddecBank_cases s b with ⟨-, h⟩ | ⟨-, e, he, h⟩ | ⟨hlen, x, hx, h⟩ <;> rw [h]
  · exact raises_ddec hf (by simp [mayRaise])
  · exact raises_ddec hf (by simp [mayRaise, Failure.at, undelta_error he])
  · exact .completes (.ddec hf hlen hx)

theorem outcomes_basm : ∃ t, exec .basm s = .next t ∧ Outcomes .basm s t := by
  rcases execBasm_cases s with ⟨c, -, h⟩ | ⟨-, c, -, h⟩ | ⟨-, -, -, h⟩ | ⟨hlen, -, hcap, h⟩
  · exact ⟨_, h, .raises (i := .basm) rfl (by simp [mayRaise])⟩
  · exact ⟨_, h, .raises (i := .basm) rfl (by simp [mayRaise])⟩
  · exact ⟨_, h, .raises (i := .basm) rfl (by simp [mayRaise])⟩
  · exact ⟨_, h, .completes (.basm hlen hcap)⟩

theorem outcomes_bpar : ∃ t, exec .bpar s = .next t ∧ Outcomes .bpar s t := by
  rcases execBpar_cases s with ⟨-, h⟩ | ⟨-, e, he, h⟩ | ⟨-, p, hp, h⟩
  · exact ⟨_, h, .raises (i := .bpar) rfl (by simp [mayRaise])⟩
  · refine ⟨_, h, .raises (i := .bpar) rfl ?_⟩
    have hsub : parseCauses ⊆ mayRaise .bpar := by decide
    exact hsub (blobParseCap_error he)
  · exact ⟨_, h, .completes (.bpar hp)⟩

end

/-- Every command answers a next state, and in one of the three ways. -/
theorem exec_outcomes (i : Instr) (s : State) : ∃ t, exec i s = .next t ∧ Outcomes i s t := by
  have hillegal {f : BitVec 2} (hf : bankOf f = none) : bankFieldOk f ≠ true :=
    Bool.eq_false_iff.1 (bankFieldOk_of_bankOf_none hf)
  cases i with
  | bwc => exact ⟨_, exec_bwc s, .completes .bwc⟩
  | denc f =>
    cases hf : bankOf f with
    | none => exact ⟨_, exec_no_bank s hf (by simp), .illegal (hillegal hf)⟩
    | some b => exact ⟨_, exec_denc s hf, outcomes_denc hf⟩
  | venc f =>
    cases hf : bankOf f with
    | none => exact ⟨_, exec_no_bank s hf (by simp), .illegal (hillegal hf)⟩
    | some b => exact ⟨_, exec_venc s hf, outcomes_venc hf⟩
  | vdec f =>
    cases hf : bankOf f with
    | none => exact ⟨_, exec_no_bank s hf (by simp), .illegal (hillegal hf)⟩
    | some b => exact ⟨_, exec_vdec s hf, outcomes_vdec hf⟩
  | ddec f =>
    cases hf : bankOf f with
    | none => exact ⟨_, exec_no_bank s hf (by simp), .illegal (hillegal hf)⟩
    | some b => exact ⟨_, exec_ddec s hf, outcomes_ddec hf⟩
  | basm => exact outcomes_basm
  | bpar => exact outcomes_bpar

theorem outcomes_of_exec {i : Instr} {s t : State} (h : exec i s = .next t) : Outcomes i s t := by
  obtain ⟨t', h', hout⟩ := exec_outcomes i s
  rw [h] at h'
  cases h'
  exact hout

/-- R187, R182: a command ends with BUSY 0 and DONE 1. -/
theorem Outcomes.ended {i : Instr} {s t : State} (h : Outcomes i s t) : t.busy = false ∧ t.done = true := by
  cases h with
  | illegal _ => exact ⟨takeException_busy _ _ _, takeException_done _ _ _⟩
  | raises _ _ => exact ⟨takeException_busy _ _ _, takeException_done _ _ _⟩
  | completes _ => exact ⟨complete_busy _, complete_done _⟩

/-! ### Progress -/

/-- R209: a running command ends at the engine's turn. -/
theorem engineTurn_ends {s : State} (hb : s.busy = true) :
    ∃ t, engineTurn s = .next t ∧ t.busy = false ∧ t.done = true := by
  rcases engineTurn_cases s with ⟨hidle, -⟩ | ⟨-, i, -, h⟩ | ⟨-, e, -, h⟩
  · rw [hb] at hidle; cases hidle
  · obtain ⟨t, hexec, hout⟩ := exec_outcomes i s
    exact ⟨t, h.trans hexec, hout.ended⟩
  · exact ⟨_, h, takeException_busy _ _ _, takeException_done _ _ _⟩

theorem serve_next (e : Event) (s : State) : ∃ t, serve e s = .next t := by
  cases e with
  | engine =>
    cases hb : s.busy with
    | false => exact ⟨s, if_neg (Bool.eq_false_iff.1 hb)⟩
    | true =>
      obtain ⟨t, ht, -⟩ := engineTurn_ends hb
      exact ⟨t, ht⟩
  | _ => exact ⟨_, rfl⟩

theorem getLsbD_readReg_status (s : State) : (s.readReg 0x01).getLsbD 0 = s.busy := BitVec.getLsbD_setWidth ..

/-- Settles O5: serving any event answers a next state, and the engine's turn ends a running command. -/
theorem everyCommandEndsAndNothingStops : Obligations.EveryCommandEndsAndNothingStops := by
  intro s
  by_cases hrun : s.nextEvent = .engine ∧ s.busy = true
  · obtain ⟨t, ht, hbusy, hdone⟩ := engineTurn_ends ((tick_busy s).trans hrun.2)
    exact ⟨t, (step_eq s hrun.1).trans ht, fun _ _ => ⟨hbusy, hdone, (getLsbD_readReg_status t).trans hbusy⟩⟩
  · obtain ⟨t, ht⟩ := serve_next s.nextEvent s.tick
    exact ⟨t, ht, fun he hb => absurd ⟨he, hb⟩ hrun⟩

/-! ### The rows of R34 -/

/-- R17 to R20, R25: what `i` leaves as it was. -/
def keepsOtherRows (i : Instr) (s t : State) : Prop :=
  t.argLo = s.argLo ∧ t.argHi = s.argHi ∧ t.capSeq = s.capSeq ∧ t.capBuf = s.capBuf ∧ t.cmd = s.cmd ∧
    (i ≠ .bwc → t.res = s.res) ∧ (i ≠ .bpar → t.rows = s.rows ∧ t.cols = s.cols) ∧
    ((i = .bwc ∨ ∃ f, i = .ddec f) →
      t.dlt = s.dlt ∧ t.wid = s.wid ∧ t.dltLen = s.dltLen ∧ t.maxw = s.maxw ∧ t.wfb = s.wfb) ∧
    ((∀ f, i ≠ .venc f) → i ≠ .basm → t.buf = s.buf ∧ t.bufLen = s.bufLen) ∧
    (∀ b, i ≠ .bpar → (∀ f, bankOf f = some b → i ≠ .vdec f ∧ i ≠ .ddec f) → t.seq b = s.seq b ∧ t.seqLen b = s.seqLen b)

theorem mem_destinations_vdec_or_ddec {d : Dest} {f : BitVec 2} {dests : Bank → List Dest}
    (h : d ∈ ((bankOf f).map dests).getD []) : ∃ b, bankOf f = some b ∧ d ∈ dests b := by
  cases hf : bankOf f with
  | none => rw [hf] at h; cases h
  | some b => rw [hf] at h; exact ⟨b, rfl, h⟩

/-- R183: only BPAR invalidates the dimensions. -/
theorem dims_not_mem_destinations {i : Instr} (hi : i ≠ .bpar) : Dest.dims ∉ destinations i := by
  intro h
  cases i with
  | bpar => exact hi rfl
  | vdec f => obtain ⟨b, -, hmem⟩ := mem_destinations_vdec_or_ddec h; simp [destsVdec] at hmem
  | ddec f => obtain ⟨b, -, hmem⟩ := mem_destinations_vdec_or_ddec h; simp [destsDdec] at hmem
  | _ => simp [destinations, destsDenc, destsVenc, destsBasm] at h

/-- R183: BWC has no destination, and DDEC keeps its source. -/
theorem scratch_not_mem_destinations {i : Instr} (hi : i = .bwc ∨ ∃ f, i = .ddec f) : Dest.scratch ∉ destinations i := by
  intro h
  rcases hi with rfl | ⟨f, rfl⟩
  · cases h
  · obtain ⟨b, -, hmem⟩ := mem_destinations_vdec_or_ddec h
    simp [destsDdec] at hmem

/-- R183: only VENC and BASM invalidate BUF. -/
theorem buf_not_mem_destinations {i : Instr} (hv : ∀ f, i ≠ .venc f) (hb : i ≠ .basm) : Dest.buf ∉ destinations i := by
  intro h
  cases i with
  | venc f => exact hv f rfl
  | basm => exact hb rfl
  | vdec f => obtain ⟨b, -, hmem⟩ := mem_destinations_vdec_or_ddec h; simp [destsVdec] at hmem
  | ddec f => obtain ⟨b, -, hmem⟩ := mem_destinations_vdec_or_ddec h; simp [destsDdec] at hmem
  | _ => simp [destinations, destsDenc, destsBpar] at h

/-- R183: a bank is invalidated by BPAR and by a VDEC or DDEC that names it. -/
theorem bank_not_mem_destinations {i : Instr} {b : Bank} (hp : i ≠ .bpar)
    (hi : ∀ f, bankOf f = some b → i ≠ .vdec f ∧ i ≠ .ddec f) : Dest.bank b ∉ destinations i := by
  intro h
  cases i with
  | bpar => exact hp rfl
  | vdec f =>
    obtain ⟨c, hf, hmem⟩ := mem_destinations_vdec_or_ddec h
    obtain rfl : b = c := by simpa [destsVdec] using hmem
    exact (hi f hf).1 rfl
  | ddec f =>
    obtain ⟨c, hf, hmem⟩ := mem_destinations_vdec_or_ddec h
    obtain rfl : b = c := by simpa [destsDdec] using hmem
    exact (hi f hf).2 rfl
  | _ => simp [destinations, destsDenc, destsVenc, destsBasm] at h

theorem takeException_keepsOtherRows (i : Instr) (e : Exc) (s : State) {ds : List Dest} (hds : ds ⊆ destinations i) :
    keepsOtherRows i s (takeException ds e s) := by
  refine ⟨takeException_argLo _ _ _, takeException_argHi _ _ _, takeException_capSeq _ _ _, takeException_capBuf _ _ _,
    takeException_cmd _ _ _, fun _ => takeException_res _ _ _,
    fun hi => takeException_dims s e fun h => dims_not_mem_destinations hi (hds h), fun hi => ?_, fun hv hb => ?_,
    fun b hp hi => (takeException_bank s e b fun h => bank_not_mem_destinations hp hi (hds h)).symm⟩
  · obtain ⟨hlen, hdlt, hwid, hmaxw, hwfb⟩ := takeException_scratch s e fun h => scratch_not_mem_destinations hi (hds h)
    exact ⟨hdlt, hwid, hlen, hmaxw, hwfb⟩
  · exact (takeException_buf s e fun h => buf_not_mem_destinations hv hb (hds h)).symm

theorem writeBank_of_ne (s : State) {b c : Bank} (x : List Int) (h : c ≠ b) :
    (s.writeBank b x).seq c = s.seq c ∧ (s.writeBank b x).seqLen c = s.seqLen c :=
  ⟨(writeBank_seq s b c x).trans (if_neg h), (writeBank_seqLen s b c x).trans (if_neg h)⟩

/-- R34: the row of a completion, command by command. -/
theorem Completes.keepsOtherRows {i : Instr} {s u : State} (h : Completes s i u) : keepsOtherRows i s u.complete := by
  cases h with
  | bwc => simp [Proofs.keepsOtherRows, State.seq, State.seqLen]
  | denc hf hlen => simp [Proofs.keepsOtherRows]
  | venc hf hlen hcap => simp [Proofs.keepsOtherRows]
  | vdec hf hr =>
    simp only [Proofs.keepsOtherRows, complete_seq, complete_seqLen, writeDecodedScratch_seq, writeDecodedScratch_seqLen]
    refine ⟨by simp, by simp, by simp, by simp, by simp, by simp, by simp, by simp, by simp, fun c _ hc => ?_⟩
    exact writeBank_of_ne s _ fun hcb => (hc _ (hcb ▸ hf)).1 rfl
  | ddec hf hlen hx =>
    simp only [Proofs.keepsOtherRows, complete_seq, complete_seqLen]
    refine ⟨by simp, by simp, by simp, by simp, by simp, by simp, by simp, by simp, by simp, fun c _ hc => ?_⟩
    exact writeBank_of_ne s _ fun hcb => (hc _ (hcb ▸ hf)).2 rfl
  | basm hlen hcap => simp [Proofs.keepsOtherRows]
  | bpar hp => simp [Proofs.keepsOtherRows]

/-- Settles O57: an exception touches its destinations only, and a completion its results. -/
theorem commandsWriteOnlyTheirRow : Obligations.CommandsWriteOnlyTheirRow := by
  intro i s t h
  cases outcomes_of_exec h with
  | illegal _ => exact takeException_keepsOtherRows i _ s (List.nil_subset _)
  | raises _ _ => exact takeException_keepsOtherRows i _ s (List.Subset.refl _)
  | completes hu => exact hu.keepsOtherRows

/-! ### The rows of R176 and R183 -/

section
variable (s : State) {ds : List Dest} (e : Exc)

/-- A value that one group sets and no group changes to another holds after that group is invalidated. -/
theorem invalidate_eq_of_mem {α : Type} (get : State → α) (v : α) {d : Dest} (hd : d ∈ ds) (hset : ∀ u, get (invalidateOne u d) = v)
    (hkeep : ∀ c u, get u = v → get (invalidateOne u c) = v) : get (invalidate ds s) = v := by
  induction ds generalizing s with
  | nil => cases hd
  | cons c ds ih =>
    rcases List.mem_cons.1 hd with rfl | hd
    · exact invalidate_induct _ ds (P := fun u => get u = v) (fun c _ u hu => hkeep c u hu) (hset s)
    · exact ih (invalidateOne s c) hd

theorem dltLen_takeException_of_mem (h : Dest.scratch ∈ ds) : (takeException ds e s).dltLen = 0 :=
  invalidate_eq_of_mem s State.dltLen 0 h (fun _ => rfl) fun c u hu => by
    cases c with
    | scratch => rfl
    | bank b => cases b <;> exact hu
    | _ => exact hu

theorem bufLen_takeException_of_mem (h : Dest.buf ∈ ds) : (takeException ds e s).bufLen = 0 :=
  invalidate_eq_of_mem s State.bufLen 0 h (fun _ => rfl) fun c u hu => by
    cases c with
    | buf => rfl
    | bank b => cases b <;> exact hu
    | _ => exact hu

theorem seqLen_takeException_of_mem (b : Bank) (h : Dest.bank b ∈ ds) : (takeException ds e s).seqLen b = 0 := by
  rw [takeException, recordException_seqLen]
  refine invalidate_eq_of_mem s (State.seqLen · b) 0 h (fun u => ?_) fun c u hu => ?_
  · rw [invalidateOne, setSeq_seqLen, setSeqLen_seqLen_self]
  · cases c with
    | bank c =>
      rw [invalidateOne, setSeq_seqLen, setSeqLen_seqLen, hu, ite_self]
    | _ => cases b <;> exact hu

end

/-- R183: every destination length of a well-formed command that takes an exception is 0. -/
theorem destinationLengths_takeException {i : Instr} (hi : WellFormed i) (s : State) (e : Exc) :
    ∀ n ∈ destinationLengths i (takeException (destinations i) e s), n = 0 := by
  have hscratch (h : Dest.scratch ∈ destinations i) := dltLen_takeException_of_mem s e h
  have hbuf (h : Dest.buf ∈ destinations i) := bufLen_takeException_of_mem s e h
  have hbank (b : Bank) (h : Dest.bank b ∈ destinations i) := seqLen_takeException_of_mem s e b h
  have hnone {f : BitVec 2} (hok : bankFieldOk f = true) (hf : bankOf f = none) : False :=
    Bool.eq_false_iff.1 (bankFieldOk_of_bankOf_none hf) hok
  cases i with
  | bwc => exact List.forall_mem_nil _
  | denc f => simpa [destinationLengths] using hscratch (by simp [destinations, destsDenc])
  | venc f =>
    simpa [destinationLengths] using
      ⟨hbuf (by simp [destinations, destsVenc]), hscratch (by simp [destinations, destsVenc])⟩
  | vdec f =>
    cases hf : bankOf f with
    | none => exact (hnone hi hf).elim
    | some b =>
      simpa [destinationLengths, hf] using
        ⟨hbank b (by simp [destinations, hf, destsVdec]), hscratch (by simp [destinations, hf, destsVdec])⟩
  | ddec f =>
    cases hf : bankOf f with
    | none => exact (hnone hi hf).elim
    | some b => simpa [destinationLengths, hf] using hbank b (by simp [destinations, hf, destsDdec])
  | basm => simpa [destinationLengths] using ⟨hbuf (by decide), hscratch (by decide)⟩
  | bpar =>
    simpa [destinationLengths] using ⟨hbank .b0 (by decide), hbank .b1 (by decide), hbank .b2 (by decide), hscratch (by decide)⟩

/-- R187: a completion leaves ERR and the error registers. -/
theorem Completes.errorState {i : Instr} {s u : State} (h : Completes s i u) :
    u.err = s.err ∧ u.errcode = s.errcode ∧ u.erridx = s.erridx ∧ u.errfld = s.errfld := by
  cases h with
  | bwc => exact ⟨rfl, rfl, rfl, rfl⟩
  | _ => simp

/-- Settles O58: with ERR 0 before it, a command that ends with ERR 1 was illegal or took an exception of its row. -/
theorem exceptionsFollowTheTables : Obligations.ExceptionsFollowTheTables := by
  intro i s t herr h ht
  cases outcomes_of_exec h with
  | illegal hi => exact ⟨.illegalCmd, takeException_errcode _ _ _, .inr ⟨rfl, hi⟩, fun hc => absurd rfl hc⟩
  | raises hi he => exact ⟨_, takeException_errcode _ _ _, .inl he, fun _ => destinationLengths_takeException hi s _⟩
  | completes hu =>
    rw [complete_err, hu.errorState.1, herr] at ht
    cases ht

end Sys2Proof.Proofs
end

section
/-! The invariant (R16, R18, R20, R22, R23, R25, R182): in two halves, the bits of STATUS with the error registers and the operands
with their ranges. Every operation of the machine keeps each half, so every step keeps both. -/

namespace Sys2Proof.Proofs

open Sys2Proof Sys2Proof.Machine Sys2Proof.Laws

/-! ### Memories -/

/-- A memory in canonical form with every index below `n`. -/
structure Fits {w : Nat} (m : Memory w) (n : Nat) : Prop where
  wf : m.wf
  below : m.below n

section
variable {w n : Nat} {m : Memory w}

theorem fits_nil : Fits ([] : Memory w) n := ⟨List.Pairwise.nil, List.forall_mem_nil _⟩

theorem fits_set (h : Fits m n) {i : Nat} (hi : i < n) (v : BitVec w) : Fits (m.set i v) n := by
  refine ⟨wf_set h.wf i v, fun p hp => ?_⟩
  rcases mem_set hp with rfl | hp
  · exact hi
  · exact h.below p hp

theorem fits_setAll (h : Fits m n) {vs : List (BitVec w)} (hlen : vs.length ≤ n) : Fits (m.setAll 0 vs) n := by
  refine ⟨wf_setAll h.wf 0 vs, fun p hp => ?_⟩
  rcases mem_setAll hp with ⟨-, -, hlt⟩ | hp
  · omega
  · exact h.below p hp

end

/-! ### The two halves -/

/-- R22, R23, R182: the bits of STATUS, the error registers, and OVF after an exception. -/
structure StatusOk (s : State) : Prop where
  busyAlone : s.busy = true → s.done = false ∧ s.err = false
  errDone : s.err = true → s.done = true
  noError : s.err = false → s.errcode = 0 ∧ s.erridx = 0 ∧ s.errfld = 0
  errorCode : s.err = true → ∃ c, s.errcode = causeCode c
  errorOvf : s.err = true → s.flags = flagsOf (decide (s.errcode = causeCode .rngEncDelta))

/-- R16, R18, R20, R25: the ranges of the result registers, the capacities and the memories. -/
structure OperandsOk (s : State) : Prop where
  resRange : s.res.toNat ≤ 32
  maxwRange : ∀ v, s.maxw = .holds v → v.toNat ≤ 32
  wfbRange : ∀ v, s.wfb = .holds v → v.toNat ≤ 5
  capSeqRange : 1 ≤ s.capSeq.toNat
  capBufRange : 5 ≤ s.capBuf.toNat
  seqFits : ∀ b, Fits (s.seq b) s.capSeq.toNat
  dltFits : Fits s.dlt s.capSeq.toNat
  widFits : Fits s.wid s.capSeq.toNat
  bufFits : Fits (w := 8) s.buf s.capBuf.toNat
  widRange : ∀ p ∈ s.wid, 1 ≤ p.2.toNat ∧ p.2.toNat ≤ 32

theorem inv_iff {s : State} : s.Inv ↔ StatusOk s ∧ OperandsOk s :=
  ⟨fun h => ⟨⟨h.busyAlone, h.errDone, h.noError, h.errorCode, h.errorOvf⟩, h.resRange, h.maxwRange, h.wfbRange, h.capSeqRange,
      h.capBufRange, fun b => ⟨h.seqWf b, h.seqBound b⟩, ⟨h.dltWf, h.dltBound⟩, ⟨h.widWf, h.widBound⟩, ⟨h.bufWf, h.bufBound⟩,
      h.widRange⟩,
    fun ⟨hs, ho⟩ => { hs with
      resRange := ho.resRange, maxwRange := ho.maxwRange, wfbRange := ho.wfbRange, capSeqRange := ho.capSeqRange,
      capBufRange := ho.capBufRange, seqWf := fun b => (ho.seqFits b).wf, dltWf := ho.dltFits.wf, widWf := ho.widFits.wf,
      bufWf := ho.bufFits.wf, seqBound := fun b => (ho.seqFits b).below, dltBound := ho.dltFits.below,
      widBound := ho.widFits.below, bufBound := ho.bufFits.below, widRange := ho.widRange }⟩

/-- The registers and memories the invariant does not speak of, set to one value each. -/
def invariantPart (s : State) : State := { s with
  cmd := 0, argLo := 0, argHi := 0, rows := .unspecified, cols := .unspecified, seqLen0 := 0, seqLen1 := 0, seqLen2 := 0,
  dltLen := 0, bufLen := 0, schedule := [], observed := [], draws := 0 }

theorem inv_invariantPart {s : State} : (invariantPart s).Inv ↔ s.Inv := ⟨fun h => { h with }, fun h => { h with }⟩

/-- A change of what the invariant does not speak of keeps it. -/
theorem inv_of_invariantPart_eq {s t : State} (h : s.Inv) (heq : invariantPart t = invariantPart s) : t.Inv := by
  rw [← inv_invariantPart, heq, inv_invariantPart]
  exact h

/-! ### STATUS and the error registers -/

section
variable {s : State}

/-- R182: whatever came before it, exception entry leaves a legal error state. -/
theorem statusOk_takeException (ds : List Dest) (e : Exc) (s : State) : StatusOk (takeException ds e s) where
  busyAlone h := by rw [takeException_busy] at h; cases h
  errDone _ := takeException_done _ _ _
  noError h := by rw [takeException_err] at h; cases h
  errorCode _ := ⟨e.cause, takeException_errcode _ _ _⟩
  errorOvf _ := by
    have hcause : causeCode e.cause = causeCode .rngEncDelta ↔ e.cause = .rngEncDelta := ⟨causeCode_injective, congrArg _⟩
    rw [takeException_flags, takeException_errcode, ovfAfter, decide_eq_decide.2 hcause]

/-- R187: a command completes outside the error state. -/
theorem statusOk_complete (herr : s.err = false) (hregs : s.errcode = 0 ∧ s.erridx = 0 ∧ s.errfld = 0) : StatusOk s.complete where
  busyAlone h := by rw [complete_busy] at h; cases h
  errDone _ := complete_done s
  noError _ := hregs
  errorCode h := by rw [complete_err, herr] at h; cases h
  errorOvf h := by rw [complete_err, herr] at h; cases h

/-- R21: a command is accepted outside the error state. -/
theorem statusOk_accept (herr : s.err = false) (h : StatusOk s) (w : Word) : StatusOk (s.accept w) where
  busyAlone _ := ⟨accept_done s w, (accept_err s w).trans herr⟩
  errDone h := by rw [accept_err, herr] at h; cases h
  noError _ := h.noError herr
  errorCode h := by rw [accept_err, herr] at h; cases h
  errorOvf h := by rw [accept_err, herr] at h; cases h

theorem statusOk_clearErr (h : StatusOk s) : StatusOk s.clearErr where
  busyAlone hb := by
    rw [clearErr_busy] at hb
    exact ⟨(clearErr_done s).trans (h.busyAlone hb).1, clearErr_err s⟩
  errDone he := by rw [clearErr_err] at he; cases he
  noError _ := ⟨rfl, rfl, rfl⟩
  errorCode he := by rw [clearErr_err] at he; cases he
  errorOvf he := by rw [clearErr_err] at he; cases he

end

/-! ### The operands -/

section
variable {s : State}

theorem operandsOk_accept (h : OperandsOk s) (w : Word) : OperandsOk (s.accept w) := { h with }

theorem operandsOk_clearErr (h : OperandsOk s) : OperandsOk s.clearErr := { h with }

theorem operandsOk_complete (h : OperandsOk s) : OperandsOk s.complete := { h with }

theorem operandsOk_setOvf (h : OperandsOk s) (o : Bool) : OperandsOk (s.setOvf o) := { h with }

theorem operandsOk_setSeq (h : OperandsOk s) {b : Bank} {m : Memory 32} (hm : Fits m s.capSeq.toNat) :
    OperandsOk (s.setSeq b m) where
  resRange := by rw [setSeq_res]; exact h.resRange
  maxwRange := by rw [setSeq_maxw]; exact h.maxwRange
  wfbRange := by rw [setSeq_wfb]; exact h.wfbRange
  capSeqRange := by rw [setSeq_capSeq]; exact h.capSeqRange
  capBufRange := by rw [setSeq_capBuf]; exact h.capBufRange
  seqFits c := by
    rw [setSeq_seq, setSeq_capSeq]
    split_ifs
    · exact hm
    · exact h.seqFits c
  dltFits := by rw [setSeq_dlt, setSeq_capSeq]; exact h.dltFits
  widFits := by rw [setSeq_wid, setSeq_capSeq]; exact h.widFits
  bufFits := by rw [setSeq_buf, setSeq_capBuf]; exact h.bufFits
  widRange := by rw [setSeq_wid]; exact h.widRange

theorem operandsOk_setSeqLen (h : OperandsOk s) (b : Bank) (n : Word) : OperandsOk (s.setSeqLen b n) := by
  cases b <;> exact { h with }

theorem operandsOk_setDlt (h : OperandsOk s) {m : Memory 33} (hm : Fits m s.capSeq.toNat) : OperandsOk (s.setDlt m) :=
  { h with dltFits := hm }

theorem operandsOk_setBuf (h : OperandsOk s) {m : Memory 8} (hm : Fits m s.capBuf.toNat) : OperandsOk (s.setBuf m) :=
  { h with bufFits := hm }

/-- R183: what is invalidated holds no value, so no range is broken. -/
theorem operandsOk_invalidateOne (h : OperandsOk s) (d : Dest) : OperandsOk (invalidateOne s d) := by
  cases d with
  | scratch =>
    exact { h with
      maxwRange := nofun, wfbRange := nofun, dltFits := fits_nil, widFits := fits_nil, widRange := List.forall_mem_nil _ }
  | buf => exact { h with bufFits := fits_nil }
  | bank b => exact operandsOk_setSeq (operandsOk_setSeqLen h b 0) fits_nil
  | dims => exact { h with }

theorem operandsOk_takeException (h : OperandsOk s) (ds : List Dest) (e : Exc) : OperandsOk (takeException ds e s) := by
  have hdests : OperandsOk (invalidate ds s) := invalidate_induct s ds (fun d _ _ hu => operandsOk_invalidateOne hu d) h
  exact { hdests with }

theorem operandsOk_writeBank (h : OperandsOk s) (b : Bank) {x : List Int} (hlen : x.length ≤ s.capSeq.toNat) :
    OperandsOk (s.writeBank b x) :=
  operandsOk_setSeqLen (operandsOk_setSeq h (fits_setAll (h.seqFits b) (by rwa [List.length_map]))) b _

theorem operandsOk_writeBuf (h : OperandsOk s) {bs : List Byte} (hlen : bs.length ≤ s.capBuf.toNat) : OperandsOk (s.writeBuf bs) :=
  { h with bufFits := fits_setAll h.bufFits hlen }

theorem toNat_of_holds_ofNat {w n k : Nat} (h : n ≤ k) : ∀ v : BitVec w, Reg.holds (BitVec.ofNat w n) = .holds v → v.toNat ≤ k := by
  rintro _ ⟨⟩
  exact (Nat.mod_le _ _).trans h

/-- R16, R20: the scratch as a command writes it, with as many entries as the bank may have and every width in its range. -/
theorem operandsOk_writeScratch (h : OperandsOk s) {ds : List Int} {ws : List Nat} {mw k : Nat} (hds : ds.length ≤ s.capSeq.toNat)
    (hws : ws.length ≤ s.capSeq.toNat) (hrange : ∀ w ∈ ws, 1 ≤ w ∧ w ≤ 32) (hmw : mw ≤ 32) (hk : k ≤ 5) :
    OperandsOk (s.writeScratch ds ws mw k) := by
  refine { h with
    maxwRange := toNat_of_holds_ofNat hmw, wfbRange := toNat_of_holds_ofNat hk,
    dltFits := fits_setAll h.dltFits (by rwa [List.length_map]), widFits := fits_setAll h.widFits (by rwa [List.length_map]),
    widRange := fun p hp => ?_ }
  rcases mem_setAll hp with ⟨hmem, -, -⟩ | hp
  · obtain ⟨w, hw, hwp⟩ := List.mem_map.1 hmem
    obtain ⟨hpos, hle⟩ := hrange w hw
    rw [← hwp, BitVec.toNat_ofNat, Nat.mod_eq_of_lt (by omega)]
    exact ⟨hpos, hle⟩
  · exact h.widRange p hp

theorem operandsOk_writeScan (h : OperandsOk s) {x : List Int} (hlen : x.length ≤ s.capSeq.toNat) : OperandsOk (s.writeScan x) := by
  refine operandsOk_setOvf (operandsOk_writeScratch h ?_ ?_ ?_ (scan_maxWidth_le x) (scan_wfb_le x)) _
  · rwa [scan_deltas, length_delta]
  · rwa [scan_widths, List.length_map, length_delta]
  · rw [scan_widths]
    exact List.forall_mem_map.2 fun d _ => width_range d

@[simp] theorem length_widths (r : Decoded) : r.widths.length = r.elems.length := List.length_map _

theorem operandsOk_writeDecodedScratch (h : OperandsOk s) {cap : Nat} {bs : List Byte} {r : Decoded} (hcap : cap = s.capSeq.toNat)
    (hr : vldDecodeCap (some cap) bs = .ok r) : OperandsOk (s.writeDecodedScratch r) := by
  have hlen : r.elems.length ≤ s.capSeq.toNat := hcap ▸ vldDecodeCap_length_le hr
  obtain ⟨-, -, hwfb, -⟩ := vldDecodeCap_ok_bytes hr
  exact operandsOk_writeScratch h (by rwa [length_deltas]) (by rwa [length_widths]) (widths_range_of_vldDecodeCap hr)
    (maxWidthOf_widths_spec hr).2.1 hwfb

/-- A decoded sequence fits a bank (R137). -/
theorem length_values_le {cap : Nat} {bs : List Byte} {r : Decoded} (hr : vldDecodeCap (some cap) bs = .ok r) :
    r.values.length ≤ cap := by
  rw [length_values]
  exact vldDecodeCap_length_le hr

theorem operandsOk_writeParsed (h : OperandsOk s) {p : Parsed} (hp : blobParseCap (some s.capSeq.toNat) s.bufSource = .ok p) :
    OperandsOk (s.writeParsed p) := by
  obtain ⟨⟨_, h0⟩, ⟨_, h1⟩, ⟨_, h2⟩⟩ := blobParseCap_decoded hp
  have hdims : OperandsOk (s.writeDims p.rows p.cols) := { h with }
  have hb0 := operandsOk_writeBank hdims .b0 (length_values_le h0)
  have hb1 := operandsOk_writeBank hb0 .b1 (x := p.indices.values) (by simpa using length_values_le h1)
  have hb2 := operandsOk_writeBank hb1 .b2 (x := p.data.values) (by simpa using length_values_le h2)
  exact operandsOk_writeDecodedScratch hb2 (by simp) h2

theorem seqLen_le_of_basmOverLong {b : Bank} (h : basmOverLong s = none) : (s.seqLen b).toNat ≤ s.capSeq.toNat :=
  overLong_eq_false_iff.1 (Bool.eq_false_iff.2 (List.find?_eq_none.1 h b (mem_allBanks b)))

/-- The results of every command keep the operands in their ranges. -/
theorem Completes.operandsOk {i : Instr} {u : State} (hu : Completes s i u) (h : OperandsOk s) : OperandsOk u := by
  cases hu with
  | bwc =>
    have hres : (BitVec.ofNat 6 (width s.argument.toInt)).toNat ≤ 32 := (toNat_ofNat_width _).trans_le (width_range _).2
    exact { h with resRange := hres }
  | denc hf hlen => exact operandsOk_writeScan h (by rwa [length_source])
  | venc hf hlen hcap =>
    exact operandsOk_writeBuf (operandsOk_writeScan h (by rwa [length_source])) (by rwa [length_vldStream, writeScan_capBuf])
  | vdec hf hr =>
    exact operandsOk_writeDecodedScratch (operandsOk_writeBank h _ (length_values_le hr)) (by rw [writeBank_capSeq]) hr
  | ddec hf hlen hx => exact operandsOk_writeBank h _ (by rwa [undelta_length hx, length_deltaSource])
  | basm hlen hcap =>
    refine operandsOk_writeScan (operandsOk_writeBuf h (by rwa [length_basmBlob])) ?_
    rw [length_source, writeBuf_capSeq]
    exact seqLen_le_of_basmOverLong hlen
  | bpar hp => exact operandsOk_writeParsed h hp

end

/-! ### The steps -/

section
variable {s : State}

theorem inv_takeException (h : s.Inv) (ds : List Dest) (e : Exc) : (takeException ds e s).Inv :=
  inv_iff.2 ⟨statusOk_takeException ds e s, operandsOk_takeException (inv_iff.1 h).2 ds e⟩

/-- R21, R22: a command runs outside the error state. -/
theorem inv_outcomes {i : Instr} {t : State} (h : s.Inv) (hb : s.busy = true) (hout : Outcomes i s t) : t.Inv := by
  cases hout with
  | illegal _ => exact inv_takeException h _ _
  | raises _ _ => exact inv_takeException h _ _
  | completes hu =>
    have herr := (h.busyAlone hb).2
    obtain ⟨hcode, hidx, hfld⟩ := h.noError herr
    obtain ⟨uerr, ucode, uidx, ufld⟩ := hu.errorState
    exact inv_iff.2 ⟨statusOk_complete (uerr.trans herr) ⟨ucode.trans hcode, uidx.trans hidx, ufld.trans hfld⟩,
      operandsOk_complete (hu.operandsOk (inv_iff.1 h).2)⟩

theorem inv_engineTurn {t : State} (h : s.Inv) (ht : engineTurn s = .next t) : t.Inv := by
  rcases engineTurn_cases s with ⟨-, heq⟩ | ⟨hb, i, -, heq⟩ | ⟨-, e, -, heq⟩ <;> rw [heq] at ht
  · cases ht; exact h
  · exact inv_outcomes h hb (outcomes_of_exec ht)
  · cases ht; exact inv_takeException h _ _

theorem inv_writeCmd (h : s.Inv) (v : Word) : (s.writeCmd v).Inv := by
  rw [State.writeCmd]
  split_ifs with herr
  · exact h
  · obtain ⟨hs, ho⟩ := inv_iff.1 h
    exact inv_iff.2 ⟨statusOk_accept (Bool.eq_false_iff.2 herr) hs v, operandsOk_accept ho v⟩

theorem inv_writeStatus (h : s.Inv) (v : Word) : (s.writeStatus v).Inv := by
  rw [State.writeStatus]
  split_ifs
  · obtain ⟨hs, ho⟩ := inv_iff.1 h
    exact inv_iff.2 ⟨statusOk_clearErr hs, operandsOk_clearErr ho⟩
  · exact h

/-- R26, R33: of the registers a host may write, the invariant speaks of CMD and STATUS only. -/
theorem inv_writeReg (h : s.Inv) (r : Nat) (v : Word) : (s.writeReg r v).Inv := by
  unfold State.writeReg
  split
  · exact inv_writeCmd h v
  · exact inv_writeStatus h v
  all_goals exact inv_of_invariantPart_eq h rfl

theorem inv_hostMemWrite (h : s.Inv) (e : ElementWrite) : (hostMemWrite e s).Inv := by
  obtain ⟨hs, ho⟩ := inv_iff.1 h
  rcases hostMemWrite_cases s e with heq | ⟨-, ⟨b, i, v, -, hi, heq⟩ | ⟨i, v, -, hi, heq⟩ | ⟨i, v, -, hi, heq⟩⟩ <;> rw [heq]
  · exact h
  · refine inv_iff.2 ⟨?_, operandsOk_setSeq ho (fits_set (ho.seqFits b) hi v)⟩
    cases b <;> exact { hs with }
  · exact inv_iff.2 ⟨{ hs with }, operandsOk_setDlt ho (fits_set ho.dltFits hi v)⟩
  · exact inv_iff.2 ⟨{ hs with }, operandsOk_setBuf ho (fits_set ho.bufFits hi v)⟩

theorem inv_resetWith {capSeq capBuf : Word} (hseq : 1 ≤ capSeq.toNat) (hbuf : 5 ≤ capBuf.toNat) (es : List Event)
    (vs : List PortValue) (n : Nat) : (State.resetWith capSeq capBuf es vs n).Inv := by
  refine inv_iff.2 ⟨⟨fun h => ?_, fun h => ?_, fun _ => ⟨rfl, rfl, rfl⟩, fun h => ?_, fun h => ?_⟩, ⟨Nat.zero_le _,
    toNat_of_holds_ofNat (Nat.zero_le _), toNat_of_holds_ofNat (Nat.zero_le _), hseq, hbuf, fun b => ?_, fits_nil, fits_nil,
    fits_nil, List.forall_mem_nil _⟩⟩
  · rw [busy_resetWith] at h; cases h
  · rw [err_resetWith] at h; cases h
  · rw [err_resetWith] at h; cases h
  · rw [err_resetWith] at h; cases h
  · rw [seq_resetWith]
    exact fits_nil

/-- Every event keeps the invariant. -/
theorem inv_serve {e : Event} {t : State} (h : s.Inv) (ht : serve e s = .next t) : t.Inv := by
  cases e with
  | regRead r =>
    cases ht
    rcases hostRegRead_cases s r with ⟨-, -, heq⟩ | ⟨-, heq⟩ <;> rw [heq] <;> exact inv_of_invariantPart_eq h rfl
  | regWrite r v =>
    cases ht
    rw [hostRegWrite]
    split_ifs
    · exact h
    · exact inv_writeReg h r v
  | memRead sp i =>
    cases ht
    rcases hostMemRead_cases s sp i with ⟨-, heq⟩ | ⟨-, -, heq⟩ <;> rw [heq] <;> exact inv_of_invariantPart_eq h rfl
  | memWrite e => cases ht; exact inv_hostMemWrite h e
  | reset => cases ht; exact inv_resetWith h.capSeqRange h.capBufRange _ _ _
  | engine => exact inv_engineTurn h ht

end

/-- Settles O4: the event is served on the tick of the state, which the invariant does not tell from the state. -/
theorem everyStepKeepsTheInvariant : Obligations.EveryStepKeepsTheInvariant := fun s _ h ht =>
  inv_serve (inv_of_invariantPart_eq (t := s.tick) h rfl) ht

/-- Settles O3: the capacities of Config are in range. -/
theorem invariantHoldsAfterReset : Obligations.InvariantHoldsAfterReset :=
  inv_resetWith (by decide) (by decide) _ _ _

end Sys2Proof.Proofs
end

section
/-! Commands over specified sources are determined (R30 (a), R202): a source that holds a value is read as that value whatever the draw
counter, and no operation looks at the counter, so a command on the state with another counter gives its result with that counter. -/

namespace Sys2Proof.Proofs

open Sys2Proof Sys2Proof.Machine Sys2Proof.Laws

/-- The state with another value of the draw counter, the model's own field (log entry 3). -/
def withDraws (n : Nat) (s : State) : State := { s with draws := n }

/-! ### Sources -/

section
variable {s : State} (n : Nat)

/-- R31: an element that holds a value is read as it. -/
theorem getD_of_ne_none {α : Type} {o : Option α} (h : o ≠ none) (a b : α) : o.getD a = o.getD b := by
  cases o with
  | none => exact absurd rfl h
  | some v => rfl

@[simp] theorem capSeq_withDraws : (withDraws n s).capSeq = s.capSeq := rfl

@[simp] theorem capBuf_withDraws : (withDraws n s).capBuf = s.capBuf := rfl

@[simp] theorem bufLen_withDraws : (withDraws n s).bufLen = s.bufLen := rfl

@[simp] theorem dltLen_withDraws : (withDraws n s).dltLen = s.dltLen := rfl

@[simp] theorem seq_withDraws (b : Bank) : (withDraws n s).seq b = s.seq b := by cases b <;> rfl

@[simp] theorem seqLen_withDraws (b : Bank) : (withDraws n s).seqLen b = s.seqLen b := by cases b <;> rfl

theorem source_withDraws {b : Bank} (h : bankSpecified s b) : (withDraws n s).source b = s.source b := by
  rw [State.source, State.source, seqLen_withDraws]
  refine List.map_congr_left fun i hi => congrArg BitVec.toInt ?_
  rw [State.seqElem, State.seqElem, seq_withDraws]
  exact getD_of_ne_none (h i (List.mem_range.1 hi)) _ _

theorem deltaSource_withDraws (h : dltSpecified s) : (withDraws n s).deltaSource = s.deltaSource :=
  List.map_congr_left fun i hi => congrArg BitVec.toInt (getD_of_ne_none (h i (List.mem_range.1 hi)) _ _)

theorem bufSource_withDraws (h : bufSpecified s) : (withDraws n s).bufSource = s.bufSource :=
  List.map_congr_left fun i hi => getD_of_ne_none (h i (List.mem_range.1 hi)) _ _

theorem val_of_ne_unspecified {w : Nat} {r : Reg w} (h : r ≠ .unspecified) (a b : BitVec w) : r.val a = r.val b := by
  cases r with
  | holds v => rfl
  | unspecified => exact absurd rfl h

theorem rowsVal_withDraws (h : s.rows ≠ .unspecified) : (withDraws n s).rowsVal = s.rowsVal := val_of_ne_unspecified h _ _

theorem colsVal_withDraws (h : s.cols ≠ .unspecified) : (withDraws n s).colsVal = s.colsVal := val_of_ne_unspecified h _ _

end

/-! ### Operations -/

section
variable (s : State) (n : Nat)

theorem invalidateOne_withDraws (d : Dest) : invalidateOne (withDraws n s) d = withDraws n (invalidateOne s d) := by
  cases d with
  | bank b => cases b <;> rfl
  | _ => rfl

theorem invalidate_withDraws (ds : List Dest) : invalidate ds (withDraws n s) = withDraws n (invalidate ds s) := by
  induction ds generalizing s with
  | nil => rfl
  | cons d ds ih =>
    have hone := ih (invalidateOne s d)
    rwa [← invalidateOne_withDraws] at hone

theorem takeException_withDraws (ds : List Dest) (e : Exc) :
    takeException ds e (withDraws n s) = withDraws n (takeException ds e s) :=
  congrArg (recordException e) (invalidate_withDraws s n ds)

theorem complete_withDraws : (withDraws n s).complete = withDraws n s.complete := rfl

theorem writeScan_withDraws (x : List Int) : (withDraws n s).writeScan x = withDraws n (s.writeScan x) := rfl

theorem writeBuf_withDraws (bs : List Byte) : (withDraws n s).writeBuf bs = withDraws n (s.writeBuf bs) := rfl

theorem writeBank_withDraws (b : Bank) (x : List Int) : (withDraws n s).writeBank b x = withDraws n (s.writeBank b x) := by
  cases b <;> rfl

theorem writeDecodedScratch_withDraws (r : Decoded) :
    (withDraws n s).writeDecodedScratch r = withDraws n (s.writeDecodedScratch r) := rfl

theorem writeDims_withDraws (rows cols : Nat) : (withDraws n s).writeDims rows cols = withDraws n (s.writeDims rows cols) := rfl

theorem writeParsed_withDraws (p : Parsed) : (withDraws n s).writeParsed p = withDraws n (s.writeParsed p) := by
  simp only [State.writeParsed, writeDims_withDraws, writeBank_withDraws, writeDecodedScratch_withDraws]

end

/-! ### Commands -/

section
variable {s : State} (n : Nat)

theorem dencBank_withDraws {b : Bank} (h : bankSpecified s b) : dencBank b (withDraws n s) = withDraws n (dencBank b s) := by
  simp only [dencBank, source_withDraws n h, seqLen_withDraws, capSeq_withDraws]
  split_ifs
  · exact takeException_withDraws s n _ _
  · rfl

theorem vencBank_withDraws {b : Bank} (h : bankSpecified s b) : vencBank b (withDraws n s) = withDraws n (vencBank b s) := by
  simp only [vencBank, source_withDraws n h, seqLen_withDraws, capSeq_withDraws, capBuf_withDraws]
  split_ifs
  · exact takeException_withDraws s n _ _
  · exact takeException_withDraws s n _ _
  · exact takeException_withDraws s n _ _
  · rw [writeScan_withDraws, writeBuf_withDraws, complete_withDraws]

theorem vdecBank_withDraws (b : Bank) (h : bufSpecified s) : vdecBank b (withDraws n s) = withDraws n (vdecBank b s) := by
  simp only [vdecBank, bufSource_withDraws n h, bufLen_withDraws, capSeq_withDraws, capBuf_withDraws]
  split_ifs
  · exact takeException_withDraws s n _ _
  · cases vldDecodeCap (some s.capSeq.toNat) s.bufSource with
    | ok r => simp only [writeBank_withDraws, writeDecodedScratch_withDraws, complete_withDraws]
    | error e => exact takeException_withDraws s n _ _

theorem ddecBank_withDraws (b : Bank) (h : dltSpecified s) : ddecBank b (withDraws n s) = withDraws n (ddecBank b s) := by
  simp only [ddecBank, deltaSource_withDraws n h, dltLen_withDraws, capSeq_withDraws]
  split_ifs
  · exact takeException_withDraws s n _ _
  · cases undelta s.deltaSource with
    | ok x => simp only [writeBank_withDraws, complete_withDraws]
    | error e => exact takeException_withDraws s n _ _

theorem execBasm_withDraws (hbanks : ∀ b, bankSpecified s b) (hrows : s.rows ≠ .unspecified) (hcols : s.cols ≠ .unspecified) :
    ∃ t, execBasm s = .next t ∧ execBasm (withDraws n s) = .next (withDraws n t) := by
  have hsource := fun b => source_withDraws n (hbanks b)
  have hlong : basmOverLong (withDraws n s) = basmOverLong s := by
    simp only [basmOverLong, seqLen_withDraws, capSeq_withDraws]
  have hrange : basmOutOfRange (withDraws n s) = basmOutOfRange s := by simp only [basmOutOfRange, hsource]
  have hlength : basmLength (withDraws n s) = basmLength s := by simp only [basmLength, hsource]
  have hblob : basmBlob (withDraws n s) = basmBlob s := by
    simp only [basmBlob, hsource, rowsVal_withDraws n hrows, colsVal_withDraws n hcols]
  simp only [execBasm, hlong, hrange, hlength, hblob, hsource, capBuf_withDraws, takeException_withDraws, writeBuf_withDraws,
    writeScan_withDraws, complete_withDraws]
  cases basmOverLong s with
  | some b => exact ⟨_, rfl, rfl⟩
  | none =>
    cases basmOutOfRange s with
    | some b => exact ⟨_, rfl, rfl⟩
    | none =>
      simp only
      split_ifs
      · exact ⟨_, rfl, rfl⟩
      · exact ⟨_, rfl, rfl⟩

theorem execBpar_withDraws (h : bufSpecified s) :
    ∃ t, execBpar s = .next t ∧ execBpar (withDraws n s) = .next (withDraws n t) := by
  simp only [execBpar, bufSource_withDraws n h, bufLen_withDraws, capSeq_withDraws, capBuf_withDraws, takeException_withDraws,
    writeParsed_withDraws, complete_withDraws]
  split_ifs
  · exact ⟨_, rfl, rfl⟩
  · cases blobParseCap (some s.capSeq.toNat) s.bufSource with
    | ok p => exact ⟨_, rfl, rfl⟩
    | error e => exact ⟨_, rfl, rfl⟩

/-- R202: a command over specified sources, from a state that differs in the draw counter alone. -/
theorem exec_withDraws {i : Instr} (h : sourcesSpecified i s) :
    ∃ t, exec i s = .next t ∧ exec i (withDraws n s) = .next (withDraws n t) := by
  have hillegal {f : BitVec 2} (hf : bankOf f = none) (hi : i = .denc f ∨ i = .venc f ∨ i = .vdec f ∨ i = .ddec f) :
      ∃ t, exec i s = .next t ∧ exec i (withDraws n s) = .next (withDraws n t) :=
    ⟨_, exec_no_bank s hf hi, (exec_no_bank _ hf hi).trans (congrArg _ (takeException_withDraws s n _ _))⟩
  cases i with
  | bwc => exact ⟨_, rfl, rfl⟩
  | denc f =>
    cases hf : bankOf f with
    | none => exact hillegal hf (by simp)
    | some b => exact ⟨_, exec_denc s hf, (exec_denc _ hf).trans (congrArg _ (dencBank_withDraws n (h b hf)))⟩
  | venc f =>
    cases hf : bankOf f with
    | none => exact hillegal hf (by simp)
    | some b => exact ⟨_, exec_venc s hf, (exec_venc _ hf).trans (congrArg _ (vencBank_withDraws n (h b hf)))⟩
  | vdec f =>
    cases hf : bankOf f with
    | none => exact hillegal hf (by simp)
    | some b => exact ⟨_, exec_vdec s hf, (exec_vdec _ hf).trans (congrArg _ (vdecBank_withDraws n b h))⟩
  | ddec f =>
    cases hf : bankOf f with
    | none => exact hillegal hf (by simp)
    | some b => exact ⟨_, exec_ddec s hf, (exec_ddec _ hf).trans (congrArg _ (ddecBank_withDraws n b h))⟩
  | basm => exact execBasm_withDraws n h.1 h.2.1 h.2.2
  | bpar => exact execBpar_withDraws n h

end

/-- Settles O59: the result from one counter is the result from the other, but for the counter. -/
theorem specifiedSourcesFixTheResult : Obligations.SpecifiedSourcesFixTheResult := by
  intro i s t n hs h
  obtain ⟨t', h', hdraws⟩ := exec_withDraws n hs
  rw [h] at h'
  cases h'
  exact hdraws

end Sys2Proof.Proofs
end

section
/-! Defective and truncated streams (R129 to R132, R138 (b)): a stream that decodes is well typed, the first element that does not decode
says how, and a stream that is cut short is refused at the element with the cut. -/

namespace Sys2Proof.Proofs

open Sys2Proof Sys2Proof.Machine Sys2Proof.Laws

/-! ### What a decoded stream is -/

/-- R130, R131: every decoded delta fits its width, and every value is in INT32. -/
theorem decodeElems_ranges {cap : Option Nat} {wfb n i : Nat} {prev : Int} {bits : List Bool} {es : List Elem}
    (h : decodeElems cap wfb n i prev bits = .ok es) :
    ∀ e ∈ es, -2 ^ (e.width - 1) ≤ e.delta ∧ e.delta < 2 ^ (e.width - 1) ∧ InInt32 e.value := by
  induction n generalizing i prev bits es with
  | zero => cases h; exact List.forall_mem_nil _
  | succ n ih =>
    obtain ⟨w, u, v, t, hw, hu, -, hv, -, ht, rfl⟩ := decodeElems_succ h
    obtain ⟨hlo, hhi⟩ := sext_range (takeWidth_some hw).2.1 (takeBits_value_lt hu)
    exact List.forall_mem_cons.2 ⟨⟨hlo, hhi, hv⟩, ih ht⟩

/-- R131: the decoded values are the running sum of the decoded deltas. -/
theorem undeltaFrom_of_decodeElems {cap : Option Nat} {wfb n i : Nat} {prev : Int} {bits : List Bool} {es : List Elem}
    (h : decodeElems cap wfb n i prev bits = .ok es) : undeltaFrom i prev (es.map Elem.delta) = .ok (es.map Elem.value) := by
  induction n generalizing i prev bits es with
  | zero => cases h; rfl
  | succ n ih =>
    obtain ⟨w, u, v, t, -, -, hsum, hv, -, ht, rfl⟩ := decodeElems_succ h
    simp only [List.map_cons, undeltaFrom, ← hsum, if_pos hv, ih ht]

/-- Settles O35: the header gives count and `wfb`, the loop the rest. -/
theorem decodedStreamIsWellTyped : Obligations.DecodedStreamIsWellTyped := by
  intro cap b r h
  obtain ⟨-, hbyte, hwfb, hd⟩ := vldDecodeCap_ok_bytes h
  refine ⟨(decodeElems_length _ hd).1, hbyte, hwfb, fun e he => ?_, undeltaFrom_of_decodeElems hd⟩
  obtain ⟨hpos, hle⟩ := decodeElems_width hd e he
  exact ⟨hpos, hle, decodeElems_ranges hd e he⟩

/-! ### The first element that does not decode -/

/-- The value before the next element, after the elements `es` from the value `p` on (R131). -/
def lastValue (p : Int) (es : List Elem) : Int := (es.map Elem.value).getLastD p

theorem lastValue_cons (p : Int) (e : Elem) (es : List Elem) : lastValue p (e :: es) = lastValue e.value es := by
  rw [lastValue, List.map_cons, List.getLastD_cons, lastValue]

/-- R133: the loop over more elements goes on after the first `m` where they left off. -/
theorem decodeElems_add {cap : Option Nat} {wfb m n i : Nat} {p : Int} {bits : List Bool} {es : List Elem}
    (h : decodeElems cap wfb m i p bits = .ok es) : decodeElems cap wfb (m + n) i p bits =
      (decodeElems cap wfb n (i + m) (lastValue p es) (bits.drop (bitsRead wfb es))).map (es ++ ·) := by
  induction m generalizing i p bits es with
  | zero =>
    cases h
    have hsame : decodeElems cap wfb n (i + 0) (lastValue p []) (bits.drop (bitsRead wfb [])) = decodeElems cap wfb n i p bits := rfl
    rw [hsame, Nat.zero_add]
    cases decodeElems cap wfb n i p bits <;> rfl
  | succ m ih =>
    obtain ⟨w, u, v, t, hw, hu, hv, hrange, hcap, ht, rfl⟩ := decodeElems_succ h
    have hread : (bits.drop wfb).drop w = bits.drop (wfb + w) := List.drop_drop
    have hsum : wfb + w + bitsRead wfb t = bitsRead wfb (⟨v, sext w u, w⟩ :: t) := rfl
    rw [Nat.add_right_comm, decodeElems_succ_of_read hw hu hv hrange, hcap, ih ht, lastValue_cons, hread, List.drop_drop, hsum,
      Nat.add_right_comm i, Nat.add_assoc i]
    cases decodeElems cap wfb n (i + (m + 1)) (lastValue v t) (bits.drop (bitsRead wfb (⟨v, sext w u, w⟩ :: t))) <;> rfl

section
variable {cap : Option Nat} {wfb n i w : Nat} {p d v : Int} {rest : List Bool}

/-- R129: the width of an element by the bits it stands on. -/
theorem takeWidth_of_le (h : wfb ≤ rest.length) :
    takeWidth wfb rest = some (if 0 < wfb then uval (rest.take wfb) + 1 else 1, rest.drop wfb) := by
  rw [takeWidth]
  split_ifs with h0
  · rw [takeBits, if_neg h.not_gt, Option.map_some]
  · rw [Nat.eq_zero_of_not_pos h0, List.drop_zero]

theorem takeBits_of_le (h : w ≤ rest.length) : takeBits w rest = some (uval (rest.take w), rest.drop w) := if_neg h.not_gt

theorem decodeElems_of_code_cut (h : rest.length < wfb) :
    decodeElems cap wfb (n + 1) i p rest = .error ⟨.fmtElemCode, i⟩ := by
  rw [decodeElems, takeWidth_none.2 h]

theorem decodeElems_of_delta_cut {bits : List Bool} (hw : takeWidth wfb bits = some (w, rest)) (h : rest.length < w) :
    decodeElems cap wfb (n + 1) i p bits = .error ⟨.fmtElemDelta, i⟩ := by
  simp only [decodeElems, hw, takeBits_none.2 h]

theorem decodeElems_of_sum_out {bits rest' : List Bool} {u : Nat} (hw : takeWidth wfb bits = some (w, rest))
    (hu : takeBits w rest = some (u, rest')) (hv : ¬ InInt32 (if i = 0 then sext w u else p + sext w u)) :
    decodeElems cap wfb (n + 1) i p bits = .error ⟨.rngDecAcc, i⟩ := by
  simp only [decodeElems, hw, hu, if_neg hv]

theorem overCap_eq_true (h : ∃ c, cap = some c ∧ c ≤ i) : overCap cap i = true := by
  obtain ⟨c, rfl, hc⟩ := h
  exact decide_eq_true hc

theorem overCap_eq_false (h : ∀ c, cap = some c → i < c) : overCap cap i = false := by
  cases cap with
  | none => rfl
  | some c => exact decide_eq_false (h c rfl).not_ge

end

/-! ### The stream with another count -/

/-- The stream with the count `i` keeps byte 4 and what follows. -/
theorem be32_append_drop_four {b : List Byte} (h : 5 ≤ b.length) (i : Nat) :
    be32 i ++ b.drop 4 = headerBytes i (b.getD 4 0).toNat ++ b.drop 5 := by
  match b, h with
  | b0 :: b1 :: b2 :: b3 :: b4 :: rest, _ => simp [headerBytes]

theorem vldDecodeCap_be32_append {cap : Option Nat} {b : List Byte} {i : Nat} (h : 5 ≤ b.length) (hi : i < 2 ^ 32)
    (hwfb : (b.getD 4 0).toNat ≤ 5) : vldDecodeCap cap (be32 i ++ b.drop 4) =
      (decodeElems cap (b.getD 4 0).toNat i 0 0 (bitsOf (b.drop 5))).map (⟨·, (b.getD 4 0).toNat⟩) := by
  rw [be32_append_drop_four h, vldDecodeCap_headerBytes_append cap hi (b.getD 4 0).isLt, if_neg hwfb.not_gt]

/-- The bits after the header and the first elements of a stream. -/
theorem drop_bitsOf {b : List Byte} (h : 5 ≤ b.length) (k : Nat) : (bitsOf b).drop (40 + k) = (bitsOf (b.drop 5)).drop k := by
  have hheader : (bitsOf (headerBytes (unbe32 b) (b.getD 4 0).toNat)).length = 40 := length_bitsOf _
  have hsplit : bitsOf b = bitsOf (headerBytes (unbe32 b) (b.getD 4 0).toNat) ++ bitsOf (b.drop 5) := by
    rw [← bitsOf_append, headerBytes_append_drop h]
  rw [← List.drop_drop, hsplit, List.drop_left' hheader]

/-- Where the stream with count `i` decodes, the loop over `i + n` elements goes on after the bits read. -/
theorem decodeElems_of_prefix {cap : Option Nat} {b : List Byte} {i : Nat} {r : Decoded} (h : 5 ≤ b.length) (hi : i < 2 ^ 32)
    (hr : vldDecodeCap cap (be32 i ++ b.drop 4) = .ok r) :
    (b.getD 4 0).toNat = r.wfb ∧ r.wfb ≤ 5 ∧ ∀ n, decodeElems cap r.wfb (i + n) 0 0 (bitsOf (b.drop 5)) =
      (decodeElems cap r.wfb n i (r.values.getLastD 0) ((bitsOf b).drop (40 + bitsRead r.wfb r.elems))).map (r.elems ++ ·) := by
  rw [be32_append_drop_four h, vldDecodeCap_headerBytes_append cap hi (b.getD 4 0).isLt] at hr
  split_ifs at hr with hwfb
  cases hd : decodeElems cap (b.getD 4 0).toNat i 0 0 (bitsOf (b.drop 5)) with
  | error f => rw [hd] at hr; cases hr
  | ok es =>
    rw [hd] at hr
    cases hr
    refine ⟨rfl, not_lt.1 hwfb, fun n => ?_⟩
    rw [decodeElems_add hd, drop_bitsOf h, Nat.zero_add]
    rfl

/-- Settles O60: after the elements that decode, the loop's turn on the next one. -/
theorem decoderFailsAtTheFirstBadElement : Obligations.DecoderFailsAtTheFirstBadElement := by
  intro cap b h
  refine ⟨fun hwfb => vldDecodeCap_be32_append h (by omega) hwfb, fun i r hi hr => ?_⟩
  have hlt : i < 2 ^ 32 := hi.trans (unbe32_lt b)
  obtain ⟨hbyte, hwfb, hgo⟩ := decodeElems_of_prefix h hlt hr
  rw [sum_widths_eq_bitsRead]
  intro rest w d v
  obtain ⟨k, hk⟩ : ∃ k, unbe32 b = i + (k + 1) := ⟨unbe32 b - i - 1, by omega⟩
  have hfail {f : Failure} (hf : decodeElems cap r.wfb (k + 1) i (r.values.getLastD 0) rest = .error f) :
      vldDecodeCap cap b = .error f := by
    rw [vldDecodeCap_of_five_le cap h, hbyte, if_neg hwfb.not_gt, hk, hgo, hf]
    rfl
  have hcode (hle : r.wfb ≤ rest.length) : takeWidth r.wfb rest = some (w, rest.drop r.wfb) := takeWidth_of_le hle
  have hdelta (hle : r.wfb + w ≤ rest.length) : takeBits w (rest.drop r.wfb) =
      some (uval ((rest.drop r.wfb).take w), (rest.drop r.wfb).drop w) := takeBits_of_le (by rw [List.length_drop]; omega)
  refine ⟨fun hcut => hfail (decodeElems_of_code_cut hcut), fun hle hcut => hfail (decodeElems_of_delta_cut (hcode hle) ?_),
    fun hle hv => hfail (decodeElems_of_sum_out (hcode (by omega)) (hdelta hle) hv), fun hle hv hcap => hfail ?_,
    fun hle hv hcap => ?_⟩
  · rw [List.length_drop]
    omega
  · rw [decodeElems_succ_of_read (hcode (by omega)) (hdelta hle) rfl hv, overCap_eq_true hcap, if_pos rfl]
  · have hcount : i + 1 < 2 ^ 32 := (by omega : i + 1 ≤ unbe32 b).trans_lt (unbe32_lt b)
    rw [vldDecodeCap_be32_append h hcount (hbyte.trans_le hwfb), hbyte, hgo,
      decodeElems_succ_of_read (hcode (by omega)) (hdelta hle) rfl hv, overCap_eq_false hcap]
    rfl

/-! ### Truncated streams -/

/-- The bits of the first `k` elements (R70). -/
def usedBits (wfb : Nat) (ds : List Int) (k : Nat) : Nat := ((ds.take k).map (fun d => wfb + width d)).sum

theorem usedBits_cons_succ (wfb : Nat) (d : Int) (ds : List Int) (k : Nat) :
    usedBits wfb (d :: ds) (k + 1) = wfb + width d + usedBits wfb ds k := rfl

/-- A cut in an element: its code is not whole, or its delta is not. -/
theorem decodeElems_take_emitElement {wfb n i w K : Nat} {p d : Int} (hpos : 1 ≤ w) (hle : w ≤ 2 ^ wfb) (hK : K < wfb + w) :
    decodeElems none wfb (n + 1) i p ((emitElement wfb d w).take K) =
      .error ⟨if K < wfb then .fmtElemCode else .fmtElemDelta, i⟩ := by
  have hlen : ((emitElement wfb d w).take K).length = K := List.length_take_of_le (by rw [length_emitElement]; exact hK.le)
  split_ifs with hcode
  · exact decodeElems_of_code_cut (hlen.trans_lt hcode)
  · have hsplit : (emitElement wfb d w).take K = widthCode wfb w ++ (tc w d).take (K - wfb) := by
      rw [emitElement_eq, List.take_append, List.take_of_length_le (by rw [length_widthCode]; omega), length_widthCode]
    rw [hsplit]
    refine decodeElems_of_delta_cut (takeWidth_widthCode hpos hle _) ?_
    rw [List.length_take, length_tc]
    omega

/-- R138 (b), for the loop: the elements before the cut decode, the element with the cut is refused. -/
theorem decodeElems_take {wfb i K : Nat} {p : Int} {x : List Int} (hp : i = 0 → p = 0) (hx : ∀ v ∈ x, InInt32 v)
    (hd : ∀ d ∈ deltaFrom p x, InInt32 d) (hw : ∀ d ∈ deltaFrom p x, width d ≤ 2 ^ wfb)
    (hK : K < (elementBits wfb (deltaFrom p x)).length) :
    ∃ j, j < x.length ∧ usedBits wfb (deltaFrom p x) j ≤ K ∧ K < usedBits wfb (deltaFrom p x) (j + 1) ∧
      decodeElems none wfb x.length i p ((elementBits wfb (deltaFrom p x)).take K) =
        .error ⟨if K < usedBits wfb (deltaFrom p x) j + wfb then .fmtElemCode else .fmtElemDelta, i + j⟩ := by
  induction x generalizing i p K with
  | nil => exact absurd hK (Nat.not_lt_zero K)
  | cons v t ih =>
    simp only [deltaFrom_cons, List.forall_mem_cons] at hx hd hw
    rw [deltaFrom_cons, elementBits_cons] at hK ⊢
    rw [List.length_append, length_emitElement] at hK
    rw [List.length_cons]
    rcases lt_or_ge K (wfb + width (v - p)) with hlt | hge
    · refine ⟨0, Nat.succ_pos _, Nat.zero_le K, hlt, ?_⟩
      have hzero : usedBits wfb ((v - p) :: deltaFrom v t) 0 = 0 := rfl
      rw [List.take_append_of_le_length (by rw [length_emitElement]; exact hlt.le),
        decodeElems_take_emitElement (width_range _).1 hw.1 hlt, hzero, Nat.zero_add, Nat.add_zero]
    · obtain ⟨j, hj, hused, hnext, hrest⟩ := ih (i := i + 1) (K := K - (wfb + width (v - p))) (by omega) hx.2 hd.2 hw.2 (by omega)
      have hcut : K - (wfb + width (v - p)) < usedBits wfb (deltaFrom v t) j + wfb ↔
          K < wfb + width (v - p) + usedBits wfb (deltaFrom v t) j + wfb := by omega
      refine ⟨j + 1, Nat.succ_lt_succ hj, ?_, ?_, ?_⟩
      · rw [usedBits_cons_succ]
        omega
      · rw [usedBits_cons_succ]
        omega
      · rw [List.take_append, List.take_of_length_le (by rw [length_emitElement]; exact hge), length_emitElement,
          decodeElems_emitElement hp hx.1 hd.1 hw.1, hrest, usedBits_cons_succ, if_congr hcut rfl rfl, Nat.add_assoc i 1 j,
          Nat.add_comm 1 j]
        rfl

theorem bitsOf_take (c : List Byte) (k : Nat) : bitsOf (c.take k) = (bitsOf c).take (8 * k) := by
  induction c generalizing k with
  | nil => simp
  | cons b c ih =>
    cases k with
    | zero => rfl
    | succ k =>
      have hbyte : (ubits 8 b.toNat).take (8 * (k + 1)) = ubits 8 b.toNat :=
        List.take_of_length_le (by rw [length_ubits]; omega)
      have hrest : 8 * (k + 1) - 8 = 8 * k := by omega
      rw [List.take_succ_cons, bitsOf_cons, bitsOf_cons, ih, List.take_append, hbyte, length_ubits, hrest]

/-- R138 (b): a cut after the header. -/
theorem vldDecode_take_vldStream {x : List Int} {m : Nat} (hx : ∀ v ∈ x, InInt32 v) (hlen : x.length < 2 ^ 32)
    (hd : ∀ d ∈ delta x, InInt32 d) (h5 : 5 ≤ m) (hm : m < (vldStream x).length) :
    ∃ j, j < x.length ∧ 40 + usedBits (scan x).wfb (delta x) j ≤ 8 * m ∧ 8 * m < 40 + usedBits (scan x).wfb (delta x) (j + 1) ∧
      vldDecode ((vldStream x).take m) =
        .error ⟨if 8 * m < 40 + usedBits (scan x).wfb (delta x) j + (scan x).wfb then .fmtElemCode else .fmtElemDelta, j⟩ := by
  obtain ⟨c, padding, hstream, hbits, hshort⟩ := exists_vldStream_eq_append x
  have hw := width_le_two_pow_wfb x
  have hclen := congrArg List.length hbits
  rw [length_bitsOf, List.length_append] at hclen
  rw [hstream, List.length_append, length_headerBytes] at hm
  have hK : 8 * (m - 5) < (elementBits (scan x).wfb (delta x)).length := by omega
  have htake : bitsOf (c.take (m - 5)) = (elementBits (scan x).wfb (delta x)).take (8 * (m - 5)) := by
    rw [bitsOf_take, hbits, List.take_append_of_le_length hK.le]
  rw [delta_eq_deltaFrom] at hd hw hK htake ⊢
  obtain ⟨j, hj, hused, hnext, hrest⟩ := decodeElems_take (i := 0) (fun _ => rfl) hx hd hw hK
  have hcut : 8 * (m - 5) < usedBits (scan x).wfb (deltaFrom 0 x) j + (scan x).wfb ↔
      8 * m < 40 + usedBits (scan x).wfb (deltaFrom 0 x) j + (scan x).wfb := by omega
  refine ⟨j, hj, by omega, by omega, ?_⟩
  rw [vldDecode, hstream, List.take_append, List.take_of_length_le h5, length_headerBytes,
    vldDecodeCap_headerBytes_append none hlen (scan_wfb_lt x), if_neg (scan_wfb_le x).not_gt, htake, hrest, if_congr hcut rfl rfl,
    Nat.zero_add]
  rfl

/-- Settles O32: a cut in the header, or at the element the cut is in. -/
theorem everyTruncatedStreamFails : Obligations.EveryTruncatedStreamFails := by
  intro x e m hx hlen h hm
  obtain rfl := vldEncode_ok h
  have htake : ((vldStream x).take m).length = m := List.length_take_of_le hm.le
  rcases lt_trichotomy m 4 with h4 | h4 | h4
  · exact ⟨_, vldDecodeCap_of_length_lt_four none (htake.trans_lt h4), rfl, fun _ => rfl, fun _ => by omega, fun _ => by omega⟩
  · exact ⟨_, vldDecodeCap_of_length_eq_four none (htake.trans h4), rfl, fun _ => by omega, fun _ => rfl, fun _ => by omega⟩
  · obtain ⟨j, hj, hused, hnext, hfail⟩ := vldDecode_take_vldStream hx hlen (delta_inInt32_of_vldEncode h) h4 hm
    refine ⟨_, hfail, ?_, fun _ => by omega, fun _ => by omega, fun _ => ⟨?_, hj, hused, hnext, ?_⟩⟩
    · split_ifs <;> rfl
    · split_ifs
      · exact .inl rfl
      · exact .inr rfl
    · split_ifs with hcode
      · exact iff_of_true rfl hcode
      · exact iff_of_false (by decide) hcode

end Sys2Proof.Proofs
end

section
/-! Command words (R61 to R64): the fields of a word determine it, and the decoder accepts exactly the fields that the encoder lays
out. -/

namespace Sys2Proof.Proofs

open Sys2Proof Sys2Proof.Machine Sys2Proof.Laws

/-- R61: the fields of the command word of any command. -/
theorem encode_fields (i : Instr) :
    zeroField (encode i) = 0#22 ∧ bankField (encode i) = bankOperand i ∧ opField (encode i) = opcode i := by
  cases i with
  | bwc => exact Encoding.bwc
  | denc f => exact Encoding.denc f
  | venc f => exact Encoding.venc f
  | vdec f => exact Encoding.vdec f
  | ddec f => exact Encoding.ddec f
  | basm => exact Encoding.basm
  | bpar => exact Encoding.bpar

/-- R61: the three fields are the whole word. -/
theorem eq_of_fields_eq {w w' : Word} (hzero : zeroField w = zeroField w') (hbank : bankField w = bankField w')
    (hop : opField w = opField w') : w = w' := by
  have htop := congrArg BitVec.toNat hzero
  have hmid := congrArg BitVec.toNat hbank
  have hlow := congrArg BitVec.toNat hop
  rw [toNat_zeroField, toNat_zeroField] at htop
  rw [toNat_bankField, toNat_bankField] at hmid
  rw [toNat_opField, toNat_opField] at hlow
  apply BitVec.eq_of_toNat_eq
  omega

theorem withoutBank_ok {w : Word} {i j : Instr} (h : withoutBank w i = .ok j) : j = i ∧ bankField w = 0#2 := by
  rw [withoutBank] at h
  split_ifs at h with hb
  cases h
  exact ⟨rfl, hb⟩

theorem withBank_ok {w : Word} {f : BitVec 2 → Instr} {j : Instr} (h : withBank w f = .ok j) :
    j = f (bankField w) ∧ bankFieldOk (bankField w) = true := by
  rw [withBank] at h
  split_ifs at h with hb
  cases h
  exact ⟨rfl, hb⟩

/-- R82: what the decoder has tested of a legal word. -/
theorem decode_ok_fields {w : Word} {i : Instr} (h : decode w = .ok i) :
    WellFormed i ∧ zeroField w = 0#22 ∧ bankField w = bankOperand i ∧ opField w = opcode i := by
  unfold decode at h
  split_ifs at h with hzero h1 h2 h3 h4 h5 h6 h7
  · obtain ⟨rfl, hb⟩ := withoutBank_ok h
    exact ⟨rfl, not_not.1 hzero, hb, h1⟩
  · obtain ⟨rfl, hb⟩ := withBank_ok h
    exact ⟨hb, not_not.1 hzero, rfl, h2⟩
  · obtain ⟨rfl, hb⟩ := withBank_ok h
    exact ⟨hb, not_not.1 hzero, rfl, h3⟩
  · obtain ⟨rfl, hb⟩ := withBank_ok h
    exact ⟨hb, not_not.1 hzero, rfl, h4⟩
  · obtain ⟨rfl, hb⟩ := withBank_ok h
    exact ⟨hb, not_not.1 hzero, rfl, h5⟩
  · obtain ⟨rfl, hb⟩ := withoutBank_ok h
    exact ⟨rfl, not_not.1 hzero, hb, h6⟩
  · obtain ⟨rfl, hb⟩ := withoutBank_ok h
    exact ⟨rfl, not_not.1 hzero, hb, h7⟩

/-- R62, R63: a well-formed command survives its word. -/
theorem decode_encode {i : Instr} (h : WellFormed i) : decode (encode i) = .ok i := by
  obtain ⟨hzero, hbank, hop⟩ := encode_fields i
  have hok {f : BitVec 2 → Instr} (hb : bankFieldOk (bankOperand i) = true) : withBank (encode i) f = .ok (f (bankOperand i)) := by
    rw [withBank, hbank, if_pos hb]
  have hno {j : Instr} (hb : bankOperand i = 0#2) : withoutBank (encode i) j = .ok j := by
    rw [withoutBank, hbank, if_pos hb]
  rw [decode, hzero, hop, if_neg (not_not.2 rfl)]
  cases i with
  | bwc => exact hno rfl
  | denc f => exact hok h
  | venc f => exact hok h
  | vdec f => exact hok h
  | ddec f => exact hok h
  | basm => exact hno rfl
  | bpar => exact hno rfl

/-- Settles O8: a legal word has the fields of its command's word, and the fields determine it. -/
theorem decodeInvertsEncode : Obligations.DecodeInvertsEncode := by
  refine fun w i => ⟨fun h => ?_, fun ⟨hi, hw⟩ => hw ▸ decode_encode hi⟩
  obtain ⟨hi, hzero, hbank, hop⟩ := decode_ok_fields h
  obtain ⟨hzero', hbank', hop'⟩ := encode_fields i
  exact ⟨hi, eq_of_fields_eq (hzero'.trans hzero.symm) (hbank'.trans hbank.symm) (hop'.trans hop.symm)⟩

/-- Settles O6: each word is run through the decoder. -/
theorem writtenOutWordsDecode : Obligations.WrittenOutWordsDecode := by
  refine ⟨?_, ?_, ?_, ?_, ?_, ?_, ?_⟩ <;> decide

/-- Settles O9: the engine's turn finds BUSY set and CMD legal. -/
theorem stepRunsTheDecodedCommand : Obligations.StepRunsTheDecodedCommand := by
  intro s i he hb hd
  have hrun : engineTurn s.tick = runCommand s.tick := if_pos hb
  rw [step_eq s he, serve, hrun, runCommand, tick_cmd, hd, State.tick]

/-- Settles O11: the bank field names no bank, and exception entry has no destination. -/
theorem bankThreeIsIllegal : Obligations.BankThreeIsIllegal := by
  intro s i hi
  have hnone : bankOf 3#2 = none := by decide
  rw [exec_no_bank s hnone hi, raiseIllegal_eq]

end Sys2Proof.Proofs
end

section
/-! The host port (R21, R26, R33, R41, R185): what an idle block does at a register or memory access, the sticky error state, and the
host that waits for its commands (R203). -/

namespace Sys2Proof.Proofs

open Sys2Proof Sys2Proof.Machine Sys2Proof.Laws

variable {s : State}

/-- Settles O2: reset is served as R32's state, whatever was running. -/
theorem resetAbandonsARunningCommand : Obligations.ResetAbandonsARunningCommand := fun s he =>
  ⟨_, step_reset he, fun _ => readReg_resetWith_of_lt s.capSeq s.capBuf _ _ _, rfl, rfl, get_seq_resetWith s.capSeq s.capBuf _ _ _,
    get_dlt_wid_buf_resetWith s.capSeq s.capBuf _ _ _⟩

/-! ### Registers -/

theorem step_regRead_idle (hb : s.busy = false) {r : Nat} (he : s.nextEvent = .regRead r) :
    step s = .next (s.tick.observe (.word (s.tick.readReg r))) := by
  rw [step_eq s he, serve]
  rcases hostRegRead_cases s.tick r with ⟨hbusy, -, -⟩ | ⟨-, h⟩
  · rw [tick_busy, hb] at hbusy; cases hbusy
  · rw [h]

/-- R185: in the error state a CMD write is ignored. -/
theorem writeReg_cmd_of_err (herr : s.err = true) (w : Word) : s.writeReg 0x00 w = s := if_pos herr

/-- Settles O12: an idle block outside the error state accepts the word, any other ignores it. -/
theorem cmdWriteIsAcceptedOrIgnored : Obligations.CmdWriteIsAcceptedOrIgnored := by
  intro s w he
  refine ⟨fun hb herr => ⟨s.tick.accept w, ?_, rfl, accept_busy _ w, accept_done _ w, (accept_err _ w).trans herr, rfl, rfl⟩,
    fun h => ?_⟩
  · rw [step_regWrite_idle hb he, writeReg_cmd_of_no_err ((tick_err s).trans herr)]
  · cases hb : s.busy with
    | true => exact step_regWrite_busy hb he
    | false =>
      have herr : s.err = true := h.resolve_left (Bool.eq_false_iff.1 hb)
      rw [step_regWrite_idle hb he, writeReg_cmd_of_err ((tick_err s).trans herr), State.tick]

/-- R26: the registers that always hold a value, by number and value. -/
theorem readReg_of_mem {r v : Nat} (h : (r, v) ∈ [(0x00, s.cmd.toNat), (0x01, s.status.toNat), (0x02, s.errcode.toNat),
    (0x03, s.erridx.toNat), (0x04, s.errfld.toNat), (0x05, s.flags.toNat), (0x06, s.argLo.toNat), (0x07, s.argHi.toNat),
    (0x08, s.res.toNat), (0x0B, s.seqLen0.toNat), (0x0C, s.seqLen1.toNat), (0x0D, s.seqLen2.toNat), (0x0E, s.dltLen.toNat),
    (0x0F, s.bufLen.toNat), (0x12, s.capSeq.toNat), (0x13, s.capBuf.toNat)]) : s.readReg r = BitVec.ofNat 32 v := by
  have hrow : ∀ p ∈ [(0x00, s.cmd.toNat), (0x01, s.status.toNat), (0x02, s.errcode.toNat),
      (0x03, s.erridx.toNat), (0x04, s.errfld.toNat), (0x05, s.flags.toNat), (0x06, s.argLo.toNat), (0x07, s.argHi.toNat),
      (0x08, s.res.toNat), (0x0B, s.seqLen0.toNat), (0x0C, s.seqLen1.toNat), (0x0D, s.seqLen2.toNat), (0x0E, s.dltLen.toNat),
      (0x0F, s.bufLen.toNat), (0x12, s.capSeq.toNat), (0x13, s.capBuf.toNat)], s.readReg p.1 = BitVec.ofNat 32 p.2 := by
    simp [State.readReg, BitVec.ofNat_toNat]
  exact hrow _ h

theorem readReg_reserved {r : Nat} (h : 0x14 ≤ r) : s.readReg r = 0 := by
  obtain ⟨k, rfl⟩ := Nat.exists_eq_add_of_le' h
  rfl

/-- R26: the registers that hold a value or are unspecified, where they hold one. -/
theorem readReg_of_holds :
    (∀ u, s.rows = .holds u → s.readReg 0x09 = u) ∧ (∀ u, s.cols = .holds u → s.readReg 0x0A = u) ∧
      (∀ u, s.maxw = .holds u → s.readReg 0x10 = u.setWidth 32) ∧ (∀ u, s.wfb = .holds u → s.readReg 0x11 = u.setWidth 32) := by
  refine ⟨fun u h => ?_, fun u h => ?_, fun u h => ?_, fun u h => ?_⟩ <;>
    simp only [State.readReg, State.rowsVal, State.colsVal, h, Reg.val]

/-- Settles O16: an idle read records the register's value, by the rows of the table. -/
theorem registerReadsFollowTheTable : Obligations.RegisterReadsFollowTheTable := by
  intro s r v hb he h
  have hvalue : s.tick.readReg r = BitVec.ofNat 32 v := by
    obtain ⟨hrows, hcols, hmaxw, hwfb⟩ := readReg_of_holds (s := s.tick)
    rcases h with hmem | ⟨u, rfl, hu, rfl⟩ | ⟨u, rfl, hu, rfl⟩ | ⟨u, rfl, hu, rfl⟩ | ⟨u, rfl, hu, rfl⟩ | ⟨hr, rfl⟩
    · exact readReg_of_mem (s := s.tick) hmem
    · rw [hrows u hu, BitVec.ofNat_toNat, BitVec.setWidth_eq]
    · rw [hcols u hu, BitVec.ofNat_toNat, BitVec.setWidth_eq]
    · rw [hmaxw u hu, BitVec.ofNat_toNat]
    · rw [hwfb u hu, BitVec.ofNat_toNat]
    · exact readReg_reserved hr
  rw [step_regRead_idle hb he, hvalue]
  rfl

/-- R33: read-only and reserved numbers ignore a write. -/
theorem writeReg_of_not_writable {r : Nat} (v : Word)
    (h : r ∈ [0x02, 0x03, 0x04, 0x05, 0x08, 0x10, 0x11, 0x12, 0x13] ∨ 0x14 ≤ r) : s.writeReg r v = s := by
  rcases h with h | h
  · have hrow : ∀ r ∈ [0x02, 0x03, 0x04, 0x05, 0x08, 0x10, 0x11, 0x12, 0x13], s.writeReg r v = s := by simp [State.writeReg]
    exact hrow r h
  · obtain ⟨k, rfl⟩ := Nat.exists_eq_add_of_le' h
    rfl

/-- R26: a 32-bit read-write register reads back what was written. -/
theorem readReg_writeReg {r : Nat} (v : Word) (h : r ∈ [0x06, 0x09, 0x0A, 0x0B, 0x0C, 0x0D, 0x0E, 0x0F]) :
    (s.writeReg r v).readReg r = v := by
  have hrow : ∀ r ∈ [0x06, 0x09, 0x0A, 0x0B, 0x0C, 0x0D, 0x0E, 0x0F], (s.writeReg r v).readReg r = v := by
    simp [State.writeReg, State.readReg, State.rowsVal, State.colsVal, Reg.val]
  exact hrow r h

theorem toNat_readReg_writeReg_argHi (v : Word) : ((s.writeReg 0x07 v).readReg 0x07).toNat = v.toNat % 2 := by
  have hlt : v.toNat % 2 < 2 ^ 32 := by omega
  rw [State.writeReg, State.readReg, BitVec.toNat_setWidth, BitVec.toNat_setWidth, Nat.pow_one, Nat.mod_eq_of_lt hlt]

/-- R33: a write from 0x06 on, as one update with the written register in its place. -/
theorem writeReg_frame {r : Nat} (v : Word) (h : 0x06 ≤ r) : s.writeReg r v = { s with
    argLo := if r = 0x06 then (s.writeReg r v).argLo else s.argLo,
    argHi := if r = 0x07 then (s.writeReg r v).argHi else s.argHi,
    rows := if r = 0x09 then (s.writeReg r v).rows else s.rows, cols := if r = 0x0A then (s.writeReg r v).cols else s.cols,
    seqLen0 := if r = 0x0B then (s.writeReg r v).seqLen0 else s.seqLen0,
    seqLen1 := if r = 0x0C then (s.writeReg r v).seqLen1 else s.seqLen1,
    seqLen2 := if r = 0x0D then (s.writeReg r v).seqLen2 else s.seqLen2,
    dltLen := if r = 0x0E then (s.writeReg r v).dltLen else s.dltLen,
    bufLen := if r = 0x0F then (s.writeReg r v).bufLen else s.bufLen } := by
  unfold State.writeReg
  split
  case h_1 => omega
  case h_2 => omega
  case h_12 => simp [*]
  all_goals rfl

/-- Settles O17: an idle write is served as `writeReg`, by the rows of the table. -/
theorem registerWritesFollowTheTable : Obligations.RegisterWritesFollowTheTable := by
  intro s r v hb he
  have hstep := step_regWrite_idle hb he
  refine ⟨fun h => ?_, fun h => ⟨_, hstep, readReg_writeReg v h⟩, ?_, fun t ht h6 => ?_⟩
  · rw [hstep, writeReg_of_not_writable v h, State.tick]
  · rintro rfl
    exact ⟨_, hstep, toNat_readReg_writeReg_argHi v⟩
  · rw [hstep] at ht
    cases ht
    exact writeReg_frame (s := s.tick) v h6

end Sys2Proof.Proofs
end

section
/-! Keeping host and engine apart: the error state (R185), the memory port of an idle block (R40, R41), and a host that waits for its
commands (R203). -/

namespace Sys2Proof.Proofs

open Sys2Proof Sys2Proof.Machine Sys2Proof.Laws

variable {s : State}

/-! ### The error state -/

/-- STATUS, CMD, the error registers and FLAGS: what the error state holds on to. -/
def errorPart (s : State) : BitVec 3 × Word × BitVec 8 × Word × BitVec 2 × BitVec 1 :=
  (s.status, s.cmd, s.errcode, s.erridx, s.errfld, s.flags)

theorem busy_of_errorPart_eq {t : State} (h : errorPart t = errorPart s) : t.busy = s.busy :=
  congrArg (fun p => p.1.getLsbD 0) h

/-- R26, R33: only writes to CMD and STATUS reach these registers. -/
theorem errorPart_writeReg {r : Nat} (hcmd : r ≠ 0x00) (hstatus : r ≠ 0x01) (v : Word) : errorPart (s.writeReg r v) = errorPart s := by
  unfold State.writeReg
  split
  · exact absurd rfl hcmd
  · exact absurd rfl hstatus
  all_goals rfl

theorem errorPart_hostMemWrite (e : ElementWrite) : errorPart (hostMemWrite e s) = errorPart s := by
  rcases hostMemWrite_cases s e with h | ⟨-, ⟨b, i, v, -, -, h⟩ | ⟨i, v, -, -, h⟩ | ⟨i, v, -, -, h⟩⟩ <;> rw [h]
  · cases b <;> rfl
  all_goals rfl

/-- R185: a register write in the error state that does not clear ERR. -/
theorem errorPart_writeReg_of_err (herr : s.err = true) {r : Nat} {v : Word} (hkeep : r = 0x01 → v.getLsbD 2 = false) :
    errorPart (s.writeReg r v) = errorPart s := by
  by_cases hcmd : r = 0x00
  · rw [hcmd, writeReg_cmd_of_err herr]
  · by_cases hstatus : r = 0x01
    · rw [hstatus, writeReg_status_of_bit_clear (hkeep hstatus)]
    · exact errorPart_writeReg hcmd hstatus v

theorem step_engine_idle (hb : s.busy = false) (he : s.nextEvent = .engine) : step s = .next s.tick := by
  rw [step_eq s he, serve, engineTurn, tick_busy, hb, if_neg Bool.false_ne_true]

/-- A step that leaves these registers as they were, by the event: the error state is idle, and an idle engine's turn does nothing. -/
theorem errorPart_step_of_err {t : State} (hbusy : s.busy = false) (herr : s.err = true) (hreset : s.nextEvent ≠ .reset)
    (hclear : ∀ v, v.getLsbD 2 = true → s.nextEvent ≠ .regWrite 0x01 v) (ht : step s = .next t) : errorPart t = errorPart s := by
  cases he : s.nextEvent with
  | regRead r =>
    obtain ⟨v, h, -⟩ := step_regRead he
    cases h.symm.trans ht
    rfl
  | memRead sp i =>
    obtain ⟨v, h⟩ := step_memRead he
    cases h.symm.trans ht
    rfl
  | regWrite r v =>
    cases (step_regWrite_idle hbusy he).symm.trans ht
    refine errorPart_writeReg_of_err (s := s.tick) ((tick_err s).trans herr) fun hr => ?_
    exact Bool.eq_false_iff.2 fun hv => hclear v hv (hr ▸ he)
  | memWrite e =>
    cases (step_eq s he).symm.trans ht
    exact errorPart_hostMemWrite (s := s.tick) e
  | reset => exact absurd he hreset
  | engine =>
    cases (step_engine_idle hbusy he).symm.trans ht
    rfl

/-- Settles O14: ERR excludes BUSY, and no event of an idle block but a reset and a clear of ERR reaches the registers. -/
theorem errorStateIsSticky : Obligations.ErrorStateIsSticky := by
  intro s t hinv herr hreset hclear ht
  have hbusy : s.busy = false := Bool.eq_false_iff.2 fun hb => by
    rw [(hinv.busyAlone hb).2] at herr; cases herr
  simpa only [errorPart, Prod.mk.injEq] using errorPart_step_of_err hbusy herr hreset hclear ht

/-! ### The memory port -/

theorem step_memWrite_eq {e : ElementWrite} (he : s.nextEvent = .memWrite e) : step s = .next (hostMemWrite e s.tick) := step_eq s he

theorem step_memRead_idle (hb : s.busy = false) {sp : Space} {i : Nat} (hi : i < s.spaceSize sp) (he : s.nextEvent = .memRead sp i) :
    step s = .next (s.tick.observe (s.tick.elemValue sp i)) := by
  rw [step_eq s he, serve]
  rcases hostMemRead_cases s.tick sp i with ⟨hfree, -⟩ | ⟨-, -, h⟩
  · rcases hfree with hbusy | hge
    · rw [tick_busy, hb] at hbusy; cases hbusy
    · exact absurd hi (not_lt.2 (by cases sp <;> exact hge))
  · rw [h]

theorem hostMemWrite_seq (hb : s.busy = false) {i : Nat} (hi : i < s.capSeq.toNat) (b : Bank) (v : Word) :
    hostMemWrite (.seq b i v) s = s.setSeq b ((s.seq b).set i v) := by simp [hostMemWrite, hb, hi]

theorem hostMemWrite_dlt (hb : s.busy = false) {i : Nat} (hi : i < s.capSeq.toNat) (v : Delta) :
    hostMemWrite (.dlt i v) s = s.setDlt (s.dlt.set i v) := by simp [hostMemWrite, hb, hi]

theorem hostMemWrite_buf (hb : s.busy = false) {i : Nat} (hi : i < s.capBuf.toNat) (v : Byte) :
    hostMemWrite (.buf i v) s = s.setBuf (Memory.set (w := 8) s.buf i v) := by simp [hostMemWrite, hb, hi]

/-- R41: an element that holds a value is read as that value, in its port form. -/
theorem elemValue_of_get (i : Nat) :
    (∀ b v, (s.seq b).get i = some v → s.elemValue (.seq b) i = .word v) ∧
      (∀ v, s.dlt.get i = some v → s.elemValue .dlt i = .delta v) ∧
      (∀ v, s.wid.get i = some v → s.elemValue .wid i = .word (v.setWidth 32)) ∧
      (∀ v, Memory.get (w := 8) s.buf i = some v → s.elemValue .buf i = .word (v.setWidth 32)) := by
  refine ⟨fun b v h => ?_, fun v h => ?_, fun v h => ?_, fun v h => ?_⟩ <;>
    simp only [State.elemValue, State.seqElem, State.dltElem, State.widElem, State.bufElem, h, Option.getD_some]

theorem get_set_same {w : Nat} (m : Memory w) (i : Nat) (v : BitVec w) : (m.set i v).get i = some v := by
  rw [get_set, if_pos rfl]

theorem get_set_of_ne {w : Nat} (m : Memory w) {i j : Nat} (h : j ≠ i) (v : BitVec w) : (m.set i v).get j = m.get j := by
  rw [get_set, if_neg h]

/-- R41: a write and then a read, each served at its turn, where the write leaves `t` and `t` holds the value read. -/
theorem steps_of_write_read {es : List Event} {e : ElementWrite} {sp : Space} {i : Nat} {t : State} {p : PortValue}
    (hs : s.schedule = .memWrite e :: .memRead sp i :: es) (hwrite : hostMemWrite e s.tick = t) (hschedule : t.schedule = s.tick.schedule)
    (hb : t.busy = false) (hi : i < t.spaceSize sp) (hvalue : t.tick.elemValue sp i = p) :
    step s = .next t ∧ step t = .next (t.tick.observe p) := by
  have hnext : t.schedule = .memRead sp i :: es := by rw [hschedule, tick_schedule, hs]; rfl
  refine ⟨by rw [step_memWrite_eq (nextEvent_cons s hs), hwrite], ?_⟩
  rw [step_memRead_idle hb hi (nextEvent_cons t hnext), hvalue]

/-- Settles O18: a write is one `Memory.set`, and an element that holds a value is read as it. -/
theorem elementWriteThenReadReturnsIt : Obligations.ElementWriteThenReadReturnsIt := by
  intro s es i hb
  have hrest {e e' : Event} (hs : s.schedule = e :: e' :: es) : s.schedule.tail.tail = es := by rw [hs]; rfl
  obtain ⟨hseq, hdlt, hwid, hbuf⟩ := elemValue_of_get (s := s.tick) i
  refine ⟨fun b v hi hs => ?_, fun v hi hs => ?_, fun v hi hs => ?_, fun b v hi hget he => ?_, fun v hi hget he => ?_,
    fun v hi hget he => ?_, fun v hi hget he => ?_⟩
  · obtain ⟨hread, -, -, -⟩ := elemValue_of_get (s := (s.tick.setSeq b ((s.seq b).set i v)).tick) i
    obtain ⟨h1, h2⟩ := steps_of_write_read hs (hostMemWrite_seq (s := s.tick) hb hi b v) (by cases b <;> rfl)
      (by cases b <;> exact hb) (by cases b <;> exact hi) (hread b v (by cases b <;> exact get_set_same _ i v))
    refine ⟨_, _, h1, h2, by cases b <;> rfl, fun j hj => ?_, ?_⟩
    · cases b <;> exact get_set_of_ne _ hj v
    · rw [← hrest hs]; cases b <;> rfl
  · obtain ⟨-, hread, -, -⟩ := elemValue_of_get (s := (s.tick.setDlt (s.dlt.set i v)).tick) i
    obtain ⟨h1, h2⟩ := steps_of_write_read hs (hostMemWrite_dlt (s := s.tick) hb hi v) rfl hb hi
      (hread v (get_set_same s.dlt i v))
    exact ⟨_, _, h1, h2, rfl, fun j hj => get_set_of_ne s.dlt hj v, by rw [← hrest hs]; rfl⟩
  · obtain ⟨-, -, -, hread⟩ := elemValue_of_get (s := (s.tick.setBuf (Memory.set (w := 8) s.buf i v)).tick) i
    obtain ⟨h1, h2⟩ := steps_of_write_read hs (hostMemWrite_buf (s := s.tick) hb hi v) rfl hb hi
      (hread v (get_set_same (w := 8) s.buf i v))
    exact ⟨_, _, h1, h2, rfl, fun j hj => get_set_of_ne (w := 8) s.buf hj v, by rw [← hrest hs]; rfl⟩
  · rw [step_memRead_idle hb hi he, hseq b v (by cases b <;> exact hget)]
    rfl
  · rw [step_memRead_idle hb hi he, hdlt v hget]
    rfl
  · rw [step_memRead_idle hb hi he, hwid v hget]
    rfl
  · rw [step_memRead_idle hb hi he, hbuf v hget]
    rfl

/-! ### The host that waits -/

/-- R21: of all register writes only an accepted CMD write starts the engine. -/
theorem busy_writeReg {r : Nat} {v : Word} (hb : s.busy = false) (h : (s.writeReg r v).busy = true) : r = 0x00 ∧ s.err = false := by
  have hidle : (s.writeReg r v).busy ≠ s.busy := by rw [h, hb]; exact Bool.noConfusion
  by_cases hcmd : r = 0x00
  · refine ⟨hcmd, Bool.eq_false_iff.2 fun herr => hidle ?_⟩
    rw [hcmd, writeReg_cmd_of_err herr]
  · refine absurd ?_ hidle
    by_cases hstatus : r = 0x01
    · cases hv : v.getLsbD 2 with
      | true => rw [hstatus, writeReg_status_of_bit_set hv, clearErr_busy]
      | false => rw [hstatus, writeReg_status_of_bit_clear hv]
    · exact busy_of_errorPart_eq (errorPart_writeReg hcmd hstatus v)

/-- A command that runs after the step is one the host waits for. -/
theorem waitsAfter_of_busy {waiting : Bool} {t : State} (hwaits : s.busy = true → waiting = true) (ht : step s = .next t)
    (hbusy : t.busy = true) : waitsAfter waiting s.nextEvent s = true := by
  cases he : s.nextEvent with
  | regRead r =>
    obtain ⟨v, h, -⟩ := step_regRead he
    cases h.symm.trans ht
    have hrun : s.busy = true := hbusy
    simp [waitsAfter, hwaits hrun, hrun]
  | memRead sp i =>
    obtain ⟨v, h⟩ := step_memRead he
    cases h.symm.trans ht
    exact hwaits hbusy
  | regWrite r v =>
    cases hb : s.busy with
    | true => simp [waitsAfter, hwaits hb]
    | false =>
      cases (step_regWrite_idle hb he).symm.trans ht
      obtain ⟨hr, herr⟩ := busy_writeReg (s := s.tick) hb hbusy
      have herr' : s.err = false := herr
      simp [waitsAfter, hr, hb, herr']
  | memWrite e =>
    cases (step_memWrite_eq he).symm.trans ht
    exact hwaits ((busy_of_errorPart_eq (errorPart_hostMemWrite (s := s.tick) e)).symm.trans hbusy)
  | reset =>
    cases (step_reset he).symm.trans ht
    rw [hostReset, busy_resetWith] at hbusy
    cases hbusy
  | engine =>
    cases hb : s.busy with
    | true => exact hwaits hb
    | false =>
      cases (step_engine_idle hb he).symm.trans ht
      exact absurd hbusy (Bool.eq_false_iff.1 hb)

/-- The duty at a step: its event is allowed, and the duty holds again after it. -/
theorem respectsOwnership_step {waiting : Bool} {t : State} (h : respectsOwnership waiting s s.schedule = true)
    (ht : step s = .next t) : (waiting = true → allowedWhileWaiting s.nextEvent = true) ∧
      respectsOwnership (waitsAfter waiting s.nextEvent s) t t.schedule = true := by
  rw [step_schedule ht]
  cases hs : s.schedule with
  | nil => exact ⟨fun _ => by rw [nextEvent_nil s hs]; rfl, rfl⟩
  | cons e es =>
    have he := nextEvent_cons s hs
    rw [hs] at h
    obtain ⟨hallowed, hkept⟩ := respectsOwnership_cons.1 h
    rw [← afterServing_of_step ht, he]
    exact ⟨hallowed, hkept⟩

/-- Settles O20: a busy block is read at STATUS alone, and the port answers STATUS and an idle block's reads exactly. -/
theorem ownershipMakesReadsExact : Obligations.OwnershipMakesReadsExact := by
  intro waiting s t hwaits hown ht
  obtain ⟨hallowed, hkept⟩ := respectsOwnership_step hown ht
  have hbusy : s.busy = true → allowedWhileWaiting s.nextEvent = true := fun hb => hallowed (hwaits hb)
  refine ⟨waitsAfter_of_busy hwaits ht, hkept, hbusy, fun r he => ?_, fun sp i he hi => ?_⟩
  · rw [step_eq s he, serve] at ht
    rcases hostRegRead_cases s.tick r with ⟨hb, hr, -⟩ | ⟨-, h⟩
    · have hstatus := hbusy hb
      rw [he] at hstatus
      exact absurd (beq_iff_eq.1 hstatus) hr
    · rw [h] at ht
      cases ht
      rfl
  · have hidle : s.busy = false := Bool.eq_false_iff.2 fun hb => by
      have hread := hbusy hb
      rw [he] at hread
      cases hread
    cases (step_memRead_idle hidle hi he).symm.trans ht
    rfl

end Sys2Proof.Proofs
end
